-- ==== Sys2Proof/Word.lean ====
section
/-! DEFINITION. The widths of the block's values (00_scope.md R6): lanes, masks, operand words, register
indices, and the fixed-size files built from them. Nothing is computed here. -/

namespace Sys2Proof

/-- One lane or matrix cell: a 16-bit field, read as signed two's complement (R6 LANE_W, R20, R29). -/
abbrev Lane := BitVec 16

/-- A lane mask: bit `i` enables lane `i` (R6 MASK_W, R8, R26). -/
abbrev MaskWord := BitVec 32

/-- A 64-bit scalar operand, result, stride or host virtual address (R6 XS_W, R31, R51). -/
abbrev Word64 := BitVec 64

/-- The 32-bit command word `cmd` (30_encoding.md R71). -/
abbrev CmdWord := BitVec 32

/-- A 5-bit register index or selector field of the command word (R20, R71, R73). -/
abbrev Reg := BitVec 5

/-- One byte of the host memory. -/
abbrev Byte := BitVec 8

/-- A vector register or a 32-element backend buffer: exactly 32 lanes (R20, R201). -/
abbrev LaneVec := Vector Lane 32

/-- The matrix register or a 32x32 backend buffer, row by row (R29, R201). -/
abbrev Matrix := Vector LaneVec 32

/-- The sigmoid table: 256 unsigned 16-bit entries (40_activation_unit.md R104). -/
abbrev SigmoidTable := Vector (BitVec 16) 256

end Sys2Proof
end

