-- ==== Sys2Proof/Syntax.lean ====
section
/-! DEFINITION. The commands: one constructor per row of spec/opcode_table.json (30_encoding.md R74, R76, R77).
A constructor holds the fields the row reads; a field the row ignores is no operand (R75). `xs1` and `xs2` are not
part of the command word (R71): they are operand inputs of the block and stand in State. -/

namespace Sys2Proof

/-- One command, as decoded from the 32-bit command word. -/
inductive Instr
  /-- ADD.VV, `add.vv vd, vs1, vs2` (R142). -/
  | addVV (rd rs1 rs2 : Reg)
  /-- SUB.VV, `sub.vv vd, vs1, vs2` (R143). -/
  | subVV (rd rs1 rs2 : Reg)
  /-- ADD.VS, `add.vs vd, vs2, X` (R145). -/
  | addVS (rd rs2 : Reg)
  /-- SUB.VS, `sub.vs vd, vs2, X` (R146). -/
  | subVS (rd rs2 : Reg)
  /-- MUL.VS, `mul.vs vd, vs2, X` (R147). -/
  | mulVS (rd rs2 : Reg)
  /-- DIV.VS, `div.vs vd, vs2, X` (R148). -/
  | divVS (rd rs2 : Reg)
  /-- SHUFFLE, `shuffle vd, vs1, vs2` (R170). -/
  | shuffle (rd rs1 rs2 : Reg)
  /-- ACTIVATION with kind 0, `relu vd, vs1` (R176). -/
  | activationRelu (rd rs1 : Reg)
  /-- ACTIVATION with a kind in [1, 31] (R77, R176). -/
  | activationIllegalKind (rd rs1 kind : Reg)
  /-- MINMAX with mode 0, `vmax vs1` (R182). -/
  | minmaxMax (rs1 : Reg)
  /-- MINMAX with mode 1, `vmin vs1` (R182). -/
  | minmaxMin (rs1 : Reg)
  /-- MINMAX with a mode in [2, 31] (R77, R182). -/
  | minmaxIllegalMode (rs1 mode : Reg)
  /-- DOTP, `dotp vs1, vs2` (R202). -/
  | dotp (rs1 rs2 : Reg)
  /-- MVM, `mvm vd, vs1` (R205). -/
  | mvm (rd rs1 : Reg)
  /-- CONFIG with selector 0, `setvl X` (R222). -/
  | configVL
  /-- CONFIG with selector 1, `setmask vs2, X` (R224). -/
  | configMask (rs2 : Reg)
  /-- CONFIG with selector 2, `ldmatrix X` (R226). -/
  | configMatrix
  /-- CONFIG with a selector in [3, 31] (R77, R228). -/
  | configIllegalSelector (sel : Reg)
  /-- LOAD, `load vd, X` (R241). -/
  | load (rd : Reg)
  /-- STORE, `store vs2, X` (R244). -/
  | store (rs2 : Reg)
  /-- DUMP, `dump` (R260). -/
  | dump
  /-- Unrecognized: `op` is 15 (R76, R262). -/
  | unrecognizedOp15
  /-- Unrecognized: `op` in [16, 31] (R76, R262). -/
  | unrecognizedOp16to31 (op : Reg)
  /-- Unrecognized: `op` in [0, 14] with a reserved bit of `cmd[31:20]` set (R76, R262). -/
  | unrecognizedReserved (reserved : BitVec 12)
  deriving DecidableEq, Repr

/-- The display names that key the harness counters: the mnemonics of R74, CONFIG under one name for all its
selectors, and UNKNOWN for every unrecognized command (46_dump_unknown.md R261). -/
inductive DisplayName
  | addVV | subVV | addVS | subVS | mulVS | divVS | shuffle | activation | minmax | dotp | mvm | config
  | load | store | dump | unknown
  deriving DecidableEq, Repr

end Sys2Proof
end

