-- ==== Sys2Proof/WellFormed.lean ====
section
/-! DEFINITION. Which terms of Instr stand for a command word: the conditions that spec/opcode_table.json puts on the
rows for illegal and unrecognized encodings (30_encoding.md R76, R77). -/

namespace Sys2Proof

/-- A term of Instr that some command word decodes to (the others: log 26). -/
def Instr.wf (i : Instr) : Bool :=
  match i with
  | .addVV _ _ _ => true
  | .subVV _ _ _ => true
  | .addVS _ _ => true
  | .subVS _ _ => true
  | .mulVS _ _ => true
  | .divVS _ _ => true
  | .shuffle _ _ _ => true
  | .activationRelu _ _ => true
  | .activationIllegalKind _ _ kind => decide (1 ≤ kind.toNat)
  | .minmaxMax _ => true
  | .minmaxMin _ => true
  | .minmaxIllegalMode _ mode => decide (2 ≤ mode.toNat)
  | .dotp _ _ => true
  | .mvm _ _ => true
  | .configVL => true
  | .configMask _ => true
  | .configMatrix => true
  | .configIllegalSelector sel => decide (3 ≤ sel.toNat)
  | .load _ => true
  | .store _ => true
  | .dump => true
  | .unrecognizedOp15 => true
  | .unrecognizedOp16to31 op => decide (16 ≤ op.toNat)
  | .unrecognizedReserved reserved => decide (reserved ≠ 0)

end Sys2Proof
end

