-- ==== Sys2Proof/Decode.lean ====
section
/-! DEFINITION. The decoder and the encoder of the 32-bit command word (30_encoding.md R71, R74, R76, R77, R82), and
the rows of spec/opcode_table.json as data. The decoder is total: a word outside the opcode map is one of the three
unrecognized commands by name (R76), never an error. -/

namespace Sys2Proof

/-- `op = cmd[4:0]` (R71). -/
def opField (w : CmdWord) : Reg := w.extractLsb' 0 5
/-- `rd = cmd[9:5]` (R71). -/
def rdField (w : CmdWord) : Reg := w.extractLsb' 5 5
/-- `rs1 = cmd[14:10]` (R71). -/
def rs1Field (w : CmdWord) : Reg := w.extractLsb' 10 5
/-- `rs2 = cmd[19:15]` (R71). -/
def rs2Field (w : CmdWord) : Reg := w.extractLsb' 15 5
/-- The reserved bits `cmd[31:20]` (R71). -/
def reservedField (w : CmdWord) : BitVec 12 := w.extractLsb' 20 12

/-- ACTIVATION by its kind, the `rs2` field (R74, R77, R176). -/
def decodeActivation (rd rs1 kind : Reg) : Instr :=
  if kind = 0 then .activationRelu rd rs1 else .activationIllegalKind rd rs1 kind

/-- MINMAX by its mode, the `rs2` field (R74, R77, R182). -/
def decodeMinmax (rs1 mode : Reg) : Instr :=
  if mode = 0 then .minmaxMax rs1 else if mode = 1 then .minmaxMin rs1 else .minmaxIllegalMode rs1 mode

/-- CONFIG by its selector, the `rd` field (R73, R74, R220, R228). -/
def decodeConfig (sel rs2 : Reg) : Instr :=
  if sel = 0 then .configVL
  else if sel = 1 then .configMask rs2
  else if sel = 2 then .configMatrix
  else .configIllegalSelector sel

/-- A command of the opcode map, unless a reserved bit makes the word unrecognized (R76). -/
def unlessReserved (reserved : BitVec 12) (i : Instr) : Instr :=
  if reserved = 0 then i else .unrecognizedReserved reserved

/-- The decoder of the command word (R71, R74, R76). A word with `op` in [15, 31] is named by its `op` whatever its
reserved bits are (log 21). -/
def decode (w : CmdWord) : Instr :=
  let rd := rdField w
  let rs1 := rs1Field w
  let rs2 := rs2Field w
  let reserved := reservedField w
  match (opField w).toNat with
  | 0 => unlessReserved reserved (.addVV rd rs1 rs2)
  | 1 => unlessReserved reserved (.subVV rd rs1 rs2)
  | 2 => unlessReserved reserved (.addVS rd rs2)
  | 3 => unlessReserved reserved (.subVS rd rs2)
  | 4 => unlessReserved reserved (.mulVS rd rs2)
  | 5 => unlessReserved reserved (.divVS rd rs2)
  | 6 => unlessReserved reserved (.shuffle rd rs1 rs2)
  | 7 => unlessReserved reserved (decodeActivation rd rs1 rs2)
  | 8 => unlessReserved reserved (decodeMinmax rs1 rs2)
  | 9 => unlessReserved reserved (.dotp rs1 rs2)
  | 10 => unlessReserved reserved (.mvm rd rs1)
  | 11 => unlessReserved reserved (decodeConfig rd rs2)
  | 12 => unlessReserved reserved (.load rd)
  | 13 => unlessReserved reserved (.store rs2)
  | 14 => unlessReserved reserved .dump
  | 15 => .unrecognizedOp15
  | _ => .unrecognizedOp16to31 (opField w)

/-- The command word with the given fields (R71, R82). -/
def packFields (op rd rs1 rs2 : Reg) (reserved : BitVec 12) : CmdWord :=
  (reserved ++ rs2 ++ rs1 ++ rd ++ op : BitVec (12 + 5 + 5 + 5 + 5))

/-- The command word of a well-formed command, with 0 in every field it does not give (R81, R82). -/
def encode (i : Instr) : CmdWord :=
  match i with
  | .addVV rd rs1 rs2 => packFields 0 rd rs1 rs2 0
  | .subVV rd rs1 rs2 => packFields 1 rd rs1 rs2 0
  | .addVS rd rs2 => packFields 2 rd 0 rs2 0
  | .subVS rd rs2 => packFields 3 rd 0 rs2 0
  | .mulVS rd rs2 => packFields 4 rd 0 rs2 0
  | .divVS rd rs2 => packFields 5 rd 0 rs2 0
  | .shuffle rd rs1 rs2 => packFields 6 rd rs1 rs2 0
  | .activationRelu rd rs1 => packFields 7 rd rs1 0 0
  | .activationIllegalKind rd rs1 kind => packFields 7 rd rs1 kind 0
  | .minmaxMax rs1 => packFields 8 0 rs1 0 0
  | .minmaxMin rs1 => packFields 8 0 rs1 1 0
  | .minmaxIllegalMode rs1 mode => packFields 8 0 rs1 mode 0
  | .dotp rs1 rs2 => packFields 9 0 rs1 rs2 0
  | .mvm rd rs1 => packFields 10 rd rs1 0 0
  | .configVL => packFields 11 0 0 0 0
  | .configMask rs2 => packFields 11 1 0 rs2 0
  | .configMatrix => packFields 11 2 0 0 0
  | .configIllegalSelector sel => packFields 11 sel 0 0 0
  | .load rd => packFields 12 rd 0 0 0
  | .store rs2 => packFields 13 0 0 rs2 0
  | .dump => packFields 14 0 0 0 0
  | .unrecognizedOp15 => packFields 15 0 0 0 0
  | .unrecognizedOp16to31 op => packFields op 0 0 0 0
  | .unrecognizedReserved reserved => packFields 0 0 0 0 reserved

/-- The "mask" of the command's row in spec/opcode_table.json: the bits the row fixes. -/
def Instr.tableMask (i : Instr) : CmdWord :=
  match i with
  | .addVV _ _ _ => 0xfff0001f#32
  | .subVV _ _ _ => 0xfff0001f#32
  | .addVS _ _ => 0xfff0001f#32
  | .subVS _ _ => 0xfff0001f#32
  | .mulVS _ _ => 0xfff0001f#32
  | .divVS _ _ => 0xfff0001f#32
  | .shuffle _ _ _ => 0xfff0001f#32
  | .activationRelu _ _ => 0xffff801f#32
  | .activationIllegalKind _ _ _ => 0xfff0001f#32
  | .minmaxMax _ => 0xffff801f#32
  | .minmaxMin _ => 0xffff801f#32
  | .minmaxIllegalMode _ _ => 0xfff0001f#32
  | .dotp _ _ => 0xfff0001f#32
  | .mvm _ _ => 0xfff0001f#32
  | .configVL => 0xfff003ff#32
  | .configMask _ => 0xfff003ff#32
  | .configMatrix => 0xfff003ff#32
  | .configIllegalSelector _ => 0xfff0001f#32
  | .load _ => 0xfff0001f#32
  | .store _ => 0xfff0001f#32
  | .dump => 0xfff0001f#32
  | .unrecognizedOp15 => 0x0000001f#32
  | .unrecognizedOp16to31 _ => 0x00000010#32
  | .unrecognizedReserved _ => 0x00000000#32

/-- The "match" of the command's row in spec/opcode_table.json: the values of the bits the row fixes. -/
def Instr.tableMatch (i : Instr) : CmdWord :=
  match i with
  | .addVV _ _ _ => 0x00000000#32
  | .subVV _ _ _ => 0x00000001#32
  | .addVS _ _ => 0x00000002#32
  | .subVS _ _ => 0x00000003#32
  | .mulVS _ _ => 0x00000004#32
  | .divVS _ _ => 0x00000005#32
  | .shuffle _ _ _ => 0x00000006#32
  | .activationRelu _ _ => 0x00000007#32
  | .activationIllegalKind _ _ _ => 0x00000007#32
  | .minmaxMax _ => 0x00000008#32
  | .minmaxMin _ => 0x00008008#32
  | .minmaxIllegalMode _ _ => 0x00000008#32
  | .dotp _ _ => 0x00000009#32
  | .mvm _ _ => 0x0000000a#32
  | .configVL => 0x0000000b#32
  | .configMask _ => 0x0000002b#32
  | .configMatrix => 0x0000004b#32
  | .configIllegalSelector _ => 0x0000000b#32
  | .load _ => 0x0000000c#32
  | .store _ => 0x0000000d#32
  | .dump => 0x0000000e#32
  | .unrecognizedOp15 => 0x0000000f#32
  | .unrecognizedOp16to31 _ => 0x00000010#32
  | .unrecognizedReserved _ => 0x00000000#32

/-- The bits of the command word that the command reads: the row's fixed bits and its named fields in the "encoding"
of spec/opcode_table.json; the bits written `x` there are ignored (R75). -/
def Instr.usedBits (i : Instr) : CmdWord :=
  match i with
  | .addVV _ _ _ => 0xffffffff#32
  | .subVV _ _ _ => 0xffffffff#32
  | .addVS _ _ => 0xffff83ff#32
  | .subVS _ _ => 0xffff83ff#32
  | .mulVS _ _ => 0xffff83ff#32
  | .divVS _ _ => 0xffff83ff#32
  | .shuffle _ _ _ => 0xffffffff#32
  | .activationRelu _ _ => 0xffffffff#32
  | .activationIllegalKind _ _ _ => 0xffffffff#32
  | .minmaxMax _ => 0xfffffc1f#32
  | .minmaxMin _ => 0xfffffc1f#32
  | .minmaxIllegalMode _ _ => 0xfffffc1f#32
  | .dotp _ _ => 0xfffffc1f#32
  | .mvm _ _ => 0xfff07fff#32
  | .configVL => 0xfff003ff#32
  | .configMask _ => 0xffff83ff#32
  | .configMatrix => 0xfff003ff#32
  | .configIllegalSelector _ => 0xfff003ff#32
  | .load _ => 0xfff003ff#32
  | .store _ => 0xffff801f#32
  | .dump => 0xfff0001f#32
  | .unrecognizedOp15 => 0x0000001f#32
  | .unrecognizedOp16to31 _ => 0x0000001f#32
  | .unrecognizedReserved _ => 0xfff00000#32

/-- The command is one of the three unrecognized rows (R76, R262). -/
def Instr.isUnrecognized (i : Instr) : Bool :=
  match i with
  | .addVV _ _ _ => false
  | .subVV _ _ _ => false
  | .addVS _ _ => false
  | .subVS _ _ => false
  | .mulVS _ _ => false
  | .divVS _ _ => false
  | .shuffle _ _ _ => false
  | .activationRelu _ _ => false
  | .activationIllegalKind _ _ _ => false
  | .minmaxMax _ => false
  | .minmaxMin _ => false
  | .minmaxIllegalMode _ _ => false
  | .dotp _ _ => false
  | .mvm _ _ => false
  | .configVL => false
  | .configMask _ => false
  | .configMatrix => false
  | .configIllegalSelector _ => false
  | .load _ => false
  | .store _ => false
  | .dump => false
  | .unrecognizedOp15 => true
  | .unrecognizedOp16to31 _ => true
  | .unrecognizedReserved _ => true

/-- The display name the harness counts the command under (46_dump_unknown.md R261). -/
def Instr.displayName (i : Instr) : DisplayName :=
  match i with
  | .addVV _ _ _ => .addVV
  | .subVV _ _ _ => .subVV
  | .addVS _ _ => .addVS
  | .subVS _ _ => .subVS
  | .mulVS _ _ => .mulVS
  | .divVS _ _ => .divVS
  | .shuffle _ _ _ => .shuffle
  | .activationRelu _ _ => .activation
  | .activationIllegalKind _ _ _ => .activation
  | .minmaxMax _ => .minmax
  | .minmaxMin _ => .minmax
  | .minmaxIllegalMode _ _ => .minmax
  | .dotp _ _ => .dotp
  | .mvm _ _ => .mvm
  | .configVL => .config
  | .configMask _ => .config
  | .configMatrix => .config
  | .configIllegalSelector _ => .config
  | .load _ => .load
  | .store _ => .store
  | .dump => .dump
  | .unrecognizedOp15 => .unknown
  | .unrecognizedOp16to31 _ => .unknown
  | .unrecognizedReserved _ => .unknown

/-- The place of a display name among the 16 counters: the opcode number of R74, and 15 for UNKNOWN. -/
def DisplayName.index (n : DisplayName) : Fin 16 :=
  match n with
  | .addVV => 0
  | .subVV => 1
  | .addVS => 2
  | .subVS => 3
  | .mulVS => 4
  | .divVS => 5
  | .shuffle => 6
  | .activation => 7
  | .minmax => 8
  | .dotp => 9
  | .mvm => 10
  | .config => 11
  | .load => 12
  | .store => 13
  | .dump => 14
  | .unknown => 15

/-- The host's view of the decoder: the command of an `nbits`-bit word `w`, `cmd[31:0]` with the bits above `nbits`
zero. There is one 32-bit format (R72), so a longer word is none. -/
def decodeTableWord (nbits w : Nat) : Option Instr :=
  if nbits ≤ 32 ∧ w < 2 ^ 32 then some (decode (BitVec.ofNat 32 w)) else none

end Sys2Proof
end

