-- ==== Sys2Proof/Config.lean ====
section
/-! DEFINITION. The kinds of the parameters the spec leaves open (00_scope.md R7) and the free values. A
parameter that plain data can hold is a field of State of one of the types below, so that a statement over every
state holds for every value of it; what only a function can hold is an opaque constant with no body. -/

namespace Sys2Proof.Machine

/-- `LANE_OVERFLOW` (41_lane_arith.md R141): how an exact lane result is reduced to 16 bits. -/
inductive LaneOverflow
  | wrap      -- two's-complement wrap modulo 2^16, this hardware's value
  | saturate  -- clamp to [-32768, 32767], the alternative
  deriving DecidableEq, Repr

/-- `DIV_FN` (41_lane_arith.md R148): which integer quotient DIV.VS takes (log 22). -/
inductive DivFn
  | truncating  -- signed, truncated toward zero, this hardware's value
  | external    -- any other function of the two operands: `Config.divFn`
  deriving DecidableEq, Repr

/-- `HOST_BYTE_ORDER` (20_memory.md R54): which byte of a 16-bit value lies at the lower address. -/
inductive ByteOrder
  | little  -- the low byte
  | big     -- the high byte
  deriving DecidableEq, Repr

/-- How the host memory answers one access (`HOST_MEM`, R55 to R57; log 4, log 5). -/
inductive HostAnswer
  | plain   -- as plain memory: a load sees the latest store
  | device  -- it answers, but what it returns or does is the host's own: a load gives a free value
  | fault   -- it reports a fault for the access (R56)
  | never   -- it never answers (00_scope.md R11 (d))
  deriving DecidableEq, Repr

/-- Whether an access of the memory port is a load or a store (R50). -/
inductive AccessKind
  | load
  | store
  deriving DecidableEq, Repr

/-- A stretch of host addresses with one way of answering (`HOST_MEM`, R58, R59; log 4). It covers `size`
addresses from `base` on, or only the odd ones among them (a host that refuses misaligned accesses, R55). -/
structure HostRegion where
  base    : Nat
  size    : Nat
  oddOnly : Bool
  onLoad  : HostAnswer
  onStore : HostAnswer
  deriving DecidableEq, Repr

/-- Which functions the numeric backend computes (43_backend_ops.md R201, R203, R206; log 10). -/
inductive Backend
  | reference  -- the reference DOTP_FN and MVM_FN that the spec decides for this hardware
  | external   -- any other functions: `Config.dotpFn` and `Config.mvmFn`
  | silent     -- a backend that never answers a call
  deriving DecidableEq, Repr

/-- The host's own traps that R306's reference mapping names, and any other one by a number. -/
inductive HostTrap
  | illegalInstruction
  | loadAccessFault
  | storeAccessFault
  | other (n : Nat)
  deriving DecidableEq, Repr

/-- `HOST_FAULT_MAP` (60_exceptions.md R306): the host trap for each fault of the block; a memory fault is told
apart by the access that faulted. -/
structure FaultMap where
  illegalConfiguration : HostTrap
  illegalOperationMode : HostTrap
  arithmeticUndefined  : HostTrap
  illegalOperand       : HostTrap
  memoryFaultOnLoad    : HostTrap
  memoryFaultOnStore   : HostTrap
  backendUnavailable   : HostTrap
  deriving DecidableEq, Repr

end Sys2Proof.Machine

namespace Sys2Proof

/-- FREE VALUE (log 14): the n-th unspecified 16-bit value. Unspecified lanes and cells after a memory fault (R311)
and what a device returns to a load (R57) are taken from it, a fresh `n` each. -/
opaque Config.freeLane : Nat → Lane

/-- The parameter `DIV_FN` of a model that does not take this hardware's value (00_scope.md R7, 41_lane_arith.md R148): any
total function of the lane and of `xs1`, each given as the integer it is read as signed (log 22). -/
opaque Config.divFn : Int → Int → Int

/-- OPEN parameter `DOTP_FN` of a backend other than the reference one (R203): any total function of the two
32-element buffers (log 10). -/
opaque Config.dotpFn : LaneVec → LaneVec → Int

/-- OPEN parameter `MVM_FN` of a backend other than the reference one (R206): any total function of the square
buffer and the vector buffer returning 32 signed 16-bit values (log 10). -/
opaque Config.mvmFn : Matrix → LaneVec → LaneVec

end Sys2Proof
end

