-- ==== Sys2Proof/Machine/SigmoidLut.lean ====
section
/-! DEFINITION. The reference instantiation of the parameter `SIGMOID_LUT` (40_activation_unit.md R105), the constraint
R104 puts on every table, and the one way a table is read. -/

namespace Sys2Proof.Machine

/-- Entries 0 to 15 of the table listed in R105. -/
def lutRow0 : List Nat :=
  [32768, 33451, 34133, 34813, 35492, 36169, 36843, 37513, 38179, 38841, 39498, 40149, 40793, 41432, 42063, 42687]
/-- Entries 16 to 31 of the table listed in R105. -/
def lutRow16 : List Nat :=
  [43303, 43911, 44511, 45101, 45682, 46254, 46816, 47369, 47911, 48442, 48964, 49474, 49974, 50463, 50941, 51408]
/-- Entries 32 to 47 of the table listed in R105. -/
def lutRow32 : List Nat :=
  [51865, 52310, 52744, 53168, 53581, 53982, 54374, 54754, 55124, 55484, 55834, 56173, 56502, 56822, 57132, 57433]
/-- Entries 48 to 63 of the table listed in R105. -/
def lutRow48 : List Nat :=
  [57724, 58006, 58279, 58544, 58800, 59048, 59287, 59519, 59743, 59959, 60168, 60370, 60565, 60753, 60934, 61109]
/-- Entries 64 to 79 of the table listed in R105. -/
def lutRow64 : List Nat :=
  [61278, 61441, 61598, 61750, 61896, 62036, 62172, 62302, 62428, 62549, 62666, 62778, 62886, 62990, 63090, 63186]
/-- Entries 80 to 95 of the table listed in R105. -/
def lutRow80 : List Nat :=
  [63279, 63368, 63453, 63536, 63615, 63691, 63764, 63835, 63903, 63968, 64030, 64090, 64148, 64203, 64257, 64308]
/-- Entries 96 to 111 of the table listed in R105. -/
def lutRow96 : List Nat :=
  [64357, 64405, 64450, 64494, 64535, 64576, 64614, 64651, 64687, 64721, 64754, 64786, 64816, 64845, 64873, 64900]
/-- Entries 112 to 127 of the table listed in R105. -/
def lutRow112 : List Nat :=
  [64925, 64950, 64974, 64997, 65018, 65039, 65060, 65079, 65097, 65115, 65132, 65149, 65164, 65179, 65194, 65208]
/-- Entries 128 to 143 of the table listed in R105. -/
def lutRow128 : List Nat :=
  [65221, 65234, 65246, 65258, 65269, 65280, 65291, 65300, 65310, 65319, 65328, 65337, 65345, 65352, 65360, 65367]
/-- Entries 144 to 159 of the table listed in R105. -/
def lutRow144 : List Nat :=
  [65374, 65381, 65387, 65393, 65399, 65404, 65410, 65415, 65420, 65425, 65429, 65433, 65438, 65442, 65445, 65449]
/-- Entries 160 to 175 of the table listed in R105. -/
def lutRow160 : List Nat :=
  [65453, 65456, 65459, 65462, 65465, 65468, 65471, 65474, 65476, 65479, 65481, 65483, 65485, 65488, 65489, 65491]
/-- Entries 176 to 191 of the table listed in R105. -/
def lutRow176 : List Nat :=
  [65493, 65495, 65497, 65498, 65500, 65501, 65503, 65504, 65505, 65507, 65508, 65509, 65510, 65511, 65512, 65513]
/-- Entries 192 to 207 of the table listed in R105. -/
def lutRow192 : List Nat :=
  [65514, 65515, 65516, 65517, 65517, 65518, 65519, 65520, 65520, 65521, 65522, 65522, 65523, 65523, 65524, 65524]
/-- Entries 208 to 223 of the table listed in R105. -/
def lutRow208 : List Nat :=
  [65525, 65525, 65526, 65526, 65526, 65527, 65527, 65528, 65528, 65528, 65529, 65529, 65529, 65529, 65530, 65530]
/-- Entries 224 to 239 of the table listed in R105. -/
def lutRow224 : List Nat :=
  [65530, 65530, 65531, 65531, 65531, 65531, 65531, 65532, 65532, 65532, 65532, 65532, 65532, 65533, 65533, 65533]
/-- Entries 240 to 255 of the table listed in R105. -/
def lutRow240 : List Nat :=
  [65533, 65533, 65533, 65533, 65533, 65534, 65534, 65534, 65534, 65534, 65534, 65534, 65534, 65534, 65534, 65534]

/-- The 256 entries of the table listed in R105, in order. -/
def lutReferenceList : List Nat :=
  lutRow0 ++ lutRow16 ++ lutRow32 ++ lutRow48
    ++ lutRow64 ++ lutRow80 ++ lutRow96 ++ lutRow112
    ++ lutRow128 ++ lutRow144 ++ lutRow160 ++ lutRow176
    ++ lutRow192 ++ lutRow208 ++ lutRow224 ++ lutRow240

/-- The reference instantiation of `SIGMOID_LUT` (R105). -/
def lutReference : SigmoidTable :=
  Vector.ofFn fun i => BitVec.ofNat 16 (lutReferenceList.getD i.val 0)

/-- `T[i]` as an unsigned integer, for an index in [0, 256) (R104). -/
def lutEntry (t : SigmoidTable) (i : Nat) : Int := ((t.get (Fin.ofNat 256 i)).toNat : Int)

/-- What R104 fixes of every table: `T[0] = 32768` and the entries never fall. The entries lie in [0, 65535] by their
width. That they approximate the sigmoid function is not a condition that can be checked and is left out (log 8). -/
abbrev lutLegal (t : SigmoidTable) : Prop :=
  lutEntry t 0 = 32768 ∧ ∀ i : Fin 255, lutEntry t i.val ≤ lutEntry t (i.val + 1)

end Sys2Proof.Machine
end

