-- ==== Sys2Proof/Machine/State.lean ====
section
/-! DEFINITION. The machine's state as plain data: the block's registers (10_state.md), the values its ports hold
(30_encoding.md R79), the harness and host state its contract exposes, and the parameters of 00_scope.md R7 that plain
data can hold. No field is read or written directly by a meaning where Machine/Ops.lean gives an operation for it. -/

namespace Sys2Proof.Machine

/-- The six fault causes (60_exceptions.md R300). A memory fault knows the access that faulted, because the host maps it
by that access (R306); its code is one. -/
inductive FaultCause
  | illegalConfiguration
  | illegalOperationMode
  | arithmeticUndefined
  | illegalOperand
  | memoryFault (access : AccessKind)
  | backendUnavailable
  deriving DecidableEq, Repr

/-- The response outputs of the block (R79): `resp_valid`, `result`, `fault`, `cause`, `unrecognized`. They hold their
values until the next command is accepted (R80). -/
structure Response where
  valid        : Bool
  result       : Word64
  fault        : Bool
  cause        : BitVec 3
  unrecognized : Bool
  deriving DecidableEq, Repr

/-- No response: every output 0 (R341). -/
def Response.none : Response :=
  { valid := false, result := 0, fault := false, cause := 0, unrecognized := false }

/-- What a command in progress waits for and is never given (00_scope.md R11 (d), 43_backend_ops.md R201). -/
inductive Waiting
  | memory
  | backend
  deriving DecidableEq, Repr

/-- One call on a port of the block (R79 `mem_req`, `be_req`): an access of the memory port (20_memory.md R50) or a call
of the numeric backend with its shaped buffers (43_backend_ops.md R201). -/
inductive PortCall
  | load (addr : Word64)
  | store (addr : Word64) (value : Lane)
  | dotp (a b : LaneVec)
  | mvm (w : Matrix) (v : LaneVec)
  deriving DecidableEq, Repr

/-- One line of what the harness emits: the opcode-to-count pairs of a DUMP (46_dump_unknown.md R260; the text format is
left out, log 16) or the report of an unrecognized command (R262). -/
inductive LogEntry
  | counts (c : Vector Nat 16)
  | unrecognized
  deriving DecidableEq, Repr

/-- What the host or the harness offers to the block (30_encoding.md R79, R80). -/
inductive HostEvent
  /-- A command with its two scalar operands (R70, R80). -/
  | command (cmd : CmdWord) (xs1 xs2 : Word64)
  /-- The side-band stride write, `cfg_stride_we = 1` (44_config.md R230). -/
  | strideWrite (value : Word64)
  /-- A request on the direct activation port (40_activation_unit.md R100). -/
  | activation (kind : BitVec 2) (x : Lane) (shift : BitVec 5)
  /-- The input `rst` is driven: asserted for `true`, released for `false` (70_reset_and_hazards.md R340). -/
  | rst (asserted : Bool)
  /-- A command during which `rst` is asserted, after at most `performed` of the command's port calls (R340; log 29). -/
  | abandonedCommand (cmd : CmdWord) (xs1 xs2 : Word64) (performed : Nat)
  /-- The harness's one-time backend initialization, having succeeded (R343; log 25). -/
  | backendInit
  /-- The host writes one byte of its own memory between commands (20_memory.md R61; log 24). -/
  | hostWrite (addr : Word64) (value : Byte)
  deriving DecidableEq, Repr

/-- The bytes of the host memory: (address, byte) pairs in the canonical form of `Memory.wf` (R50, R51; log 3). -/
abbrev Memory := List Host.Cell

/-- What stands behind the block's memory port and backend port, and the calls made there so far. -/
structure Outside where
  /-- The host memory's bytes (R51; log 3). -/
  mem     : Memory
  /-- `HOST_BYTE_ORDER` (R54; log 7). -/
  order   : ByteOrder
  /-- `HOST_MEM`: how stretches of addresses answer; the first region that covers an address decides, and an address no
  region covers answers as plain memory (R55 to R59; log 4). -/
  regions : List HostRegion
  /-- Which functions the backend computes (R201, R203, R206; log 10). -/
  backend : Backend
  /-- The calls on the two ports, newest first; an observation that nothing reads back (log 15). -/
  calls   : List PortCall
  /-- MODEL's own: how many free values have been used (log 14). -/
  fresh   : Nat
  deriving DecidableEq, Repr

/-- The state of one block with its host and harness. -/
structure State where
  /-- The vector register file `V` (R20 to R25). -/
  v : Vector LaneVec 32
  /-- The lane masks `MASK` (R26 to R28). -/
  mask : Vector MaskWord 32
  /-- The matrix register `M`, row by row (R29). -/
  m : Matrix
  /-- `VL`, an integer in [1, 32] in every legal state (R30). -/
  vl : Nat
  /-- `STRIDE` (R31). -/
  stride : Word64
  /-- The scalar operand input `xs1` of the command accepted last (R70, R79). -/
  xs1 : Word64
  /-- The scalar operand input `xs2`, which no command reads (R73, R79). -/
  xs2 : Word64
  /-- The response outputs (R79, R305). -/
  resp : Response
  /-- The command in progress that is never answered; none when no command is in progress (R80, 00_scope.md R11 (d)). -/
  waiting : Option Waiting
  /-- The reset input `rst` (R79): asserted. While it is, the block accepts no command (70_reset_and_hazards.md R340). -/
  rst : Bool
  /-- The direct activation port's `act_kind` input (R100). -/
  actKind : BitVec 2
  /-- The direct activation port's `act_x` input (R100). -/
  actX : Lane
  /-- The direct activation port's `act_s` input (R100). -/
  actS : BitVec 5
  /-- `BRIDGE_READY` (R36). -/
  bridgeReady : Bool
  /-- The harness's instruction counters, by `DisplayName.index` (R35, R261). -/
  counts : Vector Nat 16
  /-- What the harness has emitted, newest first (R260, R262; log 16). -/
  harnessLog : List LogEntry
  /-- The host trap that answers the last faulting command (R306; log 17). -/
  hostTrap : Option HostTrap
  /-- The parameter `SIGMOID_LUT` (R104; log 8). -/
  lut : SigmoidTable
  /-- The parameter `LANE_OVERFLOW` (R141; log 9). -/
  overflow : LaneOverflow
  /-- The parameter `DIV_FN` (R148; log 22). -/
  divFn : DivFn
  /-- The parameter `HOST_FAULT_MAP` (R306; log 17). -/
  faultMap : FaultMap
  /-- The host memory and the numeric backend behind the block's ports. -/
  outside : Outside
  /-- MODEL's own: what the host and the harness offer next, in order (log 1). -/
  inbox : List HostEvent
  deriving DecidableEq, Repr

/-- No step stops with a fault: a fault of the block is a response (60_exceptions.md R305), and a command that is never
answered is the state `waiting`. The type has no constructor. -/
inductive Fault
  deriving DecidableEq, Repr

/-- Why a step has no meaning. -/
inductive Refusal
  /-- Raised by an arm of `exec` whose instruction has no meaning in the model yet; no arm of this model raises it. Safe:
  nothing is proved of such an instruction. -/
  | notModelled (mnemonic : String)
  deriving DecidableEq, Repr

/-- The reference mapping of `HOST_FAULT_MAP` (R306). -/
def referenceFaultMap : FaultMap :=
  { illegalConfiguration := .illegalInstruction
    illegalOperationMode := .illegalInstruction
    arithmeticUndefined := .illegalInstruction
    illegalOperand := .illegalInstruction
    memoryFaultOnLoad := .loadAccessFault
    memoryFaultOnStore := .storeAccessFault
    backendUnavailable := .illegalInstruction }

/-- The machine right after process start (70_reset_and_hazards.md R341). What R341 does not give is named in the log:
the operand and activation inputs (log 18), the harness's log (log 16), the parameters (log 4, 7, 8, 9, 10, 17, 22). `rst` is
released, since after reset the block waits for a command (R340, R342). -/
def State.reset : State :=
  { v := Vector.replicate 32 (Vector.replicate 32 0)
    mask := Vector.replicate 32 0xffffffff#32
    m := Vector.replicate 32 (Vector.replicate 32 0)
    vl := 32
    stride := 1
    xs1 := 0
    xs2 := 0
    resp := Response.none
    waiting := none
    rst := false
    actKind := 0
    actX := 0
    actS := 0
    bridgeReady := false
    counts := Vector.replicate 16 0
    harnessLog := []
    hostTrap := none
    lut := lutReference
    overflow := .wrap
    divFn := .truncating
    faultMap := referenceFaultMap
    outside :=
      { mem := []
        order := .little
        regions := []
        backend := .reference
        calls := []
        fresh := 0 }
    inbox := [] }

end Sys2Proof.Machine
end

