-- ==== Sys2Proof/Machine/Flags.lean ====
section
/-! DEFINITION. The block has no flags or condition codes (10_state.md R33); its only per-command status is the response.
This file holds the status values a response carries: the cause codes (60_exceptions.md R300), the shapes of the four
kinds of response, and the host trap of a fault (R306). -/

namespace Sys2Proof.Machine

/-- The 3-bit cause code (R300). Code 0 is "no fault" and code 7 is never produced. -/
def FaultCause.code (c : FaultCause) : BitVec 3 :=
  match c with
  | .illegalConfiguration => 1
  | .illegalOperationMode => 2
  | .arithmeticUndefined => 3
  | .illegalOperand => 4
  | .memoryFault _ => 5
  | .backendUnavailable => 6

/-- The response of a command that completed with the given scalar result (R79). -/
def Response.completed (result : Word64) : Response :=
  { valid := true, result := result, fault := false, cause := 0, unrecognized := false }

/-- The response of a faulting command (R305). -/
def Response.faulted (c : FaultCause) : Response :=
  { valid := true, result := 0, fault := true, cause := c.code, unrecognized := false }

/-- The response of an unrecognized command (46_dump_unknown.md R262). -/
def Response.unknown : Response :=
  { valid := true, result := 0, fault := false, cause := 0, unrecognized := true }

/-- The host trap that `HOST_FAULT_MAP` gives for a fault (R306). -/
def FaultMap.trapFor (f : FaultMap) (c : FaultCause) : HostTrap :=
  match c with
  | .illegalConfiguration => f.illegalConfiguration
  | .illegalOperationMode => f.illegalOperationMode
  | .arithmeticUndefined => f.arithmeticUndefined
  | .illegalOperand => f.illegalOperand
  | .memoryFault .load => f.memoryFaultOnLoad
  | .memoryFault .store => f.memoryFaultOnStore
  | .backendUnavailable => f.backendUnavailable

end Sys2Proof.Machine
end

