-- ==== Sys2Proof/Machine/Operands.lean ====
section
/-! DEFINITION. How operands are formed and exact integers narrowed: the signed readings and narrowings of 00_scope.md
R9, register, mask and masked-lane operands (R73, R140, R144), and lane results (41_lane_arith.md R141). -/

namespace Sys2Proof.Machine

/-- `s16(v)`: the 16-bit field whose value is `v` modulo 2^16 (R9). -/
def s16 (v : Int) : Lane := BitVec.ofInt 16 v

/-- `s32(v)`: the signed 32-bit value that agrees with `v` modulo 2^32 (R9). -/
def s32 (v : Int) : Int := (BitVec.ofInt 32 v).toInt

/-- `low_64(v)` (R9); on a signed 16-bit value it is the sign extension of 42_shuffle_act_minmax.md R183. -/
def low64 (v : Int) : Word64 := BitVec.ofInt 64 v

/-- `fit16(v)` under the parameter `LANE_OVERFLOW` (R141). -/
def fit16 (o : LaneOverflow) (v : Int) : Lane :=
  match o with
  | .wrap => s16 v
  | .saturate => s16 (max (-32768) (min 32767 v))

/-- The register `V[r]` (R20, R73). -/
def State.reg (s : State) (r : Reg) : LaneVec := s.v[r.toNat]'r.isLt

/-- The lane `V[r][i]` (R10, R20). -/
def State.lane (s : State) (r : Reg) (i : Fin 32) : Lane := (s.reg r)[i]

/-- The mask `MASK[r]` (R26, R73). -/
def State.maskOf (s : State) (r : Reg) : MaskWord := s.mask[r.toNat]'r.isLt

/-- Bit `i` of `MASK[r]`: lane `i` of `V[r]` is enabled (R8, R26). -/
def State.enabled (s : State) (r : Reg) (i : Fin 32) : Bool := (s.maskOf r).getLsbD i.val

/-- The masked source lane `i` of register `r`: `maskedOp1[i]` or `maskedOp2[i]` (R12, R140). -/
def State.masked (s : State) (r : Reg) (i : Fin 32) : Lane := if s.enabled r i then s.lane r i else 0

/-- The cell `M[row][col]` (R29). -/
def State.cell (s : State) (row col : Fin 32) : Lane := s.m[row][col]

/-- The number of elements every lane loop covers, `min(vectorLength, 32)`; it is `VL` in every legal state (R30; log 23). -/
def State.active (s : State) : Nat := min s.vl 32

/-- The register contents with the given lanes. -/
@[irreducible] def lanesOf (f : Fin 32 → Lane) : LaneVec := Vector.ofFn f

/-- A register's lanes as a writing command leaves them: `f i` below the vector length, 0 from there on (R23). -/
def tailZeroed (vl : Nat) (f : Fin 32 → Lane) : LaneVec := lanesOf fun i => if i.val < vl then f i else 0

/-- The zero-padded 32-element buffer of the masked active lanes of register `r` (43_backend_ops.md R201, R202, R205). -/
def State.maskedBuffer (s : State) (r : Reg) : LaneVec := tailZeroed s.vl (s.masked r)

/-- The matrix with the given cells. -/
@[irreducible] def matrixOf (f : Fin 32 → Fin 32 → Lane) : Matrix :=
  Vector.ofFn fun row => Vector.ofFn fun col => f row col

/-- The zero-padded square buffer: the `VL x VL` block of `M` (R205). -/
def State.matrixBuffer (s : State) : Matrix :=
  matrixOf fun row col => if row.val < s.vl ∧ col.val < s.vl then s.cell row col else 0

end Sys2Proof.Machine
end

