-- ==== Sys2Proof/Machine/Ops.lean ====
section
/-! DEFINITION. The named operations over registers, the host memory, the ports and the response: every meaning is
written over these. Raising a fault is ONE operation, `State.raise` (60_exceptions.md R305); the block has no return from
it (R307). -/

namespace Sys2Proof.Machine

/-! The host memory as bytes. -/

/-- What a byte that nothing has written reads as (log 3). -/
def unlistedByte : Byte := 0

/-- The byte at an address. -/
def Memory.read (m : Memory) (a : Nat) : Byte :=
  match m with
  | [] => unlistedByte
  | (k, b) :: rest => if k = a then b else Memory.read rest a

/-- The memory after one byte is written, in canonical form again. -/
def Memory.write (m : Memory) (a : Nat) (x : Byte) : Memory :=
  match m with
  | [] => if x = unlistedByte then [] else [(a, x)]
  | (k, b) :: rest =>
    if a < k then (if x = unlistedByte then (k, b) :: rest else (a, x) :: (k, b) :: rest)
    else if a = k then (if x = unlistedByte then rest else (k, x) :: rest)
    else (k, b) :: Memory.write rest a x

/-- Addresses rise strictly from `lo` on and stay below 2^64, and no entry equals what an unlisted address reads as. -/
def Memory.risingFrom (m : Memory) (lo : Nat) : Bool :=
  match m with
  | [] => true
  | (k, b) :: rest =>
    decide (lo ≤ k) && decide (k < 2 ^ 64) && decide (b ≠ unlistedByte) && Memory.risingFrom rest (k + 1)

/-- The canonical form of the memory. -/
def Memory.wf (m : Memory) : Bool := m.risingFrom 0

/-! The memory port (20_memory.md). -/

/-- The address of element `k`: `low_64(xs1 + k * STRIDE * 2)` (R53, R240). -/
def elementAddress (base stride : Word64) (k : Nat) : Word64 :=
  BitVec.ofNat 64 (base.toNat + k * stride.toNat * 2)

/-- The region covers the address of an access (log 4). -/
def HostRegion.covers (g : HostRegion) (a : Word64) : Bool :=
  decide (g.base ≤ a.toNat) && decide (a.toNat < g.base + g.size) && (!g.oddOnly || decide (a.toNat % 2 = 1))

/-- How the region answers an access of the given kind. -/
def HostRegion.answer (g : HostRegion) (k : AccessKind) : HostAnswer :=
  match k with
  | .load => g.onLoad
  | .store => g.onStore

/-- How the host memory answers an access at an address (`HOST_MEM`, R55, R56, R59). -/
def Outside.answer (o : Outside) (k : AccessKind) (a : Word64) : HostAnswer :=
  match o.regions.find? fun g => g.covers a with
  | some g => g.answer k
  | none => .plain

/-- The byte of the host memory at an address. -/
def Outside.byteAt (o : Outside) (a : Word64) : Byte := o.mem.read a.toNat

/-- The 16-bit value that plain host memory holds at an address, in the host's byte order (R52, R54; log 6). -/
def Outside.valueAt (o : Outside) (a : Word64) : Lane :=
  match o.order with
  | .little => o.byteAt (a + 1) ++ o.byteAt a
  | .big => o.byteAt a ++ o.byteAt (a + 1)

/-- The byte of a 16-bit value that lies at the access's own address, and the one after it (R54). -/
def laneBytes (order : ByteOrder) (x : Lane) : Byte × Byte :=
  match order with
  | .little => (x.extractLsb' 0 8, x.extractLsb' 8 8)
  | .big => (x.extractLsb' 8 8, x.extractLsb' 0 8)

/-- Plain host memory after a 16-bit value is stored at an address (R52, R54; log 6). -/
def Outside.putValue (o : Outside) (a : Word64) (x : Lane) : Outside :=
  { o with
    mem := (o.mem.write a.toNat (laneBytes o.order x).1).write (a + 1).toNat (laneBytes o.order x).2 }

/-- A port call is issued. -/
def Outside.issue (o : Outside) (c : PortCall) : Outside := { o with calls := c :: o.calls }

/-- The free values `fresh`, ..., `fresh + n - 1` are used up (log 14). -/
def Outside.useFree (o : Outside) (n : Nat) : Outside := { o with fresh := o.fresh + n }

/-- How an access, or a run of accesses, ended (R11, R56). -/
inductive Ending
  | done   -- every access was answered
  | fault  -- the host reported a fault for the last access issued
  | never  -- the last access issued is never answered
  deriving DecidableEq, Repr

/-- One access: how it ended, the value a load returned, and what stands behind the ports afterwards. -/
structure Access where
  ending  : Ending
  value   : Lane
  outside : Outside
  deriving DecidableEq, Repr

/-- `MemRead(addr, 2)` (R10, R50). -/
def Outside.memRead (o : Outside) (a : Word64) : Access :=
  match o.answer .load a with
  | .plain => ⟨.done, o.valueAt a, o.issue (.load a)⟩
  | .device => ⟨.done, Config.freeLane o.fresh, (o.useFree 1).issue (.load a)⟩
  | .fault => ⟨.fault, 0, o.issue (.load a)⟩
  | .never => ⟨.never, 0, o.issue (.load a)⟩

/-- `MemWrite(addr, 2, x)` (R10, R50). What a device does with a store is the host's own (log 5). DESIGN CHOICE: a store that
the host memory never answers leaves the memory as it was; the spec does not say whether it was performed (R11 (d), R57,
45_load_store.md R244; log 27). -/
def Outside.memWrite (o : Outside) (a : Word64) (x : Lane) : Access :=
  match o.answer .store a with
  | .plain => ⟨.done, 0, (o.putValue a x).issue (.store a x)⟩
  | .device => ⟨.done, 0, o.issue (.store a x)⟩
  | .fault => ⟨.fault, 0, o.issue (.store a x)⟩
  | .never => ⟨.never, 0, o.issue (.store a x)⟩

/-- A run of loads: the values read in element order, how the run ended, and what stands behind the ports afterwards. -/
structure LoadRun where
  values  : List Lane
  ending  : Ending
  outside : Outside
  deriving DecidableEq, Repr

/-- `n` loads of the elements `k`, `k + 1`, ... one at a time; the first access that is not answered with a value ends
the run (R56, R60). -/
def Outside.loadRun (o : Outside) (base stride : Word64) (n k : Nat) : LoadRun :=
  match n with
  | 0 => ⟨[], .done, o⟩
  | n + 1 =>
    match o.memRead (elementAddress base stride k) with
    | ⟨.done, x, o'⟩ =>
      let rest := o'.loadRun base stride n (k + 1)
      ⟨x :: rest.values, rest.ending, rest.outside⟩
    | ⟨.fault, _, o'⟩ => ⟨[], .fault, o'⟩
    | ⟨.never, _, o'⟩ => ⟨[], .never, o'⟩

/-- Stores of the given values to the elements `k`, `k + 1`, ... one at a time (R56, R60). -/
def Outside.storeRun (o : Outside) (base stride : Word64) (xs : List Lane) (k : Nat) : Ending × Outside :=
  match xs with
  | [] => (.done, o)
  | x :: rest =>
    match o.memWrite (elementAddress base stride k) x with
    | ⟨.done, _, o'⟩ => o'.storeRun base stride rest (k + 1)
    | ⟨.fault, _, o'⟩ => (.fault, o')
    | ⟨.never, _, o'⟩ => (.never, o')

/-! The numeric backend port (43_backend_ops.md). -/

/-- The reference `DOTP_FN`: the exact integer sum of the products (R203). -/
def dotpReference (a b : LaneVec) : Int := ((List.finRange 32).map fun i => a[i].toInt * b[i].toInt).sum

/-- The reference `MVM_FN`: row times vector, each sum modulo 2^16 (R206). -/
def mvmReference (w : Matrix) (x : LaneVec) : LaneVec := Vector.ofFn fun row => s16 (dotpReference w[row] x)

/-- The backend's dot product, or no answer ever (R201, R203). -/
def Backend.dotp (b : Backend) (x y : LaneVec) : Option Int :=
  match b with
  | .reference => some (dotpReference x y)
  | .external => some (Config.dotpFn x y)
  | .silent => none

/-- The backend's matrix-vector product, or no answer ever (R201, R206). -/
def Backend.mvm (b : Backend) (w : Matrix) (x : LaneVec) : Option LaneVec :=
  match b with
  | .reference => some (mvmReference w x)
  | .external => some (Config.mvmFn w x)
  | .silent => none

/-! The block's registers. -/

/-- `V[rd]` replaced whole. -/
def State.setReg (s : State) (rd : Reg) (x : LaneVec) : State := { s with v := s.v.set rd.toNat x rd.isLt }

/-- A writing command's write of `V[rd]`: `f i` in the active lanes and 0 in the tail (R23); the destination's mask plays
no part (R27). -/
def State.writeReg (s : State) (rd : Reg) (f : Fin 32 → Lane) : State := s.setReg rd (tailZeroed s.vl f)

/-- `VL` replaced (R30, R222). -/
def State.setVL (s : State) (n : Nat) : State := { s with vl := n }

/-- What stands behind the ports replaced, after a call. -/
def State.withOutside (s : State) (o : Outside) : State := { s with outside := o }

/-- `MASK[r]` replaced whole (R27, 44_config.md R224). -/
def State.setMask (s : State) (r : Reg) (x : MaskWord) : State := { s with mask := s.mask.set r.toNat x r.isLt }

/-- `M` replaced whole (R29). -/
def State.setMatrix (s : State) (x : Matrix) : State := { s with m := x }

/-- The block of `M` that CONFIG selector 2 loads: element `row * VL + col` of the list goes to `M[row][col]`; a cell
outside the block, or past the end of the list, keeps its value (44_config.md R226). -/
def State.fillMatrix (s : State) (xs : List Lane) : State :=
  s.setMatrix (matrixOf fun row col =>
    if row.val < s.active ∧ col.val < s.active then xs.getD (row.val * s.active + col.val) (s.cell row col)
    else s.cell row col)

/-- Every lane of `V[rd]` becomes unspecified (60_exceptions.md R311 (a); log 14). -/
def State.scrambleReg (s : State) (rd : Reg) : State :=
  (s.setReg rd (lanesOf fun i => Config.freeLane (s.outside.fresh + i.val))).withOutside (s.outside.useFree 32)

/-- Every cell of the `VL x VL` block of `M` becomes unspecified (R311 (b); log 14). -/
def State.scrambleMatrix (s : State) : State :=
  (s.setMatrix (matrixOf fun row col =>
    if row.val < s.active ∧ col.val < s.active then Config.freeLane (s.outside.fresh + row.val * 32 + col.val)
    else s.cell row col)).withOutside (s.outside.useFree 1024)

/-- The values STORE sends, in element order: the active lanes of `V[rs2]`, unmasked (45_load_store.md R244). -/
def State.storedLanes (s : State) (rs2 : Reg) : List Lane := (s.reg rs2).toList.take s.active

/-! How a command ends. -/

/-- The command completes with a scalar result (R79, R80). -/
def State.complete (s : State) (result : Word64) : State :=
  { s with resp := Response.completed result, hostTrap := none }

/-- Raising a fault, the block's whole trap entry: the response carries the cause, nothing is saved and nothing else of
the block changes (R305); the host answers with the trap its fault map gives (R306). -/
def State.raise (s : State) (c : FaultCause) : State :=
  { s with resp := Response.faulted c, hostTrap := some (s.faultMap.trapFor c) }

/-- The unrecognized path: no state of the block changes, and the harness logs the report (46_dump_unknown.md R262). -/
def State.reportUnrecognized (s : State) : State :=
  { s with resp := Response.unknown, hostTrap := none, harnessLog := .unrecognized :: s.harnessLog }

/-- The harness emits its counters (46_dump_unknown.md R260). -/
def State.emitCounts (s : State) : State := { s with harnessLog := .counts s.counts :: s.harnessLog }

/-- The command is never answered and gives no response: the block is stuck (R11 (d), R201, R348; log 11). -/
def State.stall (s : State) (w : Waiting) : State :=
  { s with resp := Response.none, hostTrap := none, waiting := some w }

/-! What happens between commands. -/

/-- What the host and the harness still offer after an event is taken (log 1). -/
def State.withInbox (s : State) (es : List HostEvent) : State := { s with inbox := es }

/-- The block accepts a command: its operands are taken, the last response ends (R80), and before the command's own rule
runs the harness counts it (46_dump_unknown.md R261). -/
def State.accept (s : State) (i : Instr) (xs1 xs2 : Word64) : State :=
  { s with
    xs1 := xs1
    xs2 := xs2
    resp := Response.none
    hostTrap := none
    counts := s.counts.set i.displayName.index.val (s.counts[i.displayName.index] + 1) i.displayName.index.isLt }

/-- `rst` is asserted (70_reset_and_hazards.md R340, R341): the command in progress is abandoned and the block's state and
the harness counters take their reset values; `BRIDGE_READY`, the host's other inputs and what stands behind the ports
stay (log 13). -/
def State.applyRst (s : State) : State :=
  { s with
    v := Vector.replicate 32 (Vector.replicate 32 0)
    mask := Vector.replicate 32 0xffffffff#32
    m := Vector.replicate 32 (Vector.replicate 32 0)
    vl := 32
    stride := 1
    resp := Response.none
    waiting := none
    rst := true
    hostTrap := none
    counts := Vector.replicate 16 0 }

/-- `rst` is released: the block accepts commands again (R340). -/
def State.releaseRst (s : State) : State := { s with rst := false }

/-- What stands behind the ports once the command `i` has made at most `n` of its port calls, in their order (20_memory.md
R56, R60; 43_backend_ops.md R201; log 29). -/
def State.outsideAfter (s : State) (i : Instr) (n : Nat) : Outside :=
  match i with
  | .addVV _ _ _ => s.outside
  | .subVV _ _ _ => s.outside
  | .addVS _ _ => s.outside
  | .subVS _ _ => s.outside
  | .mulVS _ _ => s.outside
  | .divVS _ _ => s.outside
  | .shuffle _ _ _ => s.outside
  | .activationRelu _ _ => s.outside
  | .activationIllegalKind _ _ _ => s.outside
  | .minmaxMax _ => s.outside
  | .minmaxMin _ => s.outside
  | .minmaxIllegalMode _ _ => s.outside
  | .dotp rs1 rs2 =>
    if s.bridgeReady = true ∧ 0 < n then s.outside.issue (.dotp (s.maskedBuffer rs1) (s.maskedBuffer rs2)) else s.outside
  | .mvm _ rs1 =>
    if s.bridgeReady = true ∧ 0 < n then s.outside.issue (.mvm s.matrixBuffer (s.maskedBuffer rs1)) else s.outside
  | .configVL => s.outside
  | .configMask _ => s.outside
  | .configMatrix => (s.outside.loadRun s.xs1 s.stride (min n (s.active * s.active)) 0).outside
  | .configIllegalSelector _ => s.outside
  | .load _ => (s.outside.loadRun s.xs1 s.stride (min n s.active) 0).outside
  | .store rs2 => (s.outside.storeRun s.xs1 s.stride ((s.storedLanes rs2).take n) 0).2
  | .dump => s.outside
  | .unrecognizedOp15 => s.outside
  | .unrecognizedOp16to31 _ => s.outside
  | .unrecognizedReserved _ => s.outside

/-- `rst` abandons the command `i` after at most `n` of its port calls: it gives no response, what its calls did outside
the block stays done, and the block takes its reset values (R340; log 29). -/
def State.abandon (s : State) (i : Instr) (n : Nat) : State := (s.withOutside (s.outsideAfter i n)).applyRst

/-- `cmd_ready`: no command is in progress (R80) and `rst` is not asserted (R340). -/
def State.cmdReady (s : State) : Bool := s.waiting.isNone && !s.rst

/-- Inputs that take effect even while the block accepts no command: `rst` (R340) and the direct activation port (R347). -/
def HostEvent.asynchronous (e : HostEvent) : Bool :=
  match e with
  | .command _ _ _ => false
  | .strideWrite _ => false
  | .activation _ _ _ => true
  | .rst _ => true
  | .abandonedCommand _ _ _ _ => false
  | .backendInit => false
  | .hostWrite _ _ => false

/-- The event that takes effect next and what stays offered: the first one, or while a command is in progress or `rst` is
asserted the first asynchronous one (R80, R230, R340, R347; log 11, log 28). -/
def nextEvent (ready : Bool) (es : List HostEvent) : Option (HostEvent × List HostEvent) :=
  match es with
  | [] => none
  | e :: rest =>
    if ready || e.asynchronous then some (e, rest)
    else (nextEvent ready rest).map fun p => (p.1, e :: p.2)

/-- What an event other than a command does; a command goes to `exec` (Machine/Step.lean). -/
def State.serve (s : State) (e : HostEvent) : State :=
  match e with
  | .command _ _ _ => s
  | .strideWrite x => { s with stride := x }
  | .activation kind x shift => { s with actKind := kind, actX := x, actS := shift }
  | .rst true => s.applyRst
  | .rst false => s.releaseRst
  | .abandonedCommand cmd xs1 xs2 n => (s.accept (decode cmd) xs1 xs2).abandon (decode cmd) n
  | .backendInit => { s with bridgeReady := true }
  | .hostWrite a b => { s with outside := { s.outside with mem := s.outside.mem.write a.toNat b } }

end Sys2Proof.Machine
end

