-- ==== Sys2Proof/Machine/BackendCommands.lean ====
section
/-! DEFINITION. The numeric-backend commands DOTP and MVM (43_backend_ops.md). -/

namespace Sys2Proof.Machine

/-- DOTP: the masked active lanes through the backend's dot product, the low 16 bits of the answer sign-extended; a fault
before the call when the bridge is not ready, stuck when the backend never answers (R200 to R203). -/
def execDotp (rs1 rs2 : Reg) (s : State) : Host.Outcome State Fault Refusal :=
  if s.bridgeReady = false then .next (s.raise .backendUnavailable)
  else
    let a := s.maskedBuffer rs1
    let b := s.maskedBuffer rs2
    let called := s.withOutside (s.outside.issue (.dotp a b))
    match s.outside.backend.dotp a b with
    | some acc => .next (called.complete (low64 (s16 acc).toInt))
    | none => .next (called.stall .backend)

/-- MVM: the masked active lanes and the active block of `M` through the backend's matrix-vector product, the first VL
results written back (R200, R201, R205, R206). -/
def execMvm (rd rs1 : Reg) (s : State) : Host.Outcome State Fault Refusal :=
  if s.bridgeReady = false then .next (s.raise .backendUnavailable)
  else
    let x := s.maskedBuffer rs1
    let w := s.matrixBuffer
    let called := s.withOutside (s.outside.issue (.mvm w x))
    match s.outside.backend.mvm w x with
    | some y => .next ((called.writeReg rd fun i => s16 y[i].toInt).complete 0)
    | none => .next (called.stall .backend)

end Sys2Proof.Machine
end

