-- ==== Sys2Proof/Machine/Configuration.lean ====
section
/-! DEFINITION. CONFIG and its selectors (44_config.md). -/

namespace Sys2Proof.Machine

/-- CONFIG selector 0: VL is `xs1` read unsigned, refused outside [1, 32] (R222). -/
def execConfigVL (s : State) : Host.Outcome State Fault Refusal :=
  if 1 ≤ s.xs1.toNat ∧ s.xs1.toNat ≤ 32 then .next ((s.setVL s.xs1.toNat).complete 0)
  else .next (s.raise .illegalConfiguration)

/-- CONFIG selector 1: `MASK[rs2] <- xs1[31:0]` (R224). -/
def execConfigMask (rs2 : Reg) (s : State) : Host.Outcome State Fault Refusal :=
  .next ((s.setMask rs2 (s.xs1.extractLsb' 0 32)).complete 0)

/-- CONFIG selector 2: the `VL x VL` block of `M` is loaded row by row, one element address a cell (R226). A memory fault
leaves the block unspecified (60_exceptions.md R311 (b)); a load that is never answered leaves the command stuck with
the cells read so far (log 12). -/
def execConfigMatrix (s : State) : Host.Outcome State Fault Refusal :=
  let run := s.outside.loadRun s.xs1 s.stride (s.active * s.active) 0
  let loaded := s.withOutside run.outside
  match run.ending with
  | .done => .next ((loaded.fillMatrix run.values).complete 0)
  | .fault => .next (loaded.scrambleMatrix.raise (.memoryFault .load))
  | .never => .next ((loaded.fillMatrix run.values).stall .memory)

/-- CONFIG with a selector in [3, 31] (R228). -/
def execConfigIllegalSelector (_sel : Reg) (s : State) : Host.Outcome State Fault Refusal :=
  .next (s.raise .illegalConfiguration)

end Sys2Proof.Machine
end

