-- ==== Sys2Proof/Machine/Diagnostics.lean ====
section
/-! DEFINITION. DUMP and the unrecognized commands (46_dump_unknown.md). -/

namespace Sys2Proof.Machine

/-- DUMP: no state of the block changes, result 0; the harness emits its counters, which already count this DUMP (R260,
R261). -/
def execDump (s : State) : Host.Outcome State Fault Refusal :=
  .next (s.emitCounts.complete 0)

/-- UNRECOGNIZED (op 15) (R262, R263). -/
def execUnrecognizedOp15 (s : State) : Host.Outcome State Fault Refusal :=
  .next s.reportUnrecognized

/-- UNRECOGNIZED (op 16-31) (R262, R263). -/
def execUnrecognizedOp16to31 (_op : Reg) (s : State) : Host.Outcome State Fault Refusal :=
  .next s.reportUnrecognized

/-- UNRECOGNIZED (reserved bits set) (R262, R263). -/
def execUnrecognizedReserved (_reserved : BitVec 12) (s : State) : Host.Outcome State Fault Refusal :=
  .next s.reportUnrecognized

end Sys2Proof.Machine
end

