-- ==== Sys2Proof/Machine/LaneArith.lean ====
section
/-! DEFINITION. Masked lane arithmetic (41_lane_arith.md): ADD.VV, SUB.VV, ADD.VS, SUB.VS, MUL.VS, DIV.VS. -/

namespace Sys2Proof.Machine

/-- A vector-vector command: an exact integer operation on the masked source lanes, each result reduced by `fit16`
(R140 to R143). -/
def State.vectorVector (s : State) (op : Int → Int → Int) (rd rs1 rs2 : Reg) : State :=
  (s.writeReg rd fun i => fit16 s.overflow (op (s.masked rs1 i).toInt (s.masked rs2 i).toInt)).complete 0

/-- A vector-scalar command: vector operand and mask from `rs2`, the scalar `xs1` read signed; a lane whose mask bit is 0
gives 0 (R144). -/
def State.vectorScalar (s : State) (op : Int → Int → Int) (rd rs2 : Reg) : State :=
  (s.writeReg rd fun i =>
    if s.enabled rs2 i then fit16 s.overflow (op (s.masked rs2 i).toInt s.xs1.toInt) else 0).complete 0

/-- ADD.VV (R142). -/
def execAddVV (rd rs1 rs2 : Reg) (s : State) : Host.Outcome State Fault Refusal :=
  .next (s.vectorVector (fun a b => a + b) rd rs1 rs2)

/-- SUB.VV (R143). -/
def execSubVV (rd rs1 rs2 : Reg) (s : State) : Host.Outcome State Fault Refusal :=
  .next (s.vectorVector (fun a b => a - b) rd rs1 rs2)

/-- ADD.VS (R145). -/
def execAddVS (rd rs2 : Reg) (s : State) : Host.Outcome State Fault Refusal :=
  .next (s.vectorScalar (fun a b => a + b) rd rs2)

/-- SUB.VS, the lane minus the scalar (R146). -/
def execSubVS (rd rs2 : Reg) (s : State) : Host.Outcome State Fault Refusal :=
  .next (s.vectorScalar (fun a b => a - b) rd rs2)

/-- MUL.VS (R147). -/
def execMulVS (rd rs2 : Reg) (s : State) : Host.Outcome State Fault Refusal :=
  .next (s.vectorScalar (fun a b => a * b) rd rs2)

/-- The quotient under the parameter `DIV_FN`: truncated toward zero, or the parameter's own (R7, R148; log 22). -/
def DivFn.quotient (f : DivFn) (a b : Int) : Int :=
  match f with
  | .truncating => Int.tdiv a b
  | .external => Config.divFn a b

/-- DIV.VS; a zero divisor faults before any lane is computed, whatever `DIV_FN` is (R148, R303). -/
def execDivVS (rd rs2 : Reg) (s : State) : Host.Outcome State Fault Refusal :=
  if s.xs1 = 0 then .next (s.raise .arithmeticUndefined) else .next (s.vectorScalar s.divFn.quotient rd rs2)

end Sys2Proof.Machine
end

