-- ==== Sys2Proof/Machine/LoadStore.lean ====
section
/-! DEFINITION. The vector memory commands LOAD and STORE (45_load_store.md). -/

namespace Sys2Proof.Machine

/-- LOAD: VL elements in order, then every active lane written, unmasked (R241). A memory fault leaves all lanes of
`V[rd]` unspecified (60_exceptions.md R311 (a)). -/
def execLoad (rd : Reg) (s : State) : Host.Outcome State Fault Refusal :=
  let run := s.outside.loadRun s.xs1 s.stride s.active 0
  let loaded := s.withOutside run.outside
  match run.ending with
  | .done => .next ((loaded.writeReg rd fun i => run.values.getD i.val 0).complete 0)
  | .fault => .next ((loaded.scrambleReg rd).raise (.memoryFault .load))
  | .never => .next (loaded.stall .memory)

/-- STORE: the active lanes in element order; the elements before a faulting one stay stored (R244, R311 (c)). -/
def execStore (rs2 : Reg) (s : State) : Host.Outcome State Fault Refusal :=
  let run := s.outside.storeRun s.xs1 s.stride (s.storedLanes rs2) 0
  let stored := s.withOutside run.2
  match run.1 with
  | .done => .next (stored.complete 0)
  | .fault => .next (stored.raise (.memoryFault .store))
  | .never => .next (stored.stall .memory)

end Sys2Proof.Machine
end

