-- ==== Sys2Proof/Machine/Activation.lean ====
section
/-! DEFINITION. The activation unit (40_activation_unit.md): the function `act(kind, x, s)` and the direct port through
which SIGMOID and TANH are reached (R100, R102). The unit holds no state; its only data is the table. -/

namespace Sys2Proof.Machine

/-- The three activation kinds (R101). -/
inductive ActKind
  | relu
  | tanh
  | sigmoid
  deriving DecidableEq, Repr

/-- The kind a 2-bit code names; code 3 names none (R101). -/
def actKindOf (code : BitVec 2) : Option ActKind :=
  match code.toNat with
  | 0 => some .relu
  | 1 => some .tanh
  | 2 => some .sigmoid
  | _ => none

/-- RELU: `max(0, x)`, whatever the shift (R103). -/
def actRelu (x : Lane) : Lane := s16 (max 0 x.toInt)

/-- Step 1: `scaledInput`, both products wrapped to signed 32 bits (R108). -/
def scaledInput (x : Lane) (shift : BitVec 5) : Int := s32 (x.toInt * s32 (3 * 2 ^ shift.toNat))

/-- Step 2: `absInput`, unsigned 32-bit (R109). -/
def absInput (scaled : Int) : Nat := if 0 ≤ scaled then scaled.toNat else (-scaled % 2 ^ 32).toNat

/-- Steps 3 to 5: the saturation ceiling from table index 255 on, and below it the exact linear interpolation between
two neighbouring entries (R110, R111). -/
def interpolate (t : SigmoidTable) (shiftAmt : Nat) (ceiling : Int) (a : Nat) : Int :=
  if 255 ≤ a >>> shiftAmt then ceiling
  else lutEntry t (a >>> shiftAmt) * 2 ^ shiftAmt
    + (a % 2 ^ shiftAmt : Nat) * (lutEntry t (a >>> shiftAmt + 1) - lutEntry t (a >>> shiftAmt))

/-- The intermediate value `r` of SIGMOID (R107, R110, R111). -/
def sigmoidInner (t : SigmoidTable) (a : Nat) : Int := interpolate t 9 (0x7fff * 2 ^ 10) a

/-- The intermediate value `r` of TANH (R107, R110, R111). -/
def tanhInner (t : SigmoidTable) (a : Nat) : Int := interpolate t 8 (0xffff * 2 ^ 8) a

/-- Step 6 for SIGMOID, the shifts as floors (R112, R114). -/
def actSigmoid (t : SigmoidTable) (x : Lane) (shift : BitVec 5) : Lane :=
  let scaled := scaledInput x shift
  let r := sigmoidInner t (absInput scaled)
  if 0 ≤ scaled then s16 ((r + 2 ^ 9) / 2 ^ 10) else s16 ((2 ^ 25 - r + 2 ^ 9 - 1) / 2 ^ 10)

/-- Step 6 for TANH, the shifts as floors (R113, R114). -/
def actTanh (t : SigmoidTable) (x : Lane) (shift : BitVec 5) : Lane :=
  let scaled := scaledInput x shift
  let r := tanhInner t (absInput scaled)
  if 0 ≤ scaled then s16 ((r - 2 ^ 23 + 2 ^ 7) / 2 ^ 8) else s16 ((2 ^ 23 - r + 2 ^ 7 - 1) / 2 ^ 8)

/-- `act(kind, x, s)` (R100 to R114). -/
def act (t : SigmoidTable) (kind : ActKind) (x : Lane) (shift : BitVec 5) : Lane :=
  match kind with
  | .relu => actRelu x
  | .tanh => actTanh t x shift
  | .sigmoid => actSigmoid t x shift

/-- The output `act_y` of the direct port; 0 for kind code 3 (R100, R101). -/
def State.actY (s : State) : Lane :=
  match actKindOf s.actKind with
  | some kind => act s.lut kind s.actX s.actS
  | none => 0

/-- The output `act_illegal` of the direct port (R100, R101). -/
def State.actIllegal (s : State) : Bool := (actKindOf s.actKind).isNone

end Sys2Proof.Machine
end

