-- ==== Sys2Proof/Machine/Selectors.lean ====
section
/-! DEFINITION. SHUFFLE, ACTIVATION and MINMAX (42_shuffle_act_minmax.md). -/

namespace Sys2Proof.Machine

/-- Every active index lane of `V[rs2]` lies in [0, 31], read signed (R171). -/
abbrev State.indicesInRange (s : State) (rs2 : Reg) : Prop :=
  ∀ i : Fin 32, i.val < s.vl → 0 ≤ (s.lane rs2 i).toInt ∧ (s.lane rs2 i).toInt ≤ 31

/-- SHUFFLE: an unmasked gather; an index out of range faults before any write (R170, R171). -/
def execShuffle (rd rs1 rs2 : Reg) (s : State) : Host.Outcome State Fault Refusal :=
  if s.indicesInRange rs2 then
    .next ((s.writeReg rd fun i => s.lane rs1 (Fin.ofNat 32 (s.lane rs2 i).toNat)).complete 0)
  else .next (s.raise .illegalOperand)

/-- ACTIVATION with function code `kind`: RELU of the unmasked source lanes for code 0, a fault for every other
(R102, R176). -/
def State.activation (s : State) (rd rs1 kind : Reg) : State :=
  if kind = 0 then (s.writeReg rd fun i => act s.lut .relu (s.lane rs1 i) 0).complete 0
  else s.raise .illegalOperationMode

/-- ACTIVATION (RELU) (R176). -/
def execActivationRelu (rd rs1 : Reg) (s : State) : Host.Outcome State Fault Refusal :=
  .next (s.activation rd rs1 0)

/-- ACTIVATION (illegal kind) (R176). -/
def execActivationIllegalKind (rd rs1 kind : Reg) (s : State) : Host.Outcome State Fault Refusal :=
  .next (s.activation rd rs1 kind)

/-- The reduction of MINMAX: from lane 0 unmasked, over the masked active lanes 0, 1, ... (R182). -/
def State.reduce (s : State) (op : Int → Int → Int) (rs1 : Reg) : Int :=
  (List.finRange 32).foldl (fun acc i => if i.val < s.vl then op acc (s.masked rs1 i).toInt else acc)
    (s.lane rs1 0).toInt

/-- MINMAX with a mode: 0 is max, 1 is min, every other faults (R182, R183). -/
def State.minmax (s : State) (rs1 mode : Reg) : State :=
  if mode = 0 then s.complete (low64 (s.reduce max rs1))
  else if mode = 1 then s.complete (low64 (s.reduce min rs1))
  else s.raise .illegalOperationMode

/-- MINMAX (max) (R182). -/
def execMinmaxMax (rs1 : Reg) (s : State) : Host.Outcome State Fault Refusal :=
  .next (s.minmax rs1 0)

/-- MINMAX (min) (R182). -/
def execMinmaxMin (rs1 : Reg) (s : State) : Host.Outcome State Fault Refusal :=
  .next (s.minmax rs1 1)

/-- MINMAX (illegal mode) (R182). -/
def execMinmaxIllegalMode (rs1 mode : Reg) (s : State) : Host.Outcome State Fault Refusal :=
  .next (s.minmax rs1 mode)

end Sys2Proof.Machine
end

