-- ==== Sys2Proof/Machine/Dispatch.lean ====
section
/-! DEFINITION. The dispatch of a decoded command to its meaning, one arm per constructor. -/

namespace Sys2Proof.Machine

def exec (i : Instr) (s : State) : Host.Outcome State Fault Refusal :=
  match i with
  | .addVV rd rs1 rs2 => Sys2Proof.Machine.execAddVV rd rs1 rs2 s
  | .subVV rd rs1 rs2 => Sys2Proof.Machine.execSubVV rd rs1 rs2 s
  | .addVS rd rs2 => Sys2Proof.Machine.execAddVS rd rs2 s
  | .subVS rd rs2 => Sys2Proof.Machine.execSubVS rd rs2 s
  | .mulVS rd rs2 => Sys2Proof.Machine.execMulVS rd rs2 s
  | .divVS rd rs2 => Sys2Proof.Machine.execDivVS rd rs2 s
  | .shuffle rd rs1 rs2 => Sys2Proof.Machine.execShuffle rd rs1 rs2 s
  | .activationRelu rd rs1 => Sys2Proof.Machine.execActivationRelu rd rs1 s
  | .activationIllegalKind rd rs1 kind => Sys2Proof.Machine.execActivationIllegalKind rd rs1 kind s
  | .minmaxMax rs1 => Sys2Proof.Machine.execMinmaxMax rs1 s
  | .minmaxMin rs1 => Sys2Proof.Machine.execMinmaxMin rs1 s
  | .minmaxIllegalMode rs1 mode => Sys2Proof.Machine.execMinmaxIllegalMode rs1 mode s
  | .dotp rs1 rs2 => Sys2Proof.Machine.execDotp rs1 rs2 s
  | .mvm rd rs1 => Sys2Proof.Machine.execMvm rd rs1 s
  | .configVL => Sys2Proof.Machine.execConfigVL s
  | .configMask rs2 => Sys2Proof.Machine.execConfigMask rs2 s
  | .configMatrix => Sys2Proof.Machine.execConfigMatrix s
  | .configIllegalSelector sel => Sys2Proof.Machine.execConfigIllegalSelector sel s
  | .load rd => Sys2Proof.Machine.execLoad rd s
  | .store rs2 => Sys2Proof.Machine.execStore rs2 s
  | .dump => Sys2Proof.Machine.execDump s
  | .unrecognizedOp15 => Sys2Proof.Machine.execUnrecognizedOp15 s
  | .unrecognizedOp16to31 op => Sys2Proof.Machine.execUnrecognizedOp16to31 op s
  | .unrecognizedReserved reserved => Sys2Proof.Machine.execUnrecognizedReserved reserved s

end Sys2Proof.Machine
end

