-- ==== Sys2Proof/Machine/Step.lean ====
section
/-! DEFINITION. One step of the machine: the next offered event takes effect (30_encoding.md R80, log 1). The block
fetches nothing and has no program counter (10_state.md R32): a program is the sequence of commands the host offers. -/

namespace Sys2Proof.Machine

/-- One step. With nothing to serve the block waits (70_reset_and_hazards.md R342). A command is decoded, accepted and
counted, and then run (R261); any other event takes effect at once. -/
def step (s : State) : Host.Outcome State Fault Refusal :=
  match nextEvent s.cmdReady s.inbox with
  | none => .next s
  | some (.command cmd xs1 xs2, rest) => exec (decode cmd) ((s.withInbox rest).accept (decode cmd) xs1 xs2)
  | some (e, rest) => .next ((s.withInbox rest).serve e)

/-- The state in which the very next step runs the command word `w` with the operands the inputs hold: the word is offered
first, no command is in progress and `rst` is released (log 1). -/
def State.withFetchWord (s : State) (nbits w : Nat) : State :=
  { s with
    waiting := none
    rst := false
    inbox := .command (BitVec.ofNat 32 (w % 2 ^ nbits)) s.xs1 s.xs2 :: s.inbox }

end Sys2Proof.Machine
end

