-- ==== Sys2Proof/Safety.lean ====
section
/-! DEFINITION. What counts as a legal state, and the words the statements use: how a command ended, what it leaves
unchanged, and the readings of the rules that the statements hold the meanings against. -/

namespace Sys2Proof.Machine

/-! Legal states. -/

/-- A response the block can give: a fault carries a cause in [1, 6] and no result, everything else carries cause 0, an
unrecognized command has no result, and with no response every output is 0 (60_exceptions.md R300, R305, R262, R341). -/
abbrev Response.legal (r : Response) : Prop :=
  (r.fault = true → r.valid = true ∧ r.result = 0 ∧ r.unrecognized = false ∧ 1 ≤ r.cause.toNat ∧ r.cause.toNat ≤ 6) ∧
  (r.fault = false → r.cause = 0) ∧
  (r.unrecognized = true → r.valid = true ∧ r.result = 0 ∧ r.fault = false) ∧
  (r.valid = false → r = Response.none)

/-- The values of R341: every lane and cell 0, every mask all ones, VL 32, STRIDE 1, no response, no command in progress
(70_reset_and_hazards.md R340), the counters 0. -/
abbrev State.hasResetValues (s : State) : Prop :=
  (∀ r i, s.lane r i = 0) ∧ (∀ r, s.maskOf r = 0xffffffff#32) ∧ (∀ row col, s.cell row col = 0) ∧ s.vl = 32 ∧
  s.stride = 1 ∧ s.resp = ⟨false, 0, false, 0, false⟩ ∧ s.waiting = none ∧ ∀ n : Fin 16, s.counts[n] = 0

/-- A legal state: VL in [1, 32] (R30), a sigmoid table that R104 allows, a host memory in canonical form, a response the
block can give, no response while a command is in progress (R80), a host trap exactly for a fault (R306), and the values
of R341 while `rst` is asserted (R340). -/
abbrev State.legal (s : State) : Prop :=
  1 ≤ s.vl ∧ s.vl ≤ 32 ∧ lutLegal s.lut ∧ s.outside.mem.wf = true ∧ s.resp.legal ∧
  (s.waiting.isSome = true → s.resp.valid = false) ∧ s.hostTrap.isSome = s.resp.fault ∧
  (s.rst = true → s.hasResetValues)

/-! How a command ended (30_encoding.md R79). -/

/-- The command completed with this scalar result: no fault, recognized, no host trap. -/
abbrev State.completedWith (t : State) (result : Word64) : Prop :=
  t.resp.valid = true ∧ t.resp.result = result ∧ t.resp.fault = false ∧ t.resp.cause = 0 ∧
  t.resp.unrecognized = false ∧ t.hostTrap = none

/-- The command faulted with this cause code (R305), and the host answers with this trap (R306). -/
abbrev State.faultedWith (t : State) (cause : BitVec 3) (trap : HostTrap) : Prop :=
  t.resp.valid = true ∧ t.resp.result = 0 ∧ t.resp.fault = true ∧ t.resp.cause = cause ∧
  t.resp.unrecognized = false ∧ t.hostTrap = some trap

/-- The command took the unrecognized path (46_dump_unknown.md R262). -/
abbrev State.unrecognizedReported (t : State) : Prop :=
  t.resp.valid = true ∧ t.resp.result = 0 ∧ t.resp.fault = false ∧ t.resp.cause = 0 ∧
  t.resp.unrecognized = true ∧ t.hostTrap = none

/-- The command is stuck on a call that is never answered and gives no response (00_scope.md R11 (d)). -/
abbrev State.stuckOn (t : State) (w : Waiting) : Prop :=
  t.waiting = some w ∧ t.resp.valid = false ∧ t.resp.fault = false ∧ t.resp.unrecognized = false ∧ t.hostTrap = none

/-! What is left unchanged. -/

/-- `t` has the block registers `V`, `MASK`, `M`, `VL` and `STRIDE` of `s`. -/
abbrev State.sameBlock (s t : State) : Prop :=
  (∀ r, t.reg r = s.reg r) ∧ (∀ r, t.maskOf r = s.maskOf r) ∧ (∀ row col, t.cell row col = s.cell row col) ∧
  t.vl = s.vl ∧ t.stride = s.stride

/-- `t` has the block registers of `s` but perhaps `V[rd]`. -/
abbrev State.sameBlockButReg (s t : State) (rd : Reg) : Prop :=
  (∀ r, r ≠ rd → t.reg r = s.reg r) ∧ (∀ r, t.maskOf r = s.maskOf r) ∧
  (∀ row col, t.cell row col = s.cell row col) ∧ t.vl = s.vl ∧ t.stride = s.stride

/-- `t` has the inputs of `s`: `rst`, the operands, the activation request and what is offered next. -/
abbrev State.sameInputs (s t : State) : Prop :=
  t.rst = s.rst ∧ t.xs1 = s.xs1 ∧ t.xs2 = s.xs2 ∧ t.actKind = s.actKind ∧ t.actX = s.actX ∧ t.actS = s.actS ∧ t.inbox = s.inbox

/-- `t` has the parameters of `s` (00_scope.md R7). -/
abbrev State.sameParameters (s t : State) : Prop :=
  t.lut = s.lut ∧ t.overflow = s.overflow ∧ t.divFn = s.divFn ∧ t.faultMap = s.faultMap ∧ t.outside.order = s.outside.order ∧
  t.outside.regions = s.outside.regions ∧ t.outside.backend = s.outside.backend

/-- `t` has the harness state of `s`: `BRIDGE_READY`, the counters and the log. -/
abbrev State.sameHarness (s t : State) : Prop :=
  t.bridgeReady = s.bridgeReady ∧ t.counts = s.counts ∧ t.harnessLog = s.harnessLog

/-- Every byte of the host memory reads in `t` as it reads in `s`. -/
abbrev State.sameMemory (s t : State) : Prop := ∀ a : Word64, t.outside.byteAt a = s.outside.byteAt a

/-- The port calls made from `s` to `t`, in the order they were made. -/
abbrev State.callsMade (s t : State) (cs : List PortCall) : Prop := t.outside.calls = cs.reverse ++ s.outside.calls

/-- What a command leaves unchanged that works on the block's registers alone: the inputs, the harness, the parameters,
the host memory, whether a command is stuck; and no port call is made. -/
abbrev State.sameSurroundings (s t : State) : Prop :=
  s.sameInputs t ∧ s.sameHarness t ∧ s.sameParameters t ∧ s.sameMemory t ∧ s.callsMade t [] ∧ t.waiting = s.waiting

/-! What the host and the harness offer. -/

/-- The event stays offered while a command is stuck or `rst` is asserted: it is neither a drive of `rst` nor a request on
the direct activation port (R80, R230, R340, R347; log 11, log 28). -/
abbrev HostEvent.held (e : HostEvent) : Prop :=
  (∀ asserted, e ≠ .rst asserted) ∧ ∀ kind x shift, e ≠ .activation kind x shift

/-- The event asserts `rst`, between commands or during one (R340; log 29). -/
abbrev HostEvent.assertsRst (e : HostEvent) : Prop :=
  e = .rst true ∨ ∃ w x1 x2 n, e = .abandonedCommand w x1 x2 n

/-! Readings of the rules. -/

/-- `fit16` as a function on integers (41_lane_arith.md R141): the integer a reduced lane result is read as. -/
def LaneOverflow.reduced (o : LaneOverflow) (v : Int) : Int :=
  match o with
  | .wrap => (v + 32768) % 65536 - 32768
  | .saturate => if v < -32768 then -32768 else if 32767 < v then 32767 else v

/-- The value a masked source lane is read as (41_lane_arith.md R140). -/
def State.maskedValue (s : State) (r : Reg) (i : Fin 32) : Int :=
  if (s.maskOf r).getLsbD i.val = true then (s.lane r i).toInt else 0

/-- The 5-bit field of a command word whose lowest bit is bit `lo`, read unsigned (30_encoding.md R71). -/
abbrev fieldAt (w : CmdWord) (lo : Nat) : Nat := w.toNat / 2 ^ lo % 32

/-- Every operand of the command is the field of the word that R71 and R74 give it: `rd` at bit 5, `rs1` at bit 10, `rs2` at bit
15, the CONFIG selector in `rd`, the MINMAX mode and the ACTIVATION kind in `rs2` (R73), the number of an unrecognized row in
`op`, and the reserved bits from bit 20 on. -/
def operandsAreFieldsOf (i : Instr) (w : CmdWord) : Prop :=
  match i with
  | .addVV rd rs1 rs2 => rd.toNat = fieldAt w 5 ∧ rs1.toNat = fieldAt w 10 ∧ rs2.toNat = fieldAt w 15
  | .subVV rd rs1 rs2 => rd.toNat = fieldAt w 5 ∧ rs1.toNat = fieldAt w 10 ∧ rs2.toNat = fieldAt w 15
  | .addVS rd rs2 => rd.toNat = fieldAt w 5 ∧ rs2.toNat = fieldAt w 15
  | .subVS rd rs2 => rd.toNat = fieldAt w 5 ∧ rs2.toNat = fieldAt w 15
  | .mulVS rd rs2 => rd.toNat = fieldAt w 5 ∧ rs2.toNat = fieldAt w 15
  | .divVS rd rs2 => rd.toNat = fieldAt w 5 ∧ rs2.toNat = fieldAt w 15
  | .shuffle rd rs1 rs2 => rd.toNat = fieldAt w 5 ∧ rs1.toNat = fieldAt w 10 ∧ rs2.toNat = fieldAt w 15
  | .activationRelu rd rs1 => rd.toNat = fieldAt w 5 ∧ rs1.toNat = fieldAt w 10
  | .activationIllegalKind rd rs1 kind =>
    rd.toNat = fieldAt w 5 ∧ rs1.toNat = fieldAt w 10 ∧ kind.toNat = fieldAt w 15
  | .minmaxMax rs1 => rs1.toNat = fieldAt w 10
  | .minmaxMin rs1 => rs1.toNat = fieldAt w 10
  | .minmaxIllegalMode rs1 mode => rs1.toNat = fieldAt w 10 ∧ mode.toNat = fieldAt w 15
  | .dotp rs1 rs2 => rs1.toNat = fieldAt w 10 ∧ rs2.toNat = fieldAt w 15
  | .mvm rd rs1 => rd.toNat = fieldAt w 5 ∧ rs1.toNat = fieldAt w 10
  | .configVL => True
  | .configMask rs2 => rs2.toNat = fieldAt w 15
  | .configMatrix => True
  | .configIllegalSelector sel => sel.toNat = fieldAt w 5
  | .load rd => rd.toNat = fieldAt w 5
  | .store rs2 => rs2.toNat = fieldAt w 15
  | .dump => True
  | .unrecognizedOp15 => True
  | .unrecognizedOp16to31 op => op.toNat = fieldAt w 0
  | .unrecognizedReserved reserved => reserved.toNat = w.toNat / 2 ^ 20

/-- The destination vector register of the ten commands that write one (10_state.md R22). -/
def destinationOf (i : Instr) : Option Reg :=
  match i with
  | .addVV rd _ _ => some rd
  | .subVV rd _ _ => some rd
  | .addVS rd _ => some rd
  | .subVS rd _ => some rd
  | .mulVS rd _ => some rd
  | .divVS rd _ => some rd
  | .shuffle rd _ _ => some rd
  | .activationRelu rd _ => some rd
  | .activationIllegalKind _ _ _ => none
  | .minmaxMax _ => none
  | .minmaxMin _ => none
  | .minmaxIllegalMode _ _ => none
  | .dotp _ _ => none
  | .mvm rd _ => some rd
  | .configVL => none
  | .configMask _ => none
  | .configMatrix => none
  | .configIllegalSelector _ => none
  | .load rd => some rd
  | .store _ => none
  | .dump => none
  | .unrecognizedOp15 => none
  | .unrecognizedOp16to31 _ => none
  | .unrecognizedReserved _ => none

/-- The address `a` is one of the two bytes of element `k` of a command with base `xs1` (20_memory.md R52, R53). -/
abbrev State.byteOfElement (s : State) (k : Nat) (a : Word64) : Prop :=
  a = elementAddress s.xs1 s.stride k ∨ a = elementAddress s.xs1 s.stride k + 1

/-- The host memory answers the accesses of elements `0` to `n - 1` as plain memory. -/
abbrev State.plainElements (s : State) (kind : AccessKind) (n : Nat) : Prop :=
  ∀ k, k < n → s.outside.answer kind (elementAddress s.xs1 s.stride k) = .plain

/-- The host memory answers the accesses of elements `0` to `n - 1`, each as plain memory or as a device (R57; log 5). -/
abbrev State.answeredElements (s : State) (kind : AccessKind) (n : Nat) : Prop :=
  ∀ k, k < n → s.outside.answer kind (elementAddress s.xs1 s.stride k) = .plain ∨
    s.outside.answer kind (elementAddress s.xs1 s.stride k) = .device

/-- From `s` to `t`, of the stores of lanes `0` to `n - 1` of `V[rs2]` those that plain memory answers are in memory, unless a
later one has the same address (then the later one's value stands), and every byte outside those elements reads as before
(45_load_store.md R244; for the others: log 5). -/
abbrev State.storesElements (s t : State) (rs2 : Reg) (n : Nat) : Prop :=
  (∀ k : Fin 32, k.val < n → s.outside.answer .store (elementAddress s.xs1 s.stride k.val) = .plain →
    (∀ j, k.val < j → j < n → elementAddress s.xs1 s.stride j ≠ elementAddress s.xs1 s.stride k.val) →
    t.outside.valueAt (elementAddress s.xs1 s.stride k.val) = s.lane rs2 k) ∧
  ∀ a, (∀ k, k < n → s.outside.answer .store (elementAddress s.xs1 s.stride k) = .plain → ¬s.byteOfElement k a) →
    t.outside.byteAt a = s.outside.byteAt a

/-- One of the accesses of elements `0` to `n - 1` faults, with every access before it answered (R56, R312). -/
abbrev State.faultsWithin (s : State) (kind : AccessKind) (n : Nat) : Prop :=
  ∃ k, k < n ∧ s.answeredElements kind k ∧ s.outside.answer kind (elementAddress s.xs1 s.stride k) = .fault

/-- The loads of elements `0` to `n - 1`, in order. -/
def State.loadCalls (s : State) (n : Nat) : List PortCall :=
  (List.range n).map fun k => .load (elementAddress s.xs1 s.stride k)

/-- The stores of lanes `0` to `n - 1` of `V[rs2]`, in order. -/
def State.storeCalls (s : State) (rs2 : Reg) (n : Nat) : List PortCall :=
  (List.range n).map fun k => .store (elementAddress s.xs1 s.stride k) (s.lane rs2 (Fin.ofNat 32 k))

end Sys2Proof.Machine
end

