-- ==== Sys2Proof/Certificates/Slice0/Obligations.lean ====
section
/-! DEFINITION. The statements for the provers. Each says which rules of spec/ it formalises; a clause that rests on a choice
of the model names its log entry. -/

open Sys2Proof Sys2Proof.Machine

/-! Encoding (30_encoding.md). -/

/-- Decoding the encoded word of any well-formed command gives the command back, every operand at every value. -/
def Obligations.DecodeInvertsEncode : Prop :=
  ∀ i : Instr, i.wf = true → decode (encode i) = i

/-- Every command word decodes to a well-formed command and carries the fixed bits of that command's row in
spec/opcode_table.json (R74, R76, R77), and every operand of the command, in every row, is the word's own field at the place R71
gives it (R73). Only a word with `op` up to 14 is named by its reserved bits (of the two rows a word with a greater `op` can fit,
log 21). -/
def Obligations.DecodedWordFitsItsTableRow : Prop :=
  ∀ w : CmdWord, (decode w).wf = true ∧ w &&& (decode w).tableMask = (decode w).tableMatch ∧
    operandsAreFieldsOf (decode w) w ∧ ∀ reserved, decode w = .unrecognizedReserved reserved → fieldAt w 0 ≤ 14

/-- A field that the row does not list is ignored: in every row of R74, the unrecognized ones from 15 to 31 included, words
that agree on the bits the row reads decode alike, and the encoder writes 0 in the others (R75). That an unrecognized row from 15
to 31 does not read the reserved bits either is the model's choice of a row's name (log 21). -/
def Obligations.IgnoredFieldsHaveNoEffect : Prop :=
  ∀ w w' : CmdWord, (∀ reserved, decode w ≠ .unrecognizedReserved reserved) →
    (w &&& (decode w).usedBits = w' &&& (decode w).usedBits → decode w' = decode w) ∧
    encode (decode w) = w &&& (decode w).usedBits

/-- Words of 95_test_vectors.md section 8 and 11, written out from R71 and R74, decode to the commands they stand for. -/
def Obligations.WrittenOutWordsDecode : Prop :=
  decode 0x00010460#32 = .addVV 3 1 2 ∧ decode 0x000efbe1#32 = .subVV 31 30 29 ∧
  decode 0x000100a5#32 = .divVS 5 2 ∧ decode 0x00010486#32 = .shuffle 4 1 2 ∧
  decode 0x00000447#32 = .activationRelu 2 1 ∧ decode 0x00008408#32 = .minmaxMin 1 ∧
  decode 0x00010409#32 = .dotp 1 2 ∧ decode 0x0000802b#32 = .configMask 1 ∧
  decode 0x000000cc#32 = .load 6 ∧ decode 0x0001800d#32 = .store 3 ∧ decode 0x0000000e#32 = .dump ∧
  decode 0x8000000e#32 = .unrecognizedReserved 0x800

/-- A word with `op` in [15, 31] or a reserved bit set, and no other, is an unrecognized command: it changes no state of
the block, does not fault, and is reported (R76, R262). The counter and the log are harness state (R261, log 16). -/
def Obligations.UnrecognizedWordsTakeThePermissivePath : Prop :=
  ∀ (s : State) (w : CmdWord) (x1 x2 : Word64) (rest : List HostEvent),
    s.cmdReady = true → s.inbox = .command w x1 x2 :: rest →
    ((decode w).isUnrecognized = true ↔ 15 ≤ w.toNat % 32 ∨ 2 ^ 20 ≤ w.toNat) ∧
    (15 ≤ w.toNat % 32 ∨ 2 ^ 20 ≤ w.toNat →
      ∃ t, step s = .next t ∧ t.unrecognizedReported ∧ s.sameBlock t ∧ s.sameParameters t ∧ s.sameMemory t ∧
        s.callsMade t [] ∧ t.bridgeReady = s.bridgeReady ∧ t.cmdReady = true ∧ t.inbox = rest ∧
        t.harnessLog = .unrecognized :: s.harnessLog)

/-! The step. -/

/-- When a command is offered and the block accepts commands, the step is `exec` of the decoded command on the state that has
taken its operands, ended the last response and counted it, and differs in nothing else (R80, R261). -/
def Obligations.StepRunsTheOfferedCommand : Prop :=
  ∀ (s : State) (w : CmdWord) (x1 x2 : Word64) (rest : List HostEvent),
    s.cmdReady = true → s.inbox = .command w x1 x2 :: rest →
    ∃ t, step s = exec (decode w) t ∧ t.xs1 = x1 ∧ t.xs2 = x2 ∧ t.inbox = rest ∧ t.resp = Response.none ∧
      t.hostTrap = none ∧ t.waiting = none ∧ t.rst = false ∧ s.sameBlock t ∧ s.sameParameters t ∧ t.outside = s.outside ∧
      t.actKind = s.actKind ∧ t.actX = s.actX ∧ t.actS = s.actS ∧ t.bridgeReady = s.bridgeReady ∧
      t.harnessLog = s.harnessLog ∧
      ∀ n : Fin 16, t.counts[n] = s.counts[n] + (if n = (decode w).displayName.index then 1 else 0)

/-- Every accepted command, a faulting, stuck or unrecognized one included, answers a next state in which exactly its own
counter is one higher: the counter of its opcode number, or UNKNOWN's (R74, R261). That a command whose step never ends in the
spec (R11 (d), R348) answers a next state too, the stuck one, is the model's choice (log 11). -/
def Obligations.EveryCommandIsCountedOnce : Prop :=
  ∀ (s : State) (w : CmdWord) (x1 x2 : Word64) (rest : List HostEvent),
    s.cmdReady = true → s.inbox = .command w x1 x2 :: rest →
    ∃ t, step s = .next t ∧ ∀ n : Fin 16, t.counts[n] = s.counts[n] +
      (if n.val = (if 15 ≤ w.toNat % 32 ∨ 2 ^ 20 ≤ w.toNat then 15 else w.toNat % 32) then 1 else 0)

/-- While nothing offered asserts `rst`, no step lowers a counter (R35, R261; that `rst` clears them is R341, log 13). -/
def Obligations.CountersFallOnlyByReset : Prop :=
  ∀ s t : State, (∀ e ∈ s.inbox, ¬e.assertsRst) → step s = .next t → ∀ n : Fin 16, s.counts[n] ≤ t.counts[n]

/-- A block that is offered nothing waits: the step changes nothing (R342). While a command is stuck or `rst` is asserted,
`cmd_ready` is 0 and the block accepts nothing: with no drive of `rst` and no activation request offered, the step changes
nothing, so commands and stride writes stay offered (R80, R230, R340, R348; log 11, log 28). -/
def Obligations.StuckCommandHoldsTheBlock : Prop :=
  (∀ s : State, s.cmdReady = true → s.inbox = [] → step s = .next s) ∧
  ∀ s : State, s.waiting ≠ none ∨ s.rst = true →
    s.cmdReady = false ∧ ((∀ e ∈ s.inbox, e.held) → step s = .next s)

/-- `rst` asserted, as the next event or behind what a block that accepts no command holds up, abandons the command and sets the
reset values; `BRIDGE_READY`, the parameters and the host memory stay, and `cmd_ready` is 0 until `rst` is released, which
changes nothing else (R340, R341; counters: log 13, held events: log 11, log 28). Asserted during a command it does the same, and
of the command only the elements that a STORE had stored remain, those before an access that faulted or is never answered among
them (log 29; what a device does with a store: log 5). -/
def Obligations.ResetEventSetsTheResetValues : Prop :=
  (∀ (s : State) (held rest : List HostEvent), s.inbox = held ++ .rst true :: rest →
    (held = [] ∨ s.cmdReady = false ∧ ∀ e ∈ held, e.held) →
    ∃ t, step s = .next t ∧ t.hasResetValues ∧ t.rst = true ∧ t.cmdReady = false ∧ t.bridgeReady = s.bridgeReady ∧
      s.sameParameters t ∧ s.sameMemory t ∧ s.callsMade t [] ∧ t.inbox = held ++ rest) ∧
  (∀ (s : State) (held rest : List HostEvent), s.inbox = held ++ .rst false :: rest →
    (held = [] ∨ s.cmdReady = false ∧ ∀ e ∈ held, e.held) →
    step s = .next { s with rst := false, inbox := held ++ rest }) ∧
  (∀ (s : State) (w : CmdWord) (x1 x2 : Word64) (n : Nat) (rest : List HostEvent),
    s.cmdReady = true → s.inbox = .abandonedCommand w x1 x2 n :: rest →
    ∃ t, step s = .next t ∧ t.hasResetValues ∧ t.rst = true ∧ t.cmdReady = false ∧ t.bridgeReady = s.bridgeReady ∧
      s.sameParameters t ∧ t.inbox = rest ∧
      ((∀ rs2, decode w ≠ .store rs2) → s.sameMemory t) ∧
      ∀ rs2 m, decode w = .store rs2 → s.outside.mem.wf = true → s.vl ≤ 32 → m ≤ min n s.vl →
        ({ s with xs1 := x1 } : State).answeredElements .store m →
        (m = min n s.vl ∨ s.outside.answer .store (elementAddress x1 s.stride m) = .fault ∨
          s.outside.answer .store (elementAddress x1 s.stride m) = .never) →
        ({ s with xs1 := x1 } : State).storesElements t rs2 m)

/-- The state after process start holds the values R341 gives, and the block accepts commands (R340, R342). -/
def Obligations.ResetStateHoldsTheStatedValues : Prop :=
  (∀ r i, State.reset.lane r i = 0) ∧ (∀ r, State.reset.maskOf r = 0xffffffff#32) ∧
  (∀ row col, State.reset.cell row col = 0) ∧ State.reset.vl = 32 ∧ State.reset.stride = 1 ∧
  State.reset.resp = ⟨false, 0, false, 0, false⟩ ∧ (∀ n : Fin 16, State.reset.counts[n] = 0) ∧
  State.reset.bridgeReady = false ∧ State.reset.cmdReady = true

/-- The state after process start is legal (its table is R105's, log 8). -/
def Obligations.ResetStateIsLegal : Prop := State.reset.legal

/-- Every step from a legal state answers a legal state: VL stays in [1, 32], the host memory canonical, the table one that
R104 allows, and the response one the block can give, with cause 7 never produced (R30, R300, R305); and while `rst` is asserted
the block holds the values of R341 (R340; what an asserted `rst` holds up: log 28). -/
def Obligations.EveryStepKeepsTheStateLegal : Prop :=
  ∀ s t : State, s.legal → step s = .next t → t.legal

/-- No step changes a parameter of R7: table, overflow rule, division, fault map, byte order, host regions, backend. -/
def Obligations.EveryStepKeepsTheParameters : Prop :=
  ∀ s t : State, step s = .next t → s.sameParameters t

/-- The stride side-band: between commands the write takes effect at once and changes nothing else; while a command is in
progress it stays offered (R230, R346; log 11), and so while `rst` is asserted (log 28). -/
def Obligations.StrideSideBandActsBetweenCommands : Prop :=
  ∀ (s : State) (x : Word64) (rest : List HostEvent),
    (s.cmdReady = true → s.inbox = .strideWrite x :: rest → step s = .next { s with stride := x, inbox := rest }) ∧
    (s.cmdReady = false → s.inbox = [.strideWrite x] → step s = .next s)

/-- `BRIDGE_READY` is set by the initialization, no step clears it, and no command writes it (R36). -/
def Obligations.BridgeReadyIsSetOnceAndKept : Prop :=
  (∀ (s : State) (rest : List HostEvent), s.cmdReady = true → s.inbox = .backendInit :: rest →
    ∃ t, step s = .next t ∧ t.bridgeReady = true ∧ s.sameBlock t ∧ s.sameMemory t ∧ t.resp = s.resp) ∧
  (∀ s t : State, step s = .next t → s.bridgeReady = true → t.bridgeReady = true) ∧
  (∀ (i : Instr) (s t : State), exec i s = .next t → t.bridgeReady = s.bridgeReady)

/-! What any command can change. -/

/-- Of all commands only the ten of R22 change a vector register, and each only its destination. -/
def Obligations.OnlyTheTenWritingCommandsChangeRegisters : Prop :=
  ∀ (i : Instr) (s t : State) (r : Reg), i.wf = true → exec i s = .next t → destinationOf i ≠ some r →
    t.reg r = s.reg r

/-- A command that writes a vector register and completes leaves 0 in every lane from VL on (R23). -/
def Obligations.CompletedWriteZeroesTheTail : Prop :=
  ∀ (i : Instr) (s t : State) (rd : Reg), exec i s = .next t → destinationOf i = some rd →
    t.resp.valid = true → t.resp.fault = false → ∀ j : Fin 32, s.vl ≤ j.val → t.lane rd j = 0

/-- Masks are written only by CONFIG selector 1, `M` only by selector 2, `VL` only by selector 0, and STRIDE by no command
(R27, R29, R30, R31). -/
def Obligations.ConfigurationHasOneWriterEach : Prop :=
  ∀ (i : Instr) (s t : State), exec i s = .next t →
    t.stride = s.stride ∧
    ((∃ r, t.maskOf r ≠ s.maskOf r) → ∃ r, i = .configMask r) ∧
    ((∃ row col, t.cell row col ≠ s.cell row col) → i = .configMatrix) ∧
    (t.vl ≠ s.vl → i = .configVL)

/-- A fault of any cause but 5 leaves the whole block as it was, and no port call is made (R310). -/
def Obligations.FaultsOtherThanMemoryFaultsArePrecise : Prop :=
  ∀ (i : Instr) (s t : State), exec i s = .next t → t.resp.fault = true → t.resp.cause ≠ 5 →
    s.sameBlock t ∧ s.sameMemory t ∧ s.callsMade t []

/-- Which command faults with which cause, and exactly when: the table of R300. Cause 5 is raised exactly when an access of
LOAD, STORE or CONFIG selector 2 is answered with a fault and every access before it is answered (R302, R312). -/
def Obligations.FaultCausesAreThoseOfTheTable : Prop :=
  ∀ (i : Instr) (s t : State), i.wf = true → exec i s = .next t →
    (t.resp.fault = true ∧ t.resp.cause = 1 ↔
      (i = .configVL ∧ ¬(1 ≤ s.xs1.toNat ∧ s.xs1.toNat ≤ 32)) ∨ ∃ sel, i = .configIllegalSelector sel) ∧
    (t.resp.fault = true ∧ t.resp.cause = 2 ↔
      (∃ rs1 mode, i = .minmaxIllegalMode rs1 mode) ∨ ∃ rd rs1 kind, i = .activationIllegalKind rd rs1 kind) ∧
    (t.resp.fault = true ∧ t.resp.cause = 3 ↔ (∃ rd rs2, i = .divVS rd rs2) ∧ s.xs1 = 0) ∧
    (t.resp.fault = true ∧ t.resp.cause = 4 ↔ ∃ rd rs1 rs2, i = .shuffle rd rs1 rs2 ∧
      ∃ j : Fin 32, j.val < s.vl ∧ ((s.lane rs2 j).toInt < 0 ∨ 31 < (s.lane rs2 j).toInt)) ∧
    (t.resp.fault = true ∧ t.resp.cause = 5 ↔
      ((∃ rd, i = .load rd) ∧ s.faultsWithin .load (min s.vl 32)) ∨
      ((∃ rs2, i = .store rs2) ∧ s.faultsWithin .store (min s.vl 32)) ∨
      (i = .configMatrix ∧ s.faultsWithin .load (min s.vl 32 * min s.vl 32))) ∧
    (t.resp.fault = true ∧ t.resp.cause = 6 ↔
      ((∃ rs1 rs2, i = .dotp rs1 rs2) ∨ ∃ rd rs1, i = .mvm rd rs1) ∧ s.bridgeReady = false)

/-- No command reads `xs2` or the direct activation port: with other values there, the same command answers the same state
but for them (R73, R347). -/
def Obligations.CommandsIgnoreXs2AndTheActivationPort : Prop :=
  ∀ (i : Instr) (s t : State) (x2 : Word64) (kind : BitVec 2) (x : Lane) (shift : BitVec 5), exec i s = .next t →
    exec i { s with xs2 := x2, actKind := kind, actX := x, actS := shift } =
      .next { t with xs2 := x2, actKind := kind, actX := x, actS := shift }

/-! Masked lane arithmetic (41_lane_arith.md). -/

/-- ADD.VV and SUB.VV: every active lane is the reduced sum or difference of the masked source lanes as they were before
the command, the tail is 0, the result is 0, and nothing else changes (R140, R142, R143). -/
def Obligations.AddVVAndSubVVWriteReducedLanes : Prop :=
  ∀ (s : State) (rd rs1 rs2 : Reg),
    (∃ t, exec (.addVV rd rs1 rs2) s = .next t ∧
      (∀ i : Fin 32, (t.lane rd i).toInt =
        if i.val < s.vl then s.overflow.reduced (s.maskedValue rs1 i + s.maskedValue rs2 i) else 0) ∧
      s.sameBlockButReg t rd ∧ s.sameSurroundings t ∧ t.completedWith 0) ∧
    (∃ t, exec (.subVV rd rs1 rs2) s = .next t ∧
      (∀ i : Fin 32, (t.lane rd i).toInt =
        if i.val < s.vl then s.overflow.reduced (s.maskedValue rs1 i - s.maskedValue rs2 i) else 0) ∧
      s.sameBlockButReg t rd ∧ s.sameSurroundings t ∧ t.completedWith 0)

/-- ADD.VS, SUB.VS and MUL.VS: every active lane enabled by `MASK[rs2]` is the reduced sum, difference or product of the
lane and `xs1` read signed, every other lane is 0, and nothing else changes (R144 to R147). -/
def Obligations.ScalarCommandsWriteReducedLanes : Prop :=
  ∀ (s : State) (rd rs2 : Reg),
    (∃ t, exec (.addVS rd rs2) s = .next t ∧
      (∀ i : Fin 32, (t.lane rd i).toInt =
        if i.val < s.vl ∧ (s.maskOf rs2).getLsbD i.val = true
        then s.overflow.reduced ((s.lane rs2 i).toInt + s.xs1.toInt) else 0) ∧
      s.sameBlockButReg t rd ∧ s.sameSurroundings t ∧ t.completedWith 0) ∧
    (∃ t, exec (.subVS rd rs2) s = .next t ∧
      (∀ i : Fin 32, (t.lane rd i).toInt =
        if i.val < s.vl ∧ (s.maskOf rs2).getLsbD i.val = true
        then s.overflow.reduced ((s.lane rs2 i).toInt - s.xs1.toInt) else 0) ∧
      s.sameBlockButReg t rd ∧ s.sameSurroundings t ∧ t.completedWith 0) ∧
    (∃ t, exec (.mulVS rd rs2) s = .next t ∧
      (∀ i : Fin 32, (t.lane rd i).toInt =
        if i.val < s.vl ∧ (s.maskOf rs2).getLsbD i.val = true
        then s.overflow.reduced ((s.lane rs2 i).toInt * s.xs1.toInt) else 0) ∧
      s.sameBlockButReg t rd ∧ s.sameSurroundings t ∧ t.completedWith 0)

/-- DIV.VS: with a nonzero divisor every active enabled lane is the reduced quotient `q` of the lane by `xs1`, both signed,
truncated toward zero (`a = q * b + e` with `|e| < |b|` and `e` zero or of the sign of `a`), every other lane 0; with
`xs1 = 0` the command faults with cause 3 whatever VL and the mask, and nothing changes (R148, R303). Under another `DIV_FN`
(R7) the quotient is that parameter's own, and everything else is the same (log 22). -/
def Obligations.DivVSTruncatesOrFaults : Prop :=
  ∀ (s : State) (rd rs2 : Reg),
    (s.xs1 ≠ 0 → ∃ t, exec (.divVS rd rs2) s = .next t ∧
      (∀ i : Fin 32,
        (i.val < s.vl ∧ (s.maskOf rs2).getLsbD i.val = true →
          (s.divFn = .truncating → ∃ q e : Int,
            (s.lane rs2 i).toInt = q * s.xs1.toInt + e ∧ |e| < |s.xs1.toInt| ∧ 0 ≤ e * (s.lane rs2 i).toInt ∧
            (t.lane rd i).toInt = s.overflow.reduced q) ∧
          (s.divFn = .external →
            (t.lane rd i).toInt = s.overflow.reduced (Config.divFn (s.lane rs2 i).toInt s.xs1.toInt))) ∧
        (¬(i.val < s.vl ∧ (s.maskOf rs2).getLsbD i.val = true) → t.lane rd i = 0)) ∧
      s.sameBlockButReg t rd ∧ s.sameSurroundings t ∧ t.completedWith 0) ∧
    (s.xs1 = 0 → ∃ t, exec (.divVS rd rs2) s = .next t ∧ t.faultedWith 3 s.faultMap.arithmeticUndefined ∧
      s.sameBlock t ∧ s.sameSurroundings t)

/-- Under either overflow rule an exact lane result in [-32768, 32767] is kept, so ADD.VV answers the same lanes under both
when every active sum is in range (R141). -/
def Obligations.InRangeSumsDoNotDependOnTheOverflowRule : Prop :=
  ∀ (s t t' : State) (rd rs1 rs2 : Reg),
    (∀ i : Fin 32, i.val < s.vl → -32768 ≤ s.maskedValue rs1 i + s.maskedValue rs2 i ∧
      s.maskedValue rs1 i + s.maskedValue rs2 i ≤ 32767) →
    exec (.addVV rd rs1 rs2) { s with overflow := .wrap } = .next t →
    exec (.addVV rd rs1 rs2) { s with overflow := .saturate } = .next t' →
    ∀ i : Fin 32, t.lane rd i = t'.lane rd i

/-- The laws of R149 under WRAP: ADD.VV is commutative, SUB.VV of a register with itself is 0, MUL.VS by `xs1` and by
`xs1 + 65536` agree. -/
def Obligations.WrappingLaneLaws : Prop :=
  ∀ (s : State) (rd rs1 rs2 : Reg), s.overflow = .wrap →
    exec (.addVV rd rs1 rs2) s = exec (.addVV rd rs2 rs1) s ∧
    (∀ t, exec (.subVV rd rs1 rs1) s = .next t → ∀ i, t.lane rd i = 0) ∧
    (∀ t t', exec (.mulVS rd rs2) s = .next t → exec (.mulVS rd rs2) { s with xs1 := s.xs1 + 65536 } = .next t' →
      ∀ i, t.lane rd i = t'.lane rd i)

/-- Aliasing: in each of the six commands the destination gets the same lanes whichever register it is, a source included
(R25, R150). -/
def Obligations.DestinationMayBeASource : Prop :=
  ∀ (s t t' : State) (rd rd' rs1 rs2 : Reg) (f : Reg → Instr),
    (f = fun r => .addVV r rs1 rs2) ∨ (f = fun r => .subVV r rs1 rs2) ∨ (f = fun r => .addVS r rs2) ∨
      (f = fun r => .subVS r rs2) ∨ (f = fun r => .mulVS r rs2) ∨ ((f = fun r => .divVS r rs2) ∧ s.xs1 ≠ 0) →
    exec (f rd) s = .next t → exec (f rd') s = .next t' → ∀ i, t.lane rd i = t'.lane rd' i

/-! SHUFFLE, ACTIVATION, MINMAX (42_shuffle_act_minmax.md). -/

/-- SHUFFLE: with every active index in [0, 31] the active lanes are gathered, unmasked, from the old `V[rs1]`; with one out
of range the command faults with cause 4 and writes nothing (R170, R171). -/
def Obligations.ShuffleGathersOrFaults : Prop :=
  ∀ (s : State) (rd rs1 rs2 : Reg),
    ((∀ i : Fin 32, i.val < s.vl → 0 ≤ (s.lane rs2 i).toInt ∧ (s.lane rs2 i).toInt ≤ 31) →
      ∃ t, exec (.shuffle rd rs1 rs2) s = .next t ∧
        (∀ i j : Fin 32, i.val < s.vl → (s.lane rs2 i).toInt = j.val → t.lane rd i = s.lane rs1 j) ∧
        (∀ i : Fin 32, s.vl ≤ i.val → t.lane rd i = 0) ∧
        s.sameBlockButReg t rd ∧ s.sameSurroundings t ∧ t.completedWith 0) ∧
    ((∃ i : Fin 32, i.val < s.vl ∧ ((s.lane rs2 i).toInt < 0 ∨ 31 < (s.lane rs2 i).toInt)) →
      ∃ t, exec (.shuffle rd rs1 rs2) s = .next t ∧ t.faultedWith 4 s.faultMap.illegalOperand ∧
        s.sameBlock t ∧ s.sameSurroundings t)

/-- ACTIVATION: kind 0 writes `max(0, x)` of the unmasked active lanes; every kind from 1 on faults with cause 2 and writes
nothing, so the command reaches RELU only (R102, R103, R176). -/
def Obligations.ActivationIsReluOrFaults : Prop :=
  ∀ (s : State) (rd rs1 kind : Reg),
    (∃ t, exec (.activationRelu rd rs1) s = .next t ∧
      (∀ i : Fin 32, (t.lane rd i).toInt = if i.val < s.vl then max 0 (s.lane rs1 i).toInt else 0) ∧
      s.sameBlockButReg t rd ∧ s.sameSurroundings t ∧ t.completedWith 0) ∧
    (1 ≤ kind.toNat → ∃ t, exec (.activationIllegalKind rd rs1 kind) s = .next t ∧
      t.faultedWith 2 s.faultMap.illegalOperationMode ∧ s.sameBlock t ∧ s.sameSurroundings t)

/-- MINMAX: the result is the greatest (mode 0) or least (mode 1) of lane 0 unmasked and the masked active lanes,
sign-extended to 64 bits; modes from 2 on fault with cause 2; no register changes (R182, R183). -/
def Obligations.MinmaxReducesOrFaults : Prop :=
  ∀ (s : State) (rs1 mode : Reg),
    (∃ t m, exec (.minmaxMax rs1) s = .next t ∧ t.completedWith (BitVec.ofInt 64 m) ∧
      (s.lane rs1 0).toInt ≤ m ∧ (∀ i : Fin 32, i.val < s.vl → s.maskedValue rs1 i ≤ m) ∧
      (m = (s.lane rs1 0).toInt ∨ ∃ i : Fin 32, i.val < s.vl ∧ m = s.maskedValue rs1 i) ∧
      s.sameBlock t ∧ s.sameSurroundings t) ∧
    (∃ t m, exec (.minmaxMin rs1) s = .next t ∧ t.completedWith (BitVec.ofInt 64 m) ∧
      m ≤ (s.lane rs1 0).toInt ∧ (∀ i : Fin 32, i.val < s.vl → m ≤ s.maskedValue rs1 i) ∧
      (m = (s.lane rs1 0).toInt ∨ ∃ i : Fin 32, i.val < s.vl ∧ m = s.maskedValue rs1 i) ∧
      s.sameBlock t ∧ s.sameSurroundings t) ∧
    (2 ≤ mode.toNat → ∃ t, exec (.minmaxIllegalMode rs1 mode) s = .next t ∧
      t.faultedWith 2 s.faultMap.illegalOperationMode ∧ s.sameBlock t ∧ s.sameSurroundings t)

/-! The numeric backend (43_backend_ops.md). -/

/-- DOTP and MVM with `BRIDGE_READY = 0` fault with cause 6, write nothing and make no call (R200, R304). -/
def Obligations.BackendCommandsFaultBeforeInitialization : Prop :=
  ∀ (s : State) (rd rs1 rs2 : Reg), s.bridgeReady = false →
    (∃ t, exec (.dotp rs1 rs2) s = .next t ∧ t.faultedWith 6 s.faultMap.backendUnavailable ∧
      s.sameBlock t ∧ s.sameSurroundings t) ∧
    (∃ t, exec (.mvm rd rs1) s = .next t ∧ t.faultedWith 6 s.faultMap.backendUnavailable ∧
      s.sameBlock t ∧ s.sameSurroundings t)

/-- DOTP: one backend call with the zero-padded masked active lanes; the result is the low 16 bits of the answer,
sign-extended, and no register changes. The reference backend's answer is the exact sum of the products (R202, R203);
another's is the open parameter's (log 10). -/
def Obligations.DotpReturnsTheSignExtendedLowHalf : Prop :=
  ∀ (s : State) (rs1 rs2 : Reg), s.bridgeReady = true →
    (s.outside.backend = .reference → ∃ (t : State) (a b : LaneVec), exec (.dotp rs1 rs2) s = .next t ∧
      t.completedWith ((BitVec.ofInt 16 (∑ i : Fin 32,
        (if i.val < s.vl then s.maskedValue rs1 i * s.maskedValue rs2 i else 0))).signExtend 64) ∧
      (∀ i : Fin 32, a[i].toInt = if i.val < s.vl then s.maskedValue rs1 i else 0) ∧
      (∀ i : Fin 32, b[i].toInt = if i.val < s.vl then s.maskedValue rs2 i else 0) ∧ s.callsMade t [.dotp a b] ∧
      s.sameBlock t ∧ s.sameInputs t ∧ s.sameHarness t ∧ s.sameParameters t ∧ s.sameMemory t ∧
      t.waiting = s.waiting) ∧
    (s.outside.backend = .external → ∀ a b : LaneVec,
      (∀ i : Fin 32, a[i].toInt = if i.val < s.vl then s.maskedValue rs1 i else 0) →
      (∀ i : Fin 32, b[i].toInt = if i.val < s.vl then s.maskedValue rs2 i else 0) →
      ∃ t, exec (.dotp rs1 rs2) s = .next t ∧
        t.completedWith ((BitVec.ofInt 16 (Config.dotpFn a b)).signExtend 64) ∧ s.callsMade t [.dotp a b] ∧
        s.sameBlock t ∧ s.sameInputs t ∧ s.sameHarness t ∧ s.sameParameters t ∧ s.sameMemory t ∧
        t.waiting = s.waiting)

/-- MVM with the reference backend: one call with the zero-padded buffers; active lane `row` of `V[rd]` is the wrapped sum
over the active columns of `M[row][col]` times the masked lane, the tail is 0, and nothing else changes (R205, R206). -/
def Obligations.MvmIsRowTimesVector : Prop :=
  ∀ (s : State) (rd rs1 : Reg), s.bridgeReady = true → s.outside.backend = .reference →
    ∃ (t : State) (w : Matrix) (x : LaneVec), exec (.mvm rd rs1) s = .next t ∧
      (∀ row : Fin 32, (t.lane rd row).toInt =
        if row.val < s.vl then
          LaneOverflow.wrap.reduced
            (∑ col : Fin 32, (if col.val < s.vl then (s.cell row col).toInt * s.maskedValue rs1 col else 0))
        else 0) ∧
      (∀ row col : Fin 32, w[row][col] = if row.val < s.vl ∧ col.val < s.vl then s.cell row col else 0) ∧
      (∀ i : Fin 32, x[i].toInt = if i.val < s.vl then s.maskedValue rs1 i else 0) ∧ s.callsMade t [.mvm w x] ∧
      s.sameBlockButReg t rd ∧ s.sameInputs t ∧ s.sameHarness t ∧ s.sameParameters t ∧ s.sameMemory t ∧
      t.waiting = s.waiting ∧ t.completedWith 0

/-- MVM with any other backend: one call with the zero-padded block of `M` and the zero-padded masked lanes, and the first VL
answers, whatever they are, written back (R205; the answers are the open parameter's, log 10). -/
def Obligations.MvmWritesAnyBackendsAnswers : Prop :=
  ∀ (s : State) (rd rs1 : Reg), s.bridgeReady = true → s.outside.backend = .external →
    ∀ (w : Matrix) (x : LaneVec),
      (∀ row col : Fin 32, w[row][col] = if row.val < s.vl ∧ col.val < s.vl then s.cell row col else 0) →
      (∀ i : Fin 32, x[i].toInt = if i.val < s.vl then s.maskedValue rs1 i else 0) →
      ∃ t, exec (.mvm rd rs1) s = .next t ∧
        (∀ i : Fin 32, t.lane rd i = if i.val < s.vl then (Config.mvmFn w x)[i] else 0) ∧
        s.callsMade t [.mvm w x] ∧ s.sameBlockButReg t rd ∧ s.sameInputs t ∧ s.sameHarness t ∧ s.sameParameters t ∧
        s.sameMemory t ∧ t.waiting = s.waiting ∧ t.completedWith 0

/-- A backend call that never returns leaves DOTP or MVM stuck, without a response: the one call with the zero-padded buffers of
R202 and R205 is issued, and no register, no memory and nothing else changes (R201, R348; log 11). -/
def Obligations.SilentBackendLeavesTheBlockStuck : Prop :=
  ∀ (s : State) (rd rs1 rs2 : Reg), s.bridgeReady = true → s.outside.backend = .silent →
    (∃ (t : State) (a b : LaneVec), exec (.dotp rs1 rs2) s = .next t ∧ t.stuckOn .backend ∧
      (∀ i : Fin 32, a[i].toInt = if i.val < s.vl then s.maskedValue rs1 i else 0) ∧
      (∀ i : Fin 32, b[i].toInt = if i.val < s.vl then s.maskedValue rs2 i else 0) ∧ s.callsMade t [.dotp a b] ∧
      s.sameBlock t ∧ s.sameInputs t ∧ s.sameHarness t ∧ s.sameParameters t ∧ s.sameMemory t) ∧
    (∃ (t : State) (w : Matrix) (x : LaneVec), exec (.mvm rd rs1) s = .next t ∧ t.stuckOn .backend ∧
      (∀ row col : Fin 32, w[row][col] = if row.val < s.vl ∧ col.val < s.vl then s.cell row col else 0) ∧
      (∀ i : Fin 32, x[i].toInt = if i.val < s.vl then s.maskedValue rs1 i else 0) ∧ s.callsMade t [.mvm w x] ∧
      s.sameBlock t ∧ s.sameInputs t ∧ s.sameHarness t ∧ s.sameParameters t ∧ s.sameMemory t)

/-! CONFIG (44_config.md). -/

/-- CONFIG selector 0: `xs1` read unsigned becomes VL when it lies in [1, 32], otherwise cause 1 and VL unchanged; no
register is touched (R222). -/
def Obligations.SetVLAcceptsOneToThirtyTwo : Prop :=
  ∀ s : State,
    (1 ≤ s.xs1.toNat ∧ s.xs1.toNat ≤ 32 → ∃ t, exec .configVL s = .next t ∧ t.vl = s.xs1.toNat ∧
      (∀ r, t.reg r = s.reg r) ∧ (∀ r, t.maskOf r = s.maskOf r) ∧ (∀ row col, t.cell row col = s.cell row col) ∧
      t.stride = s.stride ∧ s.sameSurroundings t ∧ t.completedWith 0) ∧
    (s.xs1.toNat < 1 ∨ 32 < s.xs1.toNat → ∃ t, exec .configVL s = .next t ∧
      t.faultedWith 1 s.faultMap.illegalConfiguration ∧ s.sameBlock t ∧ s.sameSurroundings t)

/-- CONFIG selector 1: every bit of `MASK[rs2]` is the bit of `xs1[31:0]`; no other mask and no register changes
(R224). -/
def Obligations.SetMaskReplacesOneMask : Prop :=
  ∀ (s : State) (rs2 : Reg), ∃ t, exec (.configMask rs2) s = .next t ∧
    (∀ i, i < 32 → (t.maskOf rs2).getLsbD i = s.xs1.getLsbD i) ∧ (∀ r, r ≠ rs2 → t.maskOf r = s.maskOf r) ∧
    (∀ r, t.reg r = s.reg r) ∧ (∀ row col, t.cell row col = s.cell row col) ∧ t.vl = s.vl ∧ t.stride = s.stride ∧
    s.sameSurroundings t ∧ t.completedWith 0

/-- CONFIG with a selector in [3, 31] faults with cause 1 and changes nothing (R228). -/
def Obligations.OtherConfigSelectorsFault : Prop :=
  ∀ (s : State) (sel : Reg), 3 ≤ sel.toNat → ∃ t, exec (.configIllegalSelector sel) s = .next t ∧
    t.faultedWith 1 s.faultMap.illegalConfiguration ∧ s.sameBlock t ∧ s.sameSurroundings t

/-- CONFIG selector 2 over plain memory: cell `M[row][col]` of the `VL x VL` block gets the element `row * VL + col`, the
other cells and every other register keep their values, and the elements are loaded in order (R60, R226). -/
def Obligations.LoadMatrixFillsTheBlockRowByRow : Prop :=
  ∀ s : State, s.vl ≤ 32 → s.plainElements .load (s.vl * s.vl) → ∃ t, exec .configMatrix s = .next t ∧
    (∀ row col : Fin 32, t.cell row col =
      if row.val < s.vl ∧ col.val < s.vl
      then s.outside.valueAt (elementAddress s.xs1 s.stride (row.val * s.vl + col.val)) else s.cell row col) ∧
    (∀ r, t.reg r = s.reg r) ∧ (∀ r, t.maskOf r = s.maskOf r) ∧ t.vl = s.vl ∧ t.stride = s.stride ∧
    s.sameInputs t ∧ s.sameHarness t ∧ s.sameParameters t ∧ s.sameMemory t ∧
    s.callsMade t (s.loadCalls (s.vl * s.vl)) ∧ t.waiting = s.waiting ∧ t.completedWith 0

/-- A memory fault in CONFIG selector 2, every access before it answered by plain memory or by a device (R57; log 5), ends it with
cause 5 at that access: no later access is issued, and nothing changes but the cells of the block, of which nothing is said
(R56, R311 (b)). -/
def Obligations.MatrixLoadFaultSparesTheRest : Prop :=
  ∀ (s : State) (n : Nat), s.vl ≤ 32 → n < s.vl * s.vl → s.answeredElements .load n →
    s.outside.answer .load (elementAddress s.xs1 s.stride n) = .fault → ∃ t, exec .configMatrix s = .next t ∧
      t.faultedWith 5 s.faultMap.memoryFaultOnLoad ∧
      (∀ row col : Fin 32, ¬(row.val < s.vl ∧ col.val < s.vl) → t.cell row col = s.cell row col) ∧
      (∀ r, t.reg r = s.reg r) ∧ (∀ r, t.maskOf r = s.maskOf r) ∧ t.vl = s.vl ∧ t.stride = s.stride ∧
      s.sameInputs t ∧ s.sameHarness t ∧ s.sameParameters t ∧ s.sameMemory t ∧
      s.callsMade t (s.loadCalls (n + 1)) ∧ t.waiting = s.waiting

/-! LOAD and STORE (20_memory.md, 45_load_store.md). -/

/-- Element addresses are `xs1 + k * STRIDE * 2` modulo 2^64 (R53). -/
def Obligations.ElementAddressesWrap : Prop :=
  ∀ (base stride : Word64) (k : Nat),
    (elementAddress base stride k).toNat = (base.toNat + k * stride.toNat * 2) % 2 ^ 64

/-- LOAD over plain memory: active lane `i` of `V[rd]` is the value of element `i`, unmasked, the tail is 0, the elements are
loaded in order, and nothing else changes (R60, R241). -/
def Obligations.LoadReadsTheElementsInOrder : Prop :=
  ∀ (s : State) (rd : Reg), s.vl ≤ 32 → s.plainElements .load s.vl → ∃ t, exec (.load rd) s = .next t ∧
    (∀ i : Fin 32, t.lane rd i =
      if i.val < s.vl then s.outside.valueAt (elementAddress s.xs1 s.stride i.val) else 0) ∧
    s.sameBlockButReg t rd ∧ s.sameInputs t ∧ s.sameHarness t ∧ s.sameParameters t ∧ s.sameMemory t ∧
    s.callsMade t (s.loadCalls s.vl) ∧ t.waiting = s.waiting ∧ t.completedWith 0

/-- A memory fault in LOAD, every access before it answered by plain memory or by a device (R57; log 5), ends it with cause 5 at
that access: no later access is issued, and nothing changes but the lanes of `V[rd]`, of which nothing is said (R56, R311 (a)).
-/
def Obligations.LoadFaultSparesTheRest : Prop :=
  ∀ (s : State) (rd : Reg) (n : Nat), s.vl ≤ 32 → n < s.vl → s.answeredElements .load n →
    s.outside.answer .load (elementAddress s.xs1 s.stride n) = .fault → ∃ t, exec (.load rd) s = .next t ∧
      t.faultedWith 5 s.faultMap.memoryFaultOnLoad ∧ s.sameBlockButReg t rd ∧ s.sameInputs t ∧ s.sameHarness t ∧
      s.sameParameters t ∧ s.sameMemory t ∧ s.callsMade t (s.loadCalls (n + 1)) ∧ t.waiting = s.waiting

/-- STORE over plain memory: each element holds its lane afterwards, unmasked, unless a later element has the same address
(then the later one's stands), every byte outside the elements is untouched, the stores are issued in order, and no
register changes (R60, R244). -/
def Obligations.StoreWritesTheActiveLanes : Prop :=
  ∀ (s : State) (rs2 : Reg), s.vl ≤ 32 → s.outside.mem.wf = true → s.plainElements .store s.vl →
    ∃ t, exec (.store rs2) s = .next t ∧
      (∀ k : Fin 32, k.val < s.vl →
        (∀ j, k.val < j → j < s.vl → elementAddress s.xs1 s.stride j ≠ elementAddress s.xs1 s.stride k.val) →
        t.outside.valueAt (elementAddress s.xs1 s.stride k.val) = s.lane rs2 k) ∧
      (∀ a, (∀ k, k < s.vl → ¬s.byteOfElement k a) → t.outside.byteAt a = s.outside.byteAt a) ∧
      s.sameBlock t ∧ s.sameInputs t ∧ s.sameHarness t ∧ s.sameParameters t ∧
      s.callsMade t (s.storeCalls rs2 s.vl) ∧ t.waiting = s.waiting ∧ t.completedWith 0

/-- A memory fault in STORE, every access before it answered by plain memory or by a device (R57), ends it with cause 5 at that
access: the plain elements before it are stored and every byte outside those is untouched (a device's store changes none: log 5),
no later store is issued, and no register changes (R56, R311 (c)). -/
def Obligations.StoreFaultKeepsTheEarlierElements : Prop :=
  ∀ (s : State) (rs2 : Reg) (n : Nat), s.vl ≤ 32 → s.outside.mem.wf = true → n < s.vl →
    s.answeredElements .store n →
    s.outside.answer .store (elementAddress s.xs1 s.stride n) = .fault → ∃ t, exec (.store rs2) s = .next t ∧
      t.faultedWith 5 s.faultMap.memoryFaultOnStore ∧ s.storesElements t rs2 n ∧
      s.sameBlock t ∧ s.sameInputs t ∧ s.sameHarness t ∧ s.sameParameters t ∧
      s.callsMade t (s.storeCalls rs2 (n + 1)) ∧ t.waiting = s.waiting

/-- An access that the host memory never answers, every access before it answered by plain memory or by a device (R57), leaves
LOAD, STORE or CONFIG selector 2 stuck, without a response and with no later access issued (R11 (d), R348; log 11). LOAD and
STORE leave every register as it was, and CONFIG selector 2 every one but the cells of the block (log 12). Of STORE the plain
elements before the unanswered one are stored (a device's store changes no byte: log 5) and every byte outside those, the
unanswered element's own included (log 27), is untouched. -/
def Obligations.UnansweredAccessLeavesTheBlockStuck : Prop :=
  ∀ (s : State) (r : Reg) (n : Nat), s.vl ≤ 32 →
    (n < s.vl → s.answeredElements .load n → s.outside.answer .load (elementAddress s.xs1 s.stride n) = .never →
      ∃ t, exec (.load r) s = .next t ∧ t.stuckOn .memory ∧ s.sameBlock t ∧ s.sameInputs t ∧ s.sameHarness t ∧
        s.sameParameters t ∧ s.sameMemory t ∧ s.callsMade t (s.loadCalls (n + 1))) ∧
    (n < s.vl → s.outside.mem.wf = true → s.answeredElements .store n →
      s.outside.answer .store (elementAddress s.xs1 s.stride n) = .never →
      ∃ t, exec (.store r) s = .next t ∧ t.stuckOn .memory ∧ s.storesElements t r n ∧
        s.sameBlock t ∧ s.sameInputs t ∧ s.sameHarness t ∧ s.sameParameters t ∧
        s.callsMade t (s.storeCalls r (n + 1))) ∧
    (n < s.vl * s.vl → s.answeredElements .load n →
      s.outside.answer .load (elementAddress s.xs1 s.stride n) = .never →
      ∃ t, exec .configMatrix s = .next t ∧ t.stuckOn .memory ∧
        (∀ row col : Fin 32, ¬(row.val < s.vl ∧ col.val < s.vl) → t.cell row col = s.cell row col) ∧
        (∀ q, t.reg q = s.reg q) ∧ (∀ q, t.maskOf q = s.maskOf q) ∧ t.vl = s.vl ∧ t.stride = s.stride ∧
        s.sameInputs t ∧ s.sameHarness t ∧ s.sameParameters t ∧ s.sameMemory t ∧
        s.callsMade t (s.loadCalls (n + 1)))

/-- Store-then-load round trip over plain memory, in either byte order: with pairwise distinct element addresses, which
every STRIDE that is no multiple of 2^59 gives, LOAD after STORE from the same base reproduces the stored active lanes
exactly (R66). -/
def Obligations.StoreThenLoadReproducesTheRegister : Prop :=
  (∀ (s : State) (rs2 rd : Reg), s.vl ≤ 32 → s.outside.mem.wf = true →
    s.plainElements .store s.vl → s.plainElements .load s.vl →
    (∀ j k, j < k → k < s.vl → elementAddress s.xs1 s.stride j ≠ elementAddress s.xs1 s.stride k) →
    ∃ t u, exec (.store rs2) s = .next t ∧ exec (.load rd) t = .next u ∧ t.completedWith 0 ∧ u.completedWith 0 ∧
      ∀ i : Fin 32, i.val < s.vl → u.lane rd i = s.lane rs2 i) ∧
  (∀ (s : State), s.vl ≤ 32 → ¬(2 ^ 59 ∣ s.stride.toNat) →
    ∀ j k, j < k → k < s.vl → elementAddress s.xs1 s.stride j ≠ elementAddress s.xs1 s.stride k)

/-- The host's write of a byte of its own memory (R61; log 24): that byte holds the value afterwards, no other byte and nothing
else of the machine changes, and the memory stays canonical; while the block accepts no command it stays offered (log 11,
log 28). -/
def Obligations.HostWriteChangesOneByte : Prop :=
  ∀ (s : State) (a : Word64) (b : Byte) (rest : List HostEvent),
    (s.cmdReady = true → s.inbox = .hostWrite a b :: rest → s.outside.mem.wf = true →
      ∃ m : Memory, step s = .next { s with outside := { s.outside with mem := m }, inbox := rest } ∧ m.wf = true ∧
        m.read a.toNat = b ∧ ∀ c : Word64, c ≠ a → m.read c.toNat = s.outside.byteAt c) ∧
    (s.cmdReady = false → s.inbox = [.hostWrite a b] → step s = .next s)

/-- Accesses that a device answers complete like any other (R57), and no byte of plain memory changes by them (log 5). LOAD and
CONFIG selector 2 read the plain elements among them and leave memory alone; what the device returned is a free value, of which
nothing is said (log 14). STORE stores the plain elements among them and touches no byte outside those. Nothing else changes. -/
def Obligations.DeviceAccessesLeaveMemoryAlone : Prop :=
  ∀ (s : State) (r : Reg), s.vl ≤ 32 →
    (s.answeredElements .load s.vl → ∃ t, exec (.load r) s = .next t ∧
      (∀ i : Fin 32, i.val < s.vl → s.outside.answer .load (elementAddress s.xs1 s.stride i.val) = .plain →
        t.lane r i = s.outside.valueAt (elementAddress s.xs1 s.stride i.val)) ∧
      (∀ i : Fin 32, s.vl ≤ i.val → t.lane r i = 0) ∧
      s.sameBlockButReg t r ∧ s.sameInputs t ∧ s.sameHarness t ∧ s.sameParameters t ∧ s.sameMemory t ∧
      s.callsMade t (s.loadCalls s.vl) ∧ t.waiting = s.waiting ∧ t.completedWith 0) ∧
    (s.answeredElements .load (s.vl * s.vl) → ∃ t, exec .configMatrix s = .next t ∧
      (∀ row col : Fin 32, row.val < s.vl ∧ col.val < s.vl →
        s.outside.answer .load (elementAddress s.xs1 s.stride (row.val * s.vl + col.val)) = .plain →
        t.cell row col = s.outside.valueAt (elementAddress s.xs1 s.stride (row.val * s.vl + col.val))) ∧
      (∀ row col : Fin 32, ¬(row.val < s.vl ∧ col.val < s.vl) → t.cell row col = s.cell row col) ∧
      (∀ q, t.reg q = s.reg q) ∧ (∀ q, t.maskOf q = s.maskOf q) ∧ t.vl = s.vl ∧ t.stride = s.stride ∧
      s.sameInputs t ∧ s.sameHarness t ∧ s.sameParameters t ∧ s.sameMemory t ∧
      s.callsMade t (s.loadCalls (s.vl * s.vl)) ∧ t.waiting = s.waiting ∧ t.completedWith 0) ∧
    (s.outside.mem.wf = true → s.answeredElements .store s.vl → ∃ t, exec (.store r) s = .next t ∧
      s.storesElements t r s.vl ∧ s.sameBlock t ∧ s.sameInputs t ∧ s.sameHarness t ∧ s.sameParameters t ∧
      s.callsMade t (s.storeCalls r s.vl) ∧ t.waiting = s.waiting ∧ t.completedWith 0)

/-! DUMP and unrecognized commands (46_dump_unknown.md). -/

/-- DUMP changes no state of the block, answers 0, and the harness emits its counters (R260; log 16). -/
def Obligations.DumpEmitsTheCounters : Prop :=
  ∀ s : State, ∃ t, exec .dump s = .next t ∧ t.completedWith 0 ∧ s.sameBlock t ∧ s.sameInputs t ∧
    s.sameParameters t ∧ s.sameMemory t ∧ s.callsMade t [] ∧ t.waiting = s.waiting ∧
    t.bridgeReady = s.bridgeReady ∧ t.counts = s.counts ∧ t.harnessLog = .counts s.counts :: s.harnessLog

/-- Each of the three unrecognized rows runs as a no-op that is reported: no state of the block changes, no fault, result 0
(R262, R263). -/
def Obligations.UnrecognizedCommandsAreReportedNoOps : Prop :=
  ∀ (s : State) (i : Instr), i.isUnrecognized = true → ∃ t, exec i s = .next t ∧ t.unrecognizedReported ∧
    s.sameBlock t ∧ s.sameInputs t ∧ s.sameParameters t ∧ s.sameMemory t ∧ s.callsMade t [] ∧
    t.waiting = s.waiting ∧ t.bridgeReady = s.bridgeReady ∧ t.counts = s.counts ∧
    t.harnessLog = .unrecognized :: s.harnessLog

/-! The activation unit (40_activation_unit.md). -/

/-- The direct port answers a request even while a command is in progress or `rst` is asserted, the next event or offered behind
what such a block holds up (log 11, log 28): RELU, TANH or SIGMOID of the request for kinds 0, 1, 2, and `y = 0` with
`act_illegal` for kind 3; nothing else of the machine changes (R100, R101, R347). -/
def Obligations.DirectPortAnswersAtAnyTime : Prop :=
  ∀ (s : State) (kind : BitVec 2) (x : Lane) (shift : BitVec 5) (held rest : List HostEvent),
    s.inbox = held ++ .activation kind x shift :: rest →
    (held = [] ∨ s.cmdReady = false ∧ ∀ e ∈ held, e.held) →
    ∃ t, step s = .next t ∧ t = { s with actKind := kind, actX := x, actS := shift, inbox := held ++ rest } ∧
      (kind = 0 → t.actY.toInt = max 0 x.toInt ∧ t.actIllegal = false) ∧
      (kind = 1 → t.actY = actTanh s.lut x shift ∧ t.actIllegal = false) ∧
      (kind = 2 → t.actY = actSigmoid s.lut x shift ∧ t.actIllegal = false) ∧
      (kind = 3 → t.actY = 0 ∧ t.actIllegal = true)

/-- Pre-scale and magnitude: `scaledInput` is `x * 3 * 2^s` reduced to signed 32 bits, without a wrap for `s <= 14`, and
`absInput` is its magnitude, 2^31 for -2^31 (R108, R109). -/
def Obligations.PreScaleWrapsOnlyFromShiftFifteen : Prop :=
  ∀ (x : Lane) (shift : BitVec 5),
    -2 ^ 31 ≤ scaledInput x shift ∧ scaledInput x shift < 2 ^ 31 ∧
    (2 : Int) ^ 32 ∣ scaledInput x shift - x.toInt * 3 * 2 ^ shift.toNat ∧
    (shift.toNat ≤ 14 → scaledInput x shift = x.toInt * 3 * 2 ^ shift.toNat) ∧
    (absInput (scaledInput x shift) : Int) = |scaledInput x shift|

/-- Saturation and interpolation: SIGMOID gives its ceiling 33553408 from `absInput` 130560 on and TANH its ceiling 16776960
from 65280 on; below that `r` is the exact linear interpolation between neighbouring entries, in [0, 2^26) for every
table that R104 allows (R107, R110, R111). -/
def Obligations.InterpolationIsExactBelowSaturation : Prop :=
  ∀ (t : SigmoidTable) (a : Nat),
    (130560 ≤ a → sigmoidInner t a = 33553408) ∧ (65280 ≤ a → tanhInner t a = 16776960) ∧
    (a < 130560 → sigmoidInner t a =
      lutEntry t (a / 512) * (512 - (a % 512 : Nat)) + lutEntry t (a / 512 + 1) * (a % 512 : Nat)) ∧
    (a < 65280 → tanhInner t a =
      lutEntry t (a / 256) * (256 - (a % 256 : Nat)) + lutEntry t (a / 256 + 1) * (a % 256 : Nat)) ∧
    (lutLegal t → 0 ≤ sigmoidInner t a ∧ sigmoidInner t a < 2 ^ 26 ∧ 0 ≤ tanhInner t a ∧ tanhInner t a < 2 ^ 26)

/-- Zero input: SIGMOID gives 16384 and TANH gives 0, for every shift and every table that R104 allows (R118). -/
def Obligations.ZeroInputIsTheMidpoint : Prop :=
  ∀ (t : SigmoidTable) (shift : BitVec 5), lutLegal t →
    act t .sigmoid 0 shift = 16384 ∧ act t .tanh 0 shift = 0

/-- Output ranges for `s <= 14`: TANH in [-32767, 32767] for every table that R104 allows, SIGMOID in [1, 32767] for those
with `T[254] <= 65534` (R114). -/
def Obligations.ActivationOutputsStayInRange : Prop :=
  ∀ (t : SigmoidTable) (x : Lane) (shift : BitVec 5), lutLegal t → shift.toNat ≤ 14 →
    (-32767 ≤ (act t .tanh x shift).toInt ∧ (act t .tanh x shift).toInt ≤ 32767) ∧
    (lutEntry t 254 ≤ 65534 → 1 ≤ (act t .sigmoid x shift).toInt ∧ (act t .sigmoid x shift).toInt ≤ 32767)

/-- Symmetry: for `x` in [-32767, 32767] and `s <= 14`, SIGMOID of `x` and `-x` sum to exactly 32768 and TANH is exactly odd,
for every table that R104 allows; for SIGMOID with `T[254] <= 65534`, without which R114 lets the output wrap (R116). -/
def Obligations.SigmoidAndTanhAreSymmetric : Prop :=
  ∀ (t : SigmoidTable) (x : Lane) (shift : BitVec 5), lutLegal t → shift.toNat ≤ 14 → x.toInt ≠ -32768 →
    (act t .tanh (-x) shift).toInt = -(act t .tanh x shift).toInt ∧
    (lutEntry t 254 ≤ 65534 → (act t .sigmoid x shift).toInt + (act t .sigmoid (-x) shift).toInt = 32768)

/-- Monotonicity: for `s <= 14` TANH and SIGMOID are non-decreasing in the signed input, for every table that R104 allows;
for SIGMOID with `T[254] <= 65534`, without which R114 lets the output wrap (R117). -/
def Obligations.SigmoidAndTanhAreMonotone : Prop :=
  ∀ (t : SigmoidTable) (x x' : Lane) (shift : BitVec 5), lutLegal t → shift.toNat ≤ 14 → x.toInt ≤ x'.toInt →
    (act t .tanh x shift).toInt ≤ (act t .tanh x' shift).toInt ∧
    (lutEntry t 254 ≤ 65534 → (act t .sigmoid x shift).toInt ≤ (act t .sigmoid x' shift).toInt)

/-- The worked examples of R119, with the reference table of R105. -/
def Obligations.WorkedActivationExamples : Prop :=
  act lutReference .sigmoid 1 0 = 16386 ∧ act lutReference .sigmoid (-1) 0 = 16382 ∧
  act lutReference .tanh 1 0 = 8 ∧ act lutReference .tanh (-1) 0 = -8 ∧
  act lutReference .sigmoid 4096 0 = 23956 ∧ act lutReference .tanh 4096 0 = 24956 ∧
  act lutReference .tanh 21760 0 = 32767 ∧ act lutReference .tanh (-32768) 0 = -32767 ∧
  act lutReference .sigmoid 21760 1 = 32767 ∧ act lutReference .sigmoid 32767 0 = 32757 ∧
  act lutReference .sigmoid (-32768) 0 = 11
end

