-- ==== Sys2Proof/Laws/State.lean ====
section
/-! SUPPORT. The fields of every named update of State, one lemma per field per update, each true by rfl; then the same
for the register accessors. Later proofs never unfold a record update. -/

namespace Sys2Proof.Machine

/-! setReg -/

@[simp] theorem State.setReg_v (s : State) (rd : Reg) (x : LaneVec) : (s.setReg rd x).v = s.v.set rd.toNat x rd.isLt := rfl
@[simp] theorem State.setReg_mask (s : State) (rd : Reg) (x : LaneVec) : (s.setReg rd x).mask = s.mask := rfl
@[simp] theorem State.setReg_m (s : State) (rd : Reg) (x : LaneVec) : (s.setReg rd x).m = s.m := rfl
@[simp] theorem State.setReg_vl (s : State) (rd : Reg) (x : LaneVec) : (s.setReg rd x).vl = s.vl := rfl
@[simp] theorem State.setReg_stride (s : State) (rd : Reg) (x : LaneVec) : (s.setReg rd x).stride = s.stride := rfl
@[simp] theorem State.setReg_xs1 (s : State) (rd : Reg) (x : LaneVec) : (s.setReg rd x).xs1 = s.xs1 := rfl
@[simp] theorem State.setReg_xs2 (s : State) (rd : Reg) (x : LaneVec) : (s.setReg rd x).xs2 = s.xs2 := rfl
@[simp] theorem State.setReg_resp (s : State) (rd : Reg) (x : LaneVec) : (s.setReg rd x).resp = s.resp := rfl
@[simp] theorem State.setReg_waiting (s : State) (rd : Reg) (x : LaneVec) : (s.setReg rd x).waiting = s.waiting := rfl
@[simp] theorem State.setReg_rst (s : State) (rd : Reg) (x : LaneVec) : (s.setReg rd x).rst = s.rst := rfl
@[simp] theorem State.setReg_actKind (s : State) (rd : Reg) (x : LaneVec) : (s.setReg rd x).actKind = s.actKind := rfl
@[simp] theorem State.setReg_actX (s : State) (rd : Reg) (x : LaneVec) : (s.setReg rd x).actX = s.actX := rfl
@[simp] theorem State.setReg_actS (s : State) (rd : Reg) (x : LaneVec) : (s.setReg rd x).actS = s.actS := rfl
@[simp] theorem State.setReg_bridgeReady (s : State) (rd : Reg) (x : LaneVec) : (s.setReg rd x).bridgeReady = s.bridgeReady := rfl
@[simp] theorem State.setReg_counts (s : State) (rd : Reg) (x : LaneVec) : (s.setReg rd x).counts = s.counts := rfl
@[simp] theorem State.setReg_harnessLog (s : State) (rd : Reg) (x : LaneVec) : (s.setReg rd x).harnessLog = s.harnessLog := rfl
@[simp] theorem State.setReg_hostTrap (s : State) (rd : Reg) (x : LaneVec) : (s.setReg rd x).hostTrap = s.hostTrap := rfl
@[simp] theorem State.setReg_lut (s : State) (rd : Reg) (x : LaneVec) : (s.setReg rd x).lut = s.lut := rfl
@[simp] theorem State.setReg_overflow (s : State) (rd : Reg) (x : LaneVec) : (s.setReg rd x).overflow = s.overflow := rfl
@[simp] theorem State.setReg_divFn (s : State) (rd : Reg) (x : LaneVec) : (s.setReg rd x).divFn = s.divFn := rfl
@[simp] theorem State.setReg_faultMap (s : State) (rd : Reg) (x : LaneVec) : (s.setReg rd x).faultMap = s.faultMap := rfl
@[simp] theorem State.setReg_outside (s : State) (rd : Reg) (x : LaneVec) : (s.setReg rd x).outside = s.outside := rfl
@[simp] theorem State.setReg_inbox (s : State) (rd : Reg) (x : LaneVec) : (s.setReg rd x).inbox = s.inbox := rfl
@[simp] theorem State.setReg_maskOf (s : State) (rd : Reg) (x : LaneVec) (q : Reg) : (s.setReg rd x).maskOf q = s.maskOf q := rfl
@[simp] theorem State.setReg_enabled (s : State) (rd : Reg) (x : LaneVec) (q : Reg) (j : Fin 32) : (s.setReg rd x).enabled q j = s.enabled q j := rfl
@[simp] theorem State.setReg_cell (s : State) (rd : Reg) (x : LaneVec) (row col : Fin 32) : (s.setReg rd x).cell row col = s.cell row col := rfl
@[simp] theorem State.setReg_active (s : State) (rd : Reg) (x : LaneVec) : (s.setReg rd x).active = s.active := rfl

/-! writeReg -/

@[simp] theorem State.writeReg_v (s : State) (rd : Reg) (f : Fin 32 → Lane) : (s.writeReg rd f).v = s.v.set rd.toNat (tailZeroed s.vl f) rd.isLt := rfl
@[simp] theorem State.writeReg_mask (s : State) (rd : Reg) (f : Fin 32 → Lane) : (s.writeReg rd f).mask = s.mask := rfl
@[simp] theorem State.writeReg_m (s : State) (rd : Reg) (f : Fin 32 → Lane) : (s.writeReg rd f).m = s.m := rfl
@[simp] theorem State.writeReg_vl (s : State) (rd : Reg) (f : Fin 32 → Lane) : (s.writeReg rd f).vl = s.vl := rfl
@[simp] theorem State.writeReg_stride (s : State) (rd : Reg) (f : Fin 32 → Lane) : (s.writeReg rd f).stride = s.stride := rfl
@[simp] theorem State.writeReg_xs1 (s : State) (rd : Reg) (f : Fin 32 → Lane) : (s.writeReg rd f).xs1 = s.xs1 := rfl
@[simp] theorem State.writeReg_xs2 (s : State) (rd : Reg) (f : Fin 32 → Lane) : (s.writeReg rd f).xs2 = s.xs2 := rfl
@[simp] theorem State.writeReg_resp (s : State) (rd : Reg) (f : Fin 32 → Lane) : (s.writeReg rd f).resp = s.resp := rfl
@[simp] theorem State.writeReg_waiting (s : State) (rd : Reg) (f : Fin 32 → Lane) : (s.writeReg rd f).waiting = s.waiting := rfl
@[simp] theorem State.writeReg_rst (s : State) (rd : Reg) (f : Fin 32 → Lane) : (s.writeReg rd f).rst = s.rst := rfl
@[simp] theorem State.writeReg_actKind (s : State) (rd : Reg) (f : Fin 32 → Lane) : (s.writeReg rd f).actKind = s.actKind := rfl
@[simp] theorem State.writeReg_actX (s : State) (rd : Reg) (f : Fin 32 → Lane) : (s.writeReg rd f).actX = s.actX := rfl
@[simp] theorem State.writeReg_actS (s : State) (rd : Reg) (f : Fin 32 → Lane) : (s.writeReg rd f).actS = s.actS := rfl
@[simp] theorem State.writeReg_bridgeReady (s : State) (rd : Reg) (f : Fin 32 → Lane) : (s.writeReg rd f).bridgeReady = s.bridgeReady := rfl
@[simp] theorem State.writeReg_counts (s : State) (rd : Reg) (f : Fin 32 → Lane) : (s.writeReg rd f).counts = s.counts := rfl
@[simp] theorem State.writeReg_harnessLog (s : State) (rd : Reg) (f : Fin 32 → Lane) : (s.writeReg rd f).harnessLog = s.harnessLog := rfl
@[simp] theorem State.writeReg_hostTrap (s : State) (rd : Reg) (f : Fin 32 → Lane) : (s.writeReg rd f).hostTrap = s.hostTrap := rfl
@[simp] theorem State.writeReg_lut (s : State) (rd : Reg) (f : Fin 32 → Lane) : (s.writeReg rd f).lut = s.lut := rfl
@[simp] theorem State.writeReg_overflow (s : State) (rd : Reg) (f : Fin 32 → Lane) : (s.writeReg rd f).overflow = s.overflow := rfl
@[simp] theorem State.writeReg_divFn (s : State) (rd : Reg) (f : Fin 32 → Lane) : (s.writeReg rd f).divFn = s.divFn := rfl
@[simp] theorem State.writeReg_faultMap (s : State) (rd : Reg) (f : Fin 32 → Lane) : (s.writeReg rd f).faultMap = s.faultMap := rfl
@[simp] theorem State.writeReg_outside (s : State) (rd : Reg) (f : Fin 32 → Lane) : (s.writeReg rd f).outside = s.outside := rfl
@[simp] theorem State.writeReg_inbox (s : State) (rd : Reg) (f : Fin 32 → Lane) : (s.writeReg rd f).inbox = s.inbox := rfl
@[simp] theorem State.writeReg_maskOf (s : State) (rd : Reg) (f : Fin 32 → Lane) (q : Reg) : (s.writeReg rd f).maskOf q = s.maskOf q := rfl
@[simp] theorem State.writeReg_enabled (s : State) (rd : Reg) (f : Fin 32 → Lane) (q : Reg) (j : Fin 32) : (s.writeReg rd f).enabled q j = s.enabled q j := rfl
@[simp] theorem State.writeReg_cell (s : State) (rd : Reg) (f : Fin 32 → Lane) (row col : Fin 32) : (s.writeReg rd f).cell row col = s.cell row col := rfl
@[simp] theorem State.writeReg_active (s : State) (rd : Reg) (f : Fin 32 → Lane) : (s.writeReg rd f).active = s.active := rfl

/-! setMask -/

@[simp] theorem State.setMask_v (s : State) (r : Reg) (x : MaskWord) : (s.setMask r x).v = s.v := rfl
@[simp] theorem State.setMask_mask (s : State) (r : Reg) (x : MaskWord) : (s.setMask r x).mask = s.mask.set r.toNat x r.isLt := rfl
@[simp] theorem State.setMask_m (s : State) (r : Reg) (x : MaskWord) : (s.setMask r x).m = s.m := rfl
@[simp] theorem State.setMask_vl (s : State) (r : Reg) (x : MaskWord) : (s.setMask r x).vl = s.vl := rfl
@[simp] theorem State.setMask_stride (s : State) (r : Reg) (x : MaskWord) : (s.setMask r x).stride = s.stride := rfl
@[simp] theorem State.setMask_xs1 (s : State) (r : Reg) (x : MaskWord) : (s.setMask r x).xs1 = s.xs1 := rfl
@[simp] theorem State.setMask_xs2 (s : State) (r : Reg) (x : MaskWord) : (s.setMask r x).xs2 = s.xs2 := rfl
@[simp] theorem State.setMask_resp (s : State) (r : Reg) (x : MaskWord) : (s.setMask r x).resp = s.resp := rfl
@[simp] theorem State.setMask_waiting (s : State) (r : Reg) (x : MaskWord) : (s.setMask r x).waiting = s.waiting := rfl
@[simp] theorem State.setMask_rst (s : State) (r : Reg) (x : MaskWord) : (s.setMask r x).rst = s.rst := rfl
@[simp] theorem State.setMask_actKind (s : State) (r : Reg) (x : MaskWord) : (s.setMask r x).actKind = s.actKind := rfl
@[simp] theorem State.setMask_actX (s : State) (r : Reg) (x : MaskWord) : (s.setMask r x).actX = s.actX := rfl
@[simp] theorem State.setMask_actS (s : State) (r : Reg) (x : MaskWord) : (s.setMask r x).actS = s.actS := rfl
@[simp] theorem State.setMask_bridgeReady (s : State) (r : Reg) (x : MaskWord) : (s.setMask r x).bridgeReady = s.bridgeReady := rfl
@[simp] theorem State.setMask_counts (s : State) (r : Reg) (x : MaskWord) : (s.setMask r x).counts = s.counts := rfl
@[simp] theorem State.setMask_harnessLog (s : State) (r : Reg) (x : MaskWord) : (s.setMask r x).harnessLog = s.harnessLog := rfl
@[simp] theorem State.setMask_hostTrap (s : State) (r : Reg) (x : MaskWord) : (s.setMask r x).hostTrap = s.hostTrap := rfl
@[simp] theorem State.setMask_lut (s : State) (r : Reg) (x : MaskWord) : (s.setMask r x).lut = s.lut := rfl
@[simp] theorem State.setMask_overflow (s : State) (r : Reg) (x : MaskWord) : (s.setMask r x).overflow = s.overflow := rfl
@[simp] theorem State.setMask_divFn (s : State) (r : Reg) (x : MaskWord) : (s.setMask r x).divFn = s.divFn := rfl
@[simp] theorem State.setMask_faultMap (s : State) (r : Reg) (x : MaskWord) : (s.setMask r x).faultMap = s.faultMap := rfl
@[simp] theorem State.setMask_outside (s : State) (r : Reg) (x : MaskWord) : (s.setMask r x).outside = s.outside := rfl
@[simp] theorem State.setMask_inbox (s : State) (r : Reg) (x : MaskWord) : (s.setMask r x).inbox = s.inbox := rfl
@[simp] theorem State.setMask_reg (s : State) (r : Reg) (x : MaskWord) (q : Reg) : (s.setMask r x).reg q = s.reg q := rfl
@[simp] theorem State.setMask_lane (s : State) (r : Reg) (x : MaskWord) (q : Reg) (j : Fin 32) : (s.setMask r x).lane q j = s.lane q j := rfl
@[simp] theorem State.setMask_cell (s : State) (r : Reg) (x : MaskWord) (row col : Fin 32) : (s.setMask r x).cell row col = s.cell row col := rfl
@[simp] theorem State.setMask_active (s : State) (r : Reg) (x : MaskWord) : (s.setMask r x).active = s.active := rfl

/-! setVL -/

@[simp] theorem State.setVL_v (s : State) (n : Nat) : (s.setVL n).v = s.v := rfl
@[simp] theorem State.setVL_mask (s : State) (n : Nat) : (s.setVL n).mask = s.mask := rfl
@[simp] theorem State.setVL_m (s : State) (n : Nat) : (s.setVL n).m = s.m := rfl
@[simp] theorem State.setVL_vl (s : State) (n : Nat) : (s.setVL n).vl = n := rfl
@[simp] theorem State.setVL_stride (s : State) (n : Nat) : (s.setVL n).stride = s.stride := rfl
@[simp] theorem State.setVL_xs1 (s : State) (n : Nat) : (s.setVL n).xs1 = s.xs1 := rfl
@[simp] theorem State.setVL_xs2 (s : State) (n : Nat) : (s.setVL n).xs2 = s.xs2 := rfl
@[simp] theorem State.setVL_resp (s : State) (n : Nat) : (s.setVL n).resp = s.resp := rfl
@[simp] theorem State.setVL_waiting (s : State) (n : Nat) : (s.setVL n).waiting = s.waiting := rfl
@[simp] theorem State.setVL_rst (s : State) (n : Nat) : (s.setVL n).rst = s.rst := rfl
@[simp] theorem State.setVL_actKind (s : State) (n : Nat) : (s.setVL n).actKind = s.actKind := rfl
@[simp] theorem State.setVL_actX (s : State) (n : Nat) : (s.setVL n).actX = s.actX := rfl
@[simp] theorem State.setVL_actS (s : State) (n : Nat) : (s.setVL n).actS = s.actS := rfl
@[simp] theorem State.setVL_bridgeReady (s : State) (n : Nat) : (s.setVL n).bridgeReady = s.bridgeReady := rfl
@[simp] theorem State.setVL_counts (s : State) (n : Nat) : (s.setVL n).counts = s.counts := rfl
@[simp] theorem State.setVL_harnessLog (s : State) (n : Nat) : (s.setVL n).harnessLog = s.harnessLog := rfl
@[simp] theorem State.setVL_hostTrap (s : State) (n : Nat) : (s.setVL n).hostTrap = s.hostTrap := rfl
@[simp] theorem State.setVL_lut (s : State) (n : Nat) : (s.setVL n).lut = s.lut := rfl
@[simp] theorem State.setVL_overflow (s : State) (n : Nat) : (s.setVL n).overflow = s.overflow := rfl
@[simp] theorem State.setVL_divFn (s : State) (n : Nat) : (s.setVL n).divFn = s.divFn := rfl
@[simp] theorem State.setVL_faultMap (s : State) (n : Nat) : (s.setVL n).faultMap = s.faultMap := rfl
@[simp] theorem State.setVL_outside (s : State) (n : Nat) : (s.setVL n).outside = s.outside := rfl
@[simp] theorem State.setVL_inbox (s : State) (n : Nat) : (s.setVL n).inbox = s.inbox := rfl
@[simp] theorem State.setVL_reg (s : State) (n : Nat) (q : Reg) : (s.setVL n).reg q = s.reg q := rfl
@[simp] theorem State.setVL_lane (s : State) (n : Nat) (q : Reg) (j : Fin 32) : (s.setVL n).lane q j = s.lane q j := rfl
@[simp] theorem State.setVL_maskOf (s : State) (n : Nat) (q : Reg) : (s.setVL n).maskOf q = s.maskOf q := rfl
@[simp] theorem State.setVL_enabled (s : State) (n : Nat) (q : Reg) (j : Fin 32) : (s.setVL n).enabled q j = s.enabled q j := rfl
@[simp] theorem State.setVL_masked (s : State) (n : Nat) (q : Reg) (j : Fin 32) : (s.setVL n).masked q j = s.masked q j := rfl
@[simp] theorem State.setVL_cell (s : State) (n : Nat) (row col : Fin 32) : (s.setVL n).cell row col = s.cell row col := rfl

/-! setMatrix -/

@[simp] theorem State.setMatrix_v (s : State) (x : Matrix) : (s.setMatrix x).v = s.v := rfl
@[simp] theorem State.setMatrix_mask (s : State) (x : Matrix) : (s.setMatrix x).mask = s.mask := rfl
@[simp] theorem State.setMatrix_stride (s : State) (x : Matrix) : (s.setMatrix x).stride = s.stride := rfl
@[simp] theorem State.setMatrix_xs1 (s : State) (x : Matrix) : (s.setMatrix x).xs1 = s.xs1 := rfl
@[simp] theorem State.setMatrix_xs2 (s : State) (x : Matrix) : (s.setMatrix x).xs2 = s.xs2 := rfl
@[simp] theorem State.setMatrix_resp (s : State) (x : Matrix) : (s.setMatrix x).resp = s.resp := rfl
@[simp] theorem State.setMatrix_waiting (s : State) (x : Matrix) : (s.setMatrix x).waiting = s.waiting := rfl
@[simp] theorem State.setMatrix_rst (s : State) (x : Matrix) : (s.setMatrix x).rst = s.rst := rfl
@[simp] theorem State.setMatrix_actKind (s : State) (x : Matrix) : (s.setMatrix x).actKind = s.actKind := rfl
@[simp] theorem State.setMatrix_actX (s : State) (x : Matrix) : (s.setMatrix x).actX = s.actX := rfl
@[simp] theorem State.setMatrix_actS (s : State) (x : Matrix) : (s.setMatrix x).actS = s.actS := rfl
@[simp] theorem State.setMatrix_bridgeReady (s : State) (x : Matrix) : (s.setMatrix x).bridgeReady = s.bridgeReady := rfl
@[simp] theorem State.setMatrix_counts (s : State) (x : Matrix) : (s.setMatrix x).counts = s.counts := rfl
@[simp] theorem State.setMatrix_harnessLog (s : State) (x : Matrix) : (s.setMatrix x).harnessLog = s.harnessLog := rfl
@[simp] theorem State.setMatrix_hostTrap (s : State) (x : Matrix) : (s.setMatrix x).hostTrap = s.hostTrap := rfl
@[simp] theorem State.setMatrix_lut (s : State) (x : Matrix) : (s.setMatrix x).lut = s.lut := rfl
@[simp] theorem State.setMatrix_overflow (s : State) (x : Matrix) : (s.setMatrix x).overflow = s.overflow := rfl
@[simp] theorem State.setMatrix_divFn (s : State) (x : Matrix) : (s.setMatrix x).divFn = s.divFn := rfl
@[simp] theorem State.setMatrix_faultMap (s : State) (x : Matrix) : (s.setMatrix x).faultMap = s.faultMap := rfl
@[simp] theorem State.setMatrix_outside (s : State) (x : Matrix) : (s.setMatrix x).outside = s.outside := rfl
@[simp] theorem State.setMatrix_inbox (s : State) (x : Matrix) : (s.setMatrix x).inbox = s.inbox := rfl
@[simp] theorem State.setMatrix_reg (s : State) (x : Matrix) (q : Reg) : (s.setMatrix x).reg q = s.reg q := rfl
@[simp] theorem State.setMatrix_lane (s : State) (x : Matrix) (q : Reg) (j : Fin 32) : (s.setMatrix x).lane q j = s.lane q j := rfl
@[simp] theorem State.setMatrix_maskOf (s : State) (x : Matrix) (q : Reg) : (s.setMatrix x).maskOf q = s.maskOf q := rfl
@[simp] theorem State.setMatrix_enabled (s : State) (x : Matrix) (q : Reg) (j : Fin 32) : (s.setMatrix x).enabled q j = s.enabled q j := rfl
@[simp] theorem State.setMatrix_masked (s : State) (x : Matrix) (q : Reg) (j : Fin 32) : (s.setMatrix x).masked q j = s.masked q j := rfl
@[simp] theorem State.setMatrix_vl (s : State) (x : Matrix) : (s.setMatrix x).vl = s.vl := rfl
@[simp] theorem State.setMatrix_m (s : State) (x : Matrix) : (s.setMatrix x).m = x := rfl
@[simp] theorem State.setMatrix_active (s : State) (x : Matrix) : (s.setMatrix x).active = s.active := rfl

/-! withOutside -/

@[simp] theorem State.withOutside_v (s : State) (o : Outside) : (s.withOutside o).v = s.v := rfl
@[simp] theorem State.withOutside_mask (s : State) (o : Outside) : (s.withOutside o).mask = s.mask := rfl
@[simp] theorem State.withOutside_m (s : State) (o : Outside) : (s.withOutside o).m = s.m := rfl
@[simp] theorem State.withOutside_vl (s : State) (o : Outside) : (s.withOutside o).vl = s.vl := rfl
@[simp] theorem State.withOutside_stride (s : State) (o : Outside) : (s.withOutside o).stride = s.stride := rfl
@[simp] theorem State.withOutside_xs1 (s : State) (o : Outside) : (s.withOutside o).xs1 = s.xs1 := rfl
@[simp] theorem State.withOutside_xs2 (s : State) (o : Outside) : (s.withOutside o).xs2 = s.xs2 := rfl
@[simp] theorem State.withOutside_resp (s : State) (o : Outside) : (s.withOutside o).resp = s.resp := rfl
@[simp] theorem State.withOutside_waiting (s : State) (o : Outside) : (s.withOutside o).waiting = s.waiting := rfl
@[simp] theorem State.withOutside_rst (s : State) (o : Outside) : (s.withOutside o).rst = s.rst := rfl
@[simp] theorem State.withOutside_actKind (s : State) (o : Outside) : (s.withOutside o).actKind = s.actKind := rfl
@[simp] theorem State.withOutside_actX (s : State) (o : Outside) : (s.withOutside o).actX = s.actX := rfl
@[simp] theorem State.withOutside_actS (s : State) (o : Outside) : (s.withOutside o).actS = s.actS := rfl
@[simp] theorem State.withOutside_bridgeReady (s : State) (o : Outside) : (s.withOutside o).bridgeReady = s.bridgeReady := rfl
@[simp] theorem State.withOutside_counts (s : State) (o : Outside) : (s.withOutside o).counts = s.counts := rfl
@[simp] theorem State.withOutside_harnessLog (s : State) (o : Outside) : (s.withOutside o).harnessLog = s.harnessLog := rfl
@[simp] theorem State.withOutside_hostTrap (s : State) (o : Outside) : (s.withOutside o).hostTrap = s.hostTrap := rfl
@[simp] theorem State.withOutside_lut (s : State) (o : Outside) : (s.withOutside o).lut = s.lut := rfl
@[simp] theorem State.withOutside_overflow (s : State) (o : Outside) : (s.withOutside o).overflow = s.overflow := rfl
@[simp] theorem State.withOutside_divFn (s : State) (o : Outside) : (s.withOutside o).divFn = s.divFn := rfl
@[simp] theorem State.withOutside_faultMap (s : State) (o : Outside) : (s.withOutside o).faultMap = s.faultMap := rfl
@[simp] theorem State.withOutside_outside (s : State) (o : Outside) : (s.withOutside o).outside = o := rfl
@[simp] theorem State.withOutside_inbox (s : State) (o : Outside) : (s.withOutside o).inbox = s.inbox := rfl
@[simp] theorem State.withOutside_reg (s : State) (o : Outside) (q : Reg) : (s.withOutside o).reg q = s.reg q := rfl
@[simp] theorem State.withOutside_lane (s : State) (o : Outside) (q : Reg) (j : Fin 32) : (s.withOutside o).lane q j = s.lane q j := rfl
@[simp] theorem State.withOutside_maskOf (s : State) (o : Outside) (q : Reg) : (s.withOutside o).maskOf q = s.maskOf q := rfl
@[simp] theorem State.withOutside_enabled (s : State) (o : Outside) (q : Reg) (j : Fin 32) : (s.withOutside o).enabled q j = s.enabled q j := rfl
@[simp] theorem State.withOutside_masked (s : State) (o : Outside) (q : Reg) (j : Fin 32) : (s.withOutside o).masked q j = s.masked q j := rfl
@[simp] theorem State.withOutside_cell (s : State) (o : Outside) (row col : Fin 32) : (s.withOutside o).cell row col = s.cell row col := rfl
@[simp] theorem State.withOutside_active (s : State) (o : Outside) : (s.withOutside o).active = s.active := rfl

/-! fillMatrix -/

@[simp] theorem State.fillMatrix_v (s : State) (xs : List Lane) : (s.fillMatrix xs).v = s.v := by cases s; rfl
@[simp] theorem State.fillMatrix_mask (s : State) (xs : List Lane) : (s.fillMatrix xs).mask = s.mask := by cases s; rfl
@[simp] theorem State.fillMatrix_vl (s : State) (xs : List Lane) : (s.fillMatrix xs).vl = s.vl := by cases s; rfl
@[simp] theorem State.fillMatrix_stride (s : State) (xs : List Lane) : (s.fillMatrix xs).stride = s.stride := by cases s; rfl
@[simp] theorem State.fillMatrix_xs1 (s : State) (xs : List Lane) : (s.fillMatrix xs).xs1 = s.xs1 := by cases s; rfl
@[simp] theorem State.fillMatrix_xs2 (s : State) (xs : List Lane) : (s.fillMatrix xs).xs2 = s.xs2 := by cases s; rfl
@[simp] theorem State.fillMatrix_resp (s : State) (xs : List Lane) : (s.fillMatrix xs).resp = s.resp := by cases s; rfl
@[simp] theorem State.fillMatrix_waiting (s : State) (xs : List Lane) : (s.fillMatrix xs).waiting = s.waiting := by cases s; rfl
@[simp] theorem State.fillMatrix_rst (s : State) (xs : List Lane) : (s.fillMatrix xs).rst = s.rst := by cases s; rfl
@[simp] theorem State.fillMatrix_actKind (s : State) (xs : List Lane) : (s.fillMatrix xs).actKind = s.actKind := by cases s; rfl
@[simp] theorem State.fillMatrix_actX (s : State) (xs : List Lane) : (s.fillMatrix xs).actX = s.actX := by cases s; rfl
@[simp] theorem State.fillMatrix_actS (s : State) (xs : List Lane) : (s.fillMatrix xs).actS = s.actS := by cases s; rfl
@[simp] theorem State.fillMatrix_bridgeReady (s : State) (xs : List Lane) : (s.fillMatrix xs).bridgeReady = s.bridgeReady := by cases s; rfl
@[simp] theorem State.fillMatrix_counts (s : State) (xs : List Lane) : (s.fillMatrix xs).counts = s.counts := by cases s; rfl
@[simp] theorem State.fillMatrix_harnessLog (s : State) (xs : List Lane) : (s.fillMatrix xs).harnessLog = s.harnessLog := by cases s; rfl
@[simp] theorem State.fillMatrix_hostTrap (s : State) (xs : List Lane) : (s.fillMatrix xs).hostTrap = s.hostTrap := by cases s; rfl
@[simp] theorem State.fillMatrix_lut (s : State) (xs : List Lane) : (s.fillMatrix xs).lut = s.lut := by cases s; rfl
@[simp] theorem State.fillMatrix_overflow (s : State) (xs : List Lane) : (s.fillMatrix xs).overflow = s.overflow := by cases s; rfl
@[simp] theorem State.fillMatrix_divFn (s : State) (xs : List Lane) : (s.fillMatrix xs).divFn = s.divFn := by cases s; rfl
@[simp] theorem State.fillMatrix_faultMap (s : State) (xs : List Lane) : (s.fillMatrix xs).faultMap = s.faultMap := by cases s; rfl
@[simp] theorem State.fillMatrix_outside (s : State) (xs : List Lane) : (s.fillMatrix xs).outside = s.outside := by cases s; rfl
@[simp] theorem State.fillMatrix_inbox (s : State) (xs : List Lane) : (s.fillMatrix xs).inbox = s.inbox := by cases s; rfl
@[simp] theorem State.fillMatrix_reg (s : State) (xs : List Lane) (q : Reg) : (s.fillMatrix xs).reg q = s.reg q := by
  simp only [State.reg, State.fillMatrix_v]
@[simp] theorem State.fillMatrix_lane (s : State) (xs : List Lane) (q : Reg) (j : Fin 32) : (s.fillMatrix xs).lane q j = s.lane q j := by
  simp only [State.lane, State.reg, State.fillMatrix_v]
@[simp] theorem State.fillMatrix_maskOf (s : State) (xs : List Lane) (q : Reg) : (s.fillMatrix xs).maskOf q = s.maskOf q := by
  simp only [State.maskOf, State.fillMatrix_mask]
@[simp] theorem State.fillMatrix_enabled (s : State) (xs : List Lane) (q : Reg) (j : Fin 32) : (s.fillMatrix xs).enabled q j = s.enabled q j := by
  simp only [State.enabled, State.maskOf, State.fillMatrix_mask]
@[simp] theorem State.fillMatrix_masked (s : State) (xs : List Lane) (q : Reg) (j : Fin 32) : (s.fillMatrix xs).masked q j = s.masked q j := by
  simp [State.masked]
@[simp] theorem State.fillMatrix_active (s : State) (xs : List Lane) : (s.fillMatrix xs).active = s.active := by
  simp only [State.active, State.fillMatrix_vl]

/-! scrambleReg -/

@[simp] theorem State.scrambleReg_mask (s : State) (rd : Reg) : (s.scrambleReg rd).mask = s.mask := by cases s; rfl
@[simp] theorem State.scrambleReg_m (s : State) (rd : Reg) : (s.scrambleReg rd).m = s.m := by cases s; rfl
@[simp] theorem State.scrambleReg_vl (s : State) (rd : Reg) : (s.scrambleReg rd).vl = s.vl := by cases s; rfl
@[simp] theorem State.scrambleReg_stride (s : State) (rd : Reg) : (s.scrambleReg rd).stride = s.stride := by cases s; rfl
@[simp] theorem State.scrambleReg_xs1 (s : State) (rd : Reg) : (s.scrambleReg rd).xs1 = s.xs1 := by cases s; rfl
@[simp] theorem State.scrambleReg_xs2 (s : State) (rd : Reg) : (s.scrambleReg rd).xs2 = s.xs2 := by cases s; rfl
@[simp] theorem State.scrambleReg_resp (s : State) (rd : Reg) : (s.scrambleReg rd).resp = s.resp := by cases s; rfl
@[simp] theorem State.scrambleReg_waiting (s : State) (rd : Reg) : (s.scrambleReg rd).waiting = s.waiting := by cases s; rfl
@[simp] theorem State.scrambleReg_rst (s : State) (rd : Reg) : (s.scrambleReg rd).rst = s.rst := by cases s; rfl
@[simp] theorem State.scrambleReg_actKind (s : State) (rd : Reg) : (s.scrambleReg rd).actKind = s.actKind := by cases s; rfl
@[simp] theorem State.scrambleReg_actX (s : State) (rd : Reg) : (s.scrambleReg rd).actX = s.actX := by cases s; rfl
@[simp] theorem State.scrambleReg_actS (s : State) (rd : Reg) : (s.scrambleReg rd).actS = s.actS := by cases s; rfl
@[simp] theorem State.scrambleReg_bridgeReady (s : State) (rd : Reg) : (s.scrambleReg rd).bridgeReady = s.bridgeReady := by cases s; rfl
@[simp] theorem State.scrambleReg_counts (s : State) (rd : Reg) : (s.scrambleReg rd).counts = s.counts := by cases s; rfl
@[simp] theorem State.scrambleReg_harnessLog (s : State) (rd : Reg) : (s.scrambleReg rd).harnessLog = s.harnessLog := by cases s; rfl
@[simp] theorem State.scrambleReg_hostTrap (s : State) (rd : Reg) : (s.scrambleReg rd).hostTrap = s.hostTrap := by cases s; rfl
@[simp] theorem State.scrambleReg_lut (s : State) (rd : Reg) : (s.scrambleReg rd).lut = s.lut := by cases s; rfl
@[simp] theorem State.scrambleReg_overflow (s : State) (rd : Reg) : (s.scrambleReg rd).overflow = s.overflow := by cases s; rfl
@[simp] theorem State.scrambleReg_divFn (s : State) (rd : Reg) : (s.scrambleReg rd).divFn = s.divFn := by cases s; rfl
@[simp] theorem State.scrambleReg_faultMap (s : State) (rd : Reg) : (s.scrambleReg rd).faultMap = s.faultMap := by cases s; rfl
@[simp] theorem State.scrambleReg_inbox (s : State) (rd : Reg) : (s.scrambleReg rd).inbox = s.inbox := by cases s; rfl
@[simp] theorem State.scrambleReg_outside (s : State) (rd : Reg) : (s.scrambleReg rd).outside = s.outside.useFree 32 := rfl
@[simp] theorem State.scrambleReg_maskOf (s : State) (rd : Reg) (q : Reg) : (s.scrambleReg rd).maskOf q = s.maskOf q := by
  simp only [State.maskOf, State.scrambleReg_mask]
@[simp] theorem State.scrambleReg_enabled (s : State) (rd : Reg) (q : Reg) (j : Fin 32) : (s.scrambleReg rd).enabled q j = s.enabled q j := by
  simp only [State.enabled, State.maskOf, State.scrambleReg_mask]
@[simp] theorem State.scrambleReg_cell (s : State) (rd : Reg) (row col : Fin 32) : (s.scrambleReg rd).cell row col = s.cell row col := by
  simp only [State.cell, State.scrambleReg_m]
@[simp] theorem State.scrambleReg_active (s : State) (rd : Reg) : (s.scrambleReg rd).active = s.active := by
  simp only [State.active, State.scrambleReg_vl]

/-! scrambleMatrix -/

@[simp] theorem State.scrambleMatrix_v (s : State) : (s.scrambleMatrix).v = s.v := by cases s; rfl
@[simp] theorem State.scrambleMatrix_mask (s : State) : (s.scrambleMatrix).mask = s.mask := by cases s; rfl
@[simp] theorem State.scrambleMatrix_vl (s : State) : (s.scrambleMatrix).vl = s.vl := by cases s; rfl
@[simp] theorem State.scrambleMatrix_stride (s : State) : (s.scrambleMatrix).stride = s.stride := by cases s; rfl
@[simp] theorem State.scrambleMatrix_xs1 (s : State) : (s.scrambleMatrix).xs1 = s.xs1 := by cases s; rfl
@[simp] theorem State.scrambleMatrix_xs2 (s : State) : (s.scrambleMatrix).xs2 = s.xs2 := by cases s; rfl
@[simp] theorem State.scrambleMatrix_resp (s : State) : (s.scrambleMatrix).resp = s.resp := by cases s; rfl
@[simp] theorem State.scrambleMatrix_waiting (s : State) : (s.scrambleMatrix).waiting = s.waiting := by cases s; rfl
@[simp] theorem State.scrambleMatrix_rst (s : State) : (s.scrambleMatrix).rst = s.rst := by cases s; rfl
@[simp] theorem State.scrambleMatrix_actKind (s : State) : (s.scrambleMatrix).actKind = s.actKind := by cases s; rfl
@[simp] theorem State.scrambleMatrix_actX (s : State) : (s.scrambleMatrix).actX = s.actX := by cases s; rfl
@[simp] theorem State.scrambleMatrix_actS (s : State) : (s.scrambleMatrix).actS = s.actS := by cases s; rfl
@[simp] theorem State.scrambleMatrix_bridgeReady (s : State) : (s.scrambleMatrix).bridgeReady = s.bridgeReady := by cases s; rfl
@[simp] theorem State.scrambleMatrix_counts (s : State) : (s.scrambleMatrix).counts = s.counts := by cases s; rfl
@[simp] theorem State.scrambleMatrix_harnessLog (s : State) : (s.scrambleMatrix).harnessLog = s.harnessLog := by cases s; rfl
@[simp] theorem State.scrambleMatrix_hostTrap (s : State) : (s.scrambleMatrix).hostTrap = s.hostTrap := by cases s; rfl
@[simp] theorem State.scrambleMatrix_lut (s : State) : (s.scrambleMatrix).lut = s.lut := by cases s; rfl
@[simp] theorem State.scrambleMatrix_overflow (s : State) : (s.scrambleMatrix).overflow = s.overflow := by cases s; rfl
@[simp] theorem State.scrambleMatrix_divFn (s : State) : (s.scrambleMatrix).divFn = s.divFn := by cases s; rfl
@[simp] theorem State.scrambleMatrix_faultMap (s : State) : (s.scrambleMatrix).faultMap = s.faultMap := by cases s; rfl
@[simp] theorem State.scrambleMatrix_inbox (s : State) : (s.scrambleMatrix).inbox = s.inbox := by cases s; rfl
@[simp] theorem State.scrambleMatrix_outside (s : State) : (s.scrambleMatrix).outside = s.outside.useFree 1024 := rfl
@[simp] theorem State.scrambleMatrix_reg (s : State) (q : Reg) : (s.scrambleMatrix).reg q = s.reg q := by
  simp only [State.reg, State.scrambleMatrix_v]
@[simp] theorem State.scrambleMatrix_lane (s : State) (q : Reg) (j : Fin 32) : (s.scrambleMatrix).lane q j = s.lane q j := by
  simp only [State.lane, State.reg, State.scrambleMatrix_v]
@[simp] theorem State.scrambleMatrix_maskOf (s : State) (q : Reg) : (s.scrambleMatrix).maskOf q = s.maskOf q := by
  simp only [State.maskOf, State.scrambleMatrix_mask]
@[simp] theorem State.scrambleMatrix_enabled (s : State) (q : Reg) (j : Fin 32) : (s.scrambleMatrix).enabled q j = s.enabled q j := by
  simp only [State.enabled, State.maskOf, State.scrambleMatrix_mask]
@[simp] theorem State.scrambleMatrix_masked (s : State) (q : Reg) (j : Fin 32) : (s.scrambleMatrix).masked q j = s.masked q j := by
  simp [State.masked]
@[simp] theorem State.scrambleMatrix_active (s : State) : (s.scrambleMatrix).active = s.active := by
  simp only [State.active, State.scrambleMatrix_vl]

/-! complete -/

@[simp] theorem State.complete_v (s : State) (r : Word64) : (s.complete r).v = s.v := rfl
@[simp] theorem State.complete_mask (s : State) (r : Word64) : (s.complete r).mask = s.mask := rfl
@[simp] theorem State.complete_m (s : State) (r : Word64) : (s.complete r).m = s.m := rfl
@[simp] theorem State.complete_vl (s : State) (r : Word64) : (s.complete r).vl = s.vl := rfl
@[simp] theorem State.complete_stride (s : State) (r : Word64) : (s.complete r).stride = s.stride := rfl
@[simp] theorem State.complete_xs1 (s : State) (r : Word64) : (s.complete r).xs1 = s.xs1 := rfl
@[simp] theorem State.complete_xs2 (s : State) (r : Word64) : (s.complete r).xs2 = s.xs2 := rfl
@[simp] theorem State.complete_resp (s : State) (r : Word64) : (s.complete r).resp = Response.completed r := rfl
@[simp] theorem State.complete_waiting (s : State) (r : Word64) : (s.complete r).waiting = s.waiting := rfl
@[simp] theorem State.complete_rst (s : State) (r : Word64) : (s.complete r).rst = s.rst := rfl
@[simp] theorem State.complete_actKind (s : State) (r : Word64) : (s.complete r).actKind = s.actKind := rfl
@[simp] theorem State.complete_actX (s : State) (r : Word64) : (s.complete r).actX = s.actX := rfl
@[simp] theorem State.complete_actS (s : State) (r : Word64) : (s.complete r).actS = s.actS := rfl
@[simp] theorem State.complete_bridgeReady (s : State) (r : Word64) : (s.complete r).bridgeReady = s.bridgeReady := rfl
@[simp] theorem State.complete_counts (s : State) (r : Word64) : (s.complete r).counts = s.counts := rfl
@[simp] theorem State.complete_harnessLog (s : State) (r : Word64) : (s.complete r).harnessLog = s.harnessLog := rfl
@[simp] theorem State.complete_hostTrap (s : State) (r : Word64) : (s.complete r).hostTrap = none := rfl
@[simp] theorem State.complete_lut (s : State) (r : Word64) : (s.complete r).lut = s.lut := rfl
@[simp] theorem State.complete_overflow (s : State) (r : Word64) : (s.complete r).overflow = s.overflow := rfl
@[simp] theorem State.complete_divFn (s : State) (r : Word64) : (s.complete r).divFn = s.divFn := rfl
@[simp] theorem State.complete_faultMap (s : State) (r : Word64) : (s.complete r).faultMap = s.faultMap := rfl
@[simp] theorem State.complete_outside (s : State) (r : Word64) : (s.complete r).outside = s.outside := rfl
@[simp] theorem State.complete_inbox (s : State) (r : Word64) : (s.complete r).inbox = s.inbox := rfl
@[simp] theorem State.complete_reg (s : State) (r : Word64) (q : Reg) : (s.complete r).reg q = s.reg q := rfl
@[simp] theorem State.complete_lane (s : State) (r : Word64) (q : Reg) (j : Fin 32) : (s.complete r).lane q j = s.lane q j := rfl
@[simp] theorem State.complete_maskOf (s : State) (r : Word64) (q : Reg) : (s.complete r).maskOf q = s.maskOf q := rfl
@[simp] theorem State.complete_enabled (s : State) (r : Word64) (q : Reg) (j : Fin 32) : (s.complete r).enabled q j = s.enabled q j := rfl
@[simp] theorem State.complete_masked (s : State) (r : Word64) (q : Reg) (j : Fin 32) : (s.complete r).masked q j = s.masked q j := rfl
@[simp] theorem State.complete_cell (s : State) (r : Word64) (row col : Fin 32) : (s.complete r).cell row col = s.cell row col := rfl
@[simp] theorem State.complete_active (s : State) (r : Word64) : (s.complete r).active = s.active := rfl

/-! raise -/

@[simp] theorem State.raise_v (s : State) (c : FaultCause) : (s.raise c).v = s.v := rfl
@[simp] theorem State.raise_mask (s : State) (c : FaultCause) : (s.raise c).mask = s.mask := rfl
@[simp] theorem State.raise_m (s : State) (c : FaultCause) : (s.raise c).m = s.m := rfl
@[simp] theorem State.raise_vl (s : State) (c : FaultCause) : (s.raise c).vl = s.vl := rfl
@[simp] theorem State.raise_stride (s : State) (c : FaultCause) : (s.raise c).stride = s.stride := rfl
@[simp] theorem State.raise_xs1 (s : State) (c : FaultCause) : (s.raise c).xs1 = s.xs1 := rfl
@[simp] theorem State.raise_xs2 (s : State) (c : FaultCause) : (s.raise c).xs2 = s.xs2 := rfl
@[simp] theorem State.raise_resp (s : State) (c : FaultCause) : (s.raise c).resp = Response.faulted c := rfl
@[simp] theorem State.raise_waiting (s : State) (c : FaultCause) : (s.raise c).waiting = s.waiting := rfl
@[simp] theorem State.raise_rst (s : State) (c : FaultCause) : (s.raise c).rst = s.rst := rfl
@[simp] theorem State.raise_actKind (s : State) (c : FaultCause) : (s.raise c).actKind = s.actKind := rfl
@[simp] theorem State.raise_actX (s : State) (c : FaultCause) : (s.raise c).actX = s.actX := rfl
@[simp] theorem State.raise_actS (s : State) (c : FaultCause) : (s.raise c).actS = s.actS := rfl
@[simp] theorem State.raise_bridgeReady (s : State) (c : FaultCause) : (s.raise c).bridgeReady = s.bridgeReady := rfl
@[simp] theorem State.raise_counts (s : State) (c : FaultCause) : (s.raise c).counts = s.counts := rfl
@[simp] theorem State.raise_harnessLog (s : State) (c : FaultCause) : (s.raise c).harnessLog = s.harnessLog := rfl
@[simp] theorem State.raise_hostTrap (s : State) (c : FaultCause) : (s.raise c).hostTrap = some (s.faultMap.trapFor c) := rfl
@[simp] theorem State.raise_lut (s : State) (c : FaultCause) : (s.raise c).lut = s.lut := rfl
@[simp] theorem State.raise_overflow (s : State) (c : FaultCause) : (s.raise c).overflow = s.overflow := rfl
@[simp] theorem State.raise_divFn (s : State) (c : FaultCause) : (s.raise c).divFn = s.divFn := rfl
@[simp] theorem State.raise_faultMap (s : State) (c : FaultCause) : (s.raise c).faultMap = s.faultMap := rfl
@[simp] theorem State.raise_outside (s : State) (c : FaultCause) : (s.raise c).outside = s.outside := rfl
@[simp] theorem State.raise_inbox (s : State) (c : FaultCause) : (s.raise c).inbox = s.inbox := rfl
@[simp] theorem State.raise_reg (s : State) (c : FaultCause) (q : Reg) : (s.raise c).reg q = s.reg q := rfl
@[simp] theorem State.raise_lane (s : State) (c : FaultCause) (q : Reg) (j : Fin 32) : (s.raise c).lane q j = s.lane q j := rfl
@[simp] theorem State.raise_maskOf (s : State) (c : FaultCause) (q : Reg) : (s.raise c).maskOf q = s.maskOf q := rfl
@[simp] theorem State.raise_enabled (s : State) (c : FaultCause) (q : Reg) (j : Fin 32) : (s.raise c).enabled q j = s.enabled q j := rfl
@[simp] theorem State.raise_masked (s : State) (c : FaultCause) (q : Reg) (j : Fin 32) : (s.raise c).masked q j = s.masked q j := rfl
@[simp] theorem State.raise_cell (s : State) (c : FaultCause) (row col : Fin 32) : (s.raise c).cell row col = s.cell row col := rfl
@[simp] theorem State.raise_active (s : State) (c : FaultCause) : (s.raise c).active = s.active := rfl

/-! reportUnrecognized -/

@[simp] theorem State.reportUnrecognized_v (s : State) : (s.reportUnrecognized).v = s.v := rfl
@[simp] theorem State.reportUnrecognized_mask (s : State) : (s.reportUnrecognized).mask = s.mask := rfl
@[simp] theorem State.reportUnrecognized_m (s : State) : (s.reportUnrecognized).m = s.m := rfl
@[simp] theorem State.reportUnrecognized_vl (s : State) : (s.reportUnrecognized).vl = s.vl := rfl
@[simp] theorem State.reportUnrecognized_stride (s : State) : (s.reportUnrecognized).stride = s.stride := rfl
@[simp] theorem State.reportUnrecognized_xs1 (s : State) : (s.reportUnrecognized).xs1 = s.xs1 := rfl
@[simp] theorem State.reportUnrecognized_xs2 (s : State) : (s.reportUnrecognized).xs2 = s.xs2 := rfl
@[simp] theorem State.reportUnrecognized_resp (s : State) : (s.reportUnrecognized).resp = Response.unknown := rfl
@[simp] theorem State.reportUnrecognized_waiting (s : State) : (s.reportUnrecognized).waiting = s.waiting := rfl
@[simp] theorem State.reportUnrecognized_rst (s : State) : (s.reportUnrecognized).rst = s.rst := rfl
@[simp] theorem State.reportUnrecognized_actKind (s : State) : (s.reportUnrecognized).actKind = s.actKind := rfl
@[simp] theorem State.reportUnrecognized_actX (s : State) : (s.reportUnrecognized).actX = s.actX := rfl
@[simp] theorem State.reportUnrecognized_actS (s : State) : (s.reportUnrecognized).actS = s.actS := rfl
@[simp] theorem State.reportUnrecognized_bridgeReady (s : State) : (s.reportUnrecognized).bridgeReady = s.bridgeReady := rfl
@[simp] theorem State.reportUnrecognized_counts (s : State) : (s.reportUnrecognized).counts = s.counts := rfl
@[simp] theorem State.reportUnrecognized_harnessLog (s : State) : (s.reportUnrecognized).harnessLog = .unrecognized :: s.harnessLog := rfl
@[simp] theorem State.reportUnrecognized_hostTrap (s : State) : (s.reportUnrecognized).hostTrap = none := rfl
@[simp] theorem State.reportUnrecognized_lut (s : State) : (s.reportUnrecognized).lut = s.lut := rfl
@[simp] theorem State.reportUnrecognized_overflow (s : State) : (s.reportUnrecognized).overflow = s.overflow := rfl
@[simp] theorem State.reportUnrecognized_divFn (s : State) : (s.reportUnrecognized).divFn = s.divFn := rfl
@[simp] theorem State.reportUnrecognized_faultMap (s : State) : (s.reportUnrecognized).faultMap = s.faultMap := rfl
@[simp] theorem State.reportUnrecognized_outside (s : State) : (s.reportUnrecognized).outside = s.outside := rfl
@[simp] theorem State.reportUnrecognized_inbox (s : State) : (s.reportUnrecognized).inbox = s.inbox := rfl
@[simp] theorem State.reportUnrecognized_reg (s : State) (q : Reg) : (s.reportUnrecognized).reg q = s.reg q := rfl
@[simp] theorem State.reportUnrecognized_lane (s : State) (q : Reg) (j : Fin 32) : (s.reportUnrecognized).lane q j = s.lane q j := rfl
@[simp] theorem State.reportUnrecognized_maskOf (s : State) (q : Reg) : (s.reportUnrecognized).maskOf q = s.maskOf q := rfl
@[simp] theorem State.reportUnrecognized_enabled (s : State) (q : Reg) (j : Fin 32) : (s.reportUnrecognized).enabled q j = s.enabled q j := rfl
@[simp] theorem State.reportUnrecognized_masked (s : State) (q : Reg) (j : Fin 32) : (s.reportUnrecognized).masked q j = s.masked q j := rfl
@[simp] theorem State.reportUnrecognized_cell (s : State) (row col : Fin 32) : (s.reportUnrecognized).cell row col = s.cell row col := rfl
@[simp] theorem State.reportUnrecognized_active (s : State) : (s.reportUnrecognized).active = s.active := rfl

/-! emitCounts -/

@[simp] theorem State.emitCounts_v (s : State) : (s.emitCounts).v = s.v := rfl
@[simp] theorem State.emitCounts_mask (s : State) : (s.emitCounts).mask = s.mask := rfl
@[simp] theorem State.emitCounts_m (s : State) : (s.emitCounts).m = s.m := rfl
@[simp] theorem State.emitCounts_vl (s : State) : (s.emitCounts).vl = s.vl := rfl
@[simp] theorem State.emitCounts_stride (s : State) : (s.emitCounts).stride = s.stride := rfl
@[simp] theorem State.emitCounts_xs1 (s : State) : (s.emitCounts).xs1 = s.xs1 := rfl
@[simp] theorem State.emitCounts_xs2 (s : State) : (s.emitCounts).xs2 = s.xs2 := rfl
@[simp] theorem State.emitCounts_resp (s : State) : (s.emitCounts).resp = s.resp := rfl
@[simp] theorem State.emitCounts_waiting (s : State) : (s.emitCounts).waiting = s.waiting := rfl
@[simp] theorem State.emitCounts_rst (s : State) : (s.emitCounts).rst = s.rst := rfl
@[simp] theorem State.emitCounts_actKind (s : State) : (s.emitCounts).actKind = s.actKind := rfl
@[simp] theorem State.emitCounts_actX (s : State) : (s.emitCounts).actX = s.actX := rfl
@[simp] theorem State.emitCounts_actS (s : State) : (s.emitCounts).actS = s.actS := rfl
@[simp] theorem State.emitCounts_bridgeReady (s : State) : (s.emitCounts).bridgeReady = s.bridgeReady := rfl
@[simp] theorem State.emitCounts_counts (s : State) : (s.emitCounts).counts = s.counts := rfl
@[simp] theorem State.emitCounts_harnessLog (s : State) : (s.emitCounts).harnessLog = .counts s.counts :: s.harnessLog := rfl
@[simp] theorem State.emitCounts_hostTrap (s : State) : (s.emitCounts).hostTrap = s.hostTrap := rfl
@[simp] theorem State.emitCounts_lut (s : State) : (s.emitCounts).lut = s.lut := rfl
@[simp] theorem State.emitCounts_overflow (s : State) : (s.emitCounts).overflow = s.overflow := rfl
@[simp] theorem State.emitCounts_divFn (s : State) : (s.emitCounts).divFn = s.divFn := rfl
@[simp] theorem State.emitCounts_faultMap (s : State) : (s.emitCounts).faultMap = s.faultMap := rfl
@[simp] theorem State.emitCounts_outside (s : State) : (s.emitCounts).outside = s.outside := rfl
@[simp] theorem State.emitCounts_inbox (s : State) : (s.emitCounts).inbox = s.inbox := rfl
@[simp] theorem State.emitCounts_reg (s : State) (q : Reg) : (s.emitCounts).reg q = s.reg q := rfl
@[simp] theorem State.emitCounts_lane (s : State) (q : Reg) (j : Fin 32) : (s.emitCounts).lane q j = s.lane q j := rfl
@[simp] theorem State.emitCounts_maskOf (s : State) (q : Reg) : (s.emitCounts).maskOf q = s.maskOf q := rfl
@[simp] theorem State.emitCounts_enabled (s : State) (q : Reg) (j : Fin 32) : (s.emitCounts).enabled q j = s.enabled q j := rfl
@[simp] theorem State.emitCounts_masked (s : State) (q : Reg) (j : Fin 32) : (s.emitCounts).masked q j = s.masked q j := rfl
@[simp] theorem State.emitCounts_cell (s : State) (row col : Fin 32) : (s.emitCounts).cell row col = s.cell row col := rfl
@[simp] theorem State.emitCounts_active (s : State) : (s.emitCounts).active = s.active := rfl

/-! stall -/

@[simp] theorem State.stall_v (s : State) (w : Waiting) : (s.stall w).v = s.v := rfl
@[simp] theorem State.stall_mask (s : State) (w : Waiting) : (s.stall w).mask = s.mask := rfl
@[simp] theorem State.stall_m (s : State) (w : Waiting) : (s.stall w).m = s.m := rfl
@[simp] theorem State.stall_vl (s : State) (w : Waiting) : (s.stall w).vl = s.vl := rfl
@[simp] theorem State.stall_stride (s : State) (w : Waiting) : (s.stall w).stride = s.stride := rfl
@[simp] theorem State.stall_xs1 (s : State) (w : Waiting) : (s.stall w).xs1 = s.xs1 := rfl
@[simp] theorem State.stall_xs2 (s : State) (w : Waiting) : (s.stall w).xs2 = s.xs2 := rfl
@[simp] theorem State.stall_resp (s : State) (w : Waiting) : (s.stall w).resp = Response.none := rfl
@[simp] theorem State.stall_waiting (s : State) (w : Waiting) : (s.stall w).waiting = some w := rfl
@[simp] theorem State.stall_rst (s : State) (w : Waiting) : (s.stall w).rst = s.rst := rfl
@[simp] theorem State.stall_actKind (s : State) (w : Waiting) : (s.stall w).actKind = s.actKind := rfl
@[simp] theorem State.stall_actX (s : State) (w : Waiting) : (s.stall w).actX = s.actX := rfl
@[simp] theorem State.stall_actS (s : State) (w : Waiting) : (s.stall w).actS = s.actS := rfl
@[simp] theorem State.stall_bridgeReady (s : State) (w : Waiting) : (s.stall w).bridgeReady = s.bridgeReady := rfl
@[simp] theorem State.stall_counts (s : State) (w : Waiting) : (s.stall w).counts = s.counts := rfl
@[simp] theorem State.stall_harnessLog (s : State) (w : Waiting) : (s.stall w).harnessLog = s.harnessLog := rfl
@[simp] theorem State.stall_hostTrap (s : State) (w : Waiting) : (s.stall w).hostTrap = none := rfl
@[simp] theorem State.stall_lut (s : State) (w : Waiting) : (s.stall w).lut = s.lut := rfl
@[simp] theorem State.stall_overflow (s : State) (w : Waiting) : (s.stall w).overflow = s.overflow := rfl
@[simp] theorem State.stall_divFn (s : State) (w : Waiting) : (s.stall w).divFn = s.divFn := rfl
@[simp] theorem State.stall_faultMap (s : State) (w : Waiting) : (s.stall w).faultMap = s.faultMap := rfl
@[simp] theorem State.stall_outside (s : State) (w : Waiting) : (s.stall w).outside = s.outside := rfl
@[simp] theorem State.stall_inbox (s : State) (w : Waiting) : (s.stall w).inbox = s.inbox := rfl
@[simp] theorem State.stall_reg (s : State) (w : Waiting) (q : Reg) : (s.stall w).reg q = s.reg q := rfl
@[simp] theorem State.stall_lane (s : State) (w : Waiting) (q : Reg) (j : Fin 32) : (s.stall w).lane q j = s.lane q j := rfl
@[simp] theorem State.stall_maskOf (s : State) (w : Waiting) (q : Reg) : (s.stall w).maskOf q = s.maskOf q := rfl
@[simp] theorem State.stall_enabled (s : State) (w : Waiting) (q : Reg) (j : Fin 32) : (s.stall w).enabled q j = s.enabled q j := rfl
@[simp] theorem State.stall_masked (s : State) (w : Waiting) (q : Reg) (j : Fin 32) : (s.stall w).masked q j = s.masked q j := rfl
@[simp] theorem State.stall_cell (s : State) (w : Waiting) (row col : Fin 32) : (s.stall w).cell row col = s.cell row col := rfl
@[simp] theorem State.stall_active (s : State) (w : Waiting) : (s.stall w).active = s.active := rfl

/-! withInbox -/

@[simp] theorem State.withInbox_v (s : State) (es : List HostEvent) : (s.withInbox es).v = s.v := rfl
@[simp] theorem State.withInbox_mask (s : State) (es : List HostEvent) : (s.withInbox es).mask = s.mask := rfl
@[simp] theorem State.withInbox_m (s : State) (es : List HostEvent) : (s.withInbox es).m = s.m := rfl
@[simp] theorem State.withInbox_vl (s : State) (es : List HostEvent) : (s.withInbox es).vl = s.vl := rfl
@[simp] theorem State.withInbox_stride (s : State) (es : List HostEvent) : (s.withInbox es).stride = s.stride := rfl
@[simp] theorem State.withInbox_xs1 (s : State) (es : List HostEvent) : (s.withInbox es).xs1 = s.xs1 := rfl
@[simp] theorem State.withInbox_xs2 (s : State) (es : List HostEvent) : (s.withInbox es).xs2 = s.xs2 := rfl
@[simp] theorem State.withInbox_resp (s : State) (es : List HostEvent) : (s.withInbox es).resp = s.resp := rfl
@[simp] theorem State.withInbox_waiting (s : State) (es : List HostEvent) : (s.withInbox es).waiting = s.waiting := rfl
@[simp] theorem State.withInbox_rst (s : State) (es : List HostEvent) : (s.withInbox es).rst = s.rst := rfl
@[simp] theorem State.withInbox_actKind (s : State) (es : List HostEvent) : (s.withInbox es).actKind = s.actKind := rfl
@[simp] theorem State.withInbox_actX (s : State) (es : List HostEvent) : (s.withInbox es).actX = s.actX := rfl
@[simp] theorem State.withInbox_actS (s : State) (es : List HostEvent) : (s.withInbox es).actS = s.actS := rfl
@[simp] theorem State.withInbox_bridgeReady (s : State) (es : List HostEvent) : (s.withInbox es).bridgeReady = s.bridgeReady := rfl
@[simp] theorem State.withInbox_counts (s : State) (es : List HostEvent) : (s.withInbox es).counts = s.counts := rfl
@[simp] theorem State.withInbox_harnessLog (s : State) (es : List HostEvent) : (s.withInbox es).harnessLog = s.harnessLog := rfl
@[simp] theorem State.withInbox_hostTrap (s : State) (es : List HostEvent) : (s.withInbox es).hostTrap = s.hostTrap := rfl
@[simp] theorem State.withInbox_lut (s : State) (es : List HostEvent) : (s.withInbox es).lut = s.lut := rfl
@[simp] theorem State.withInbox_overflow (s : State) (es : List HostEvent) : (s.withInbox es).overflow = s.overflow := rfl
@[simp] theorem State.withInbox_divFn (s : State) (es : List HostEvent) : (s.withInbox es).divFn = s.divFn := rfl
@[simp] theorem State.withInbox_faultMap (s : State) (es : List HostEvent) : (s.withInbox es).faultMap = s.faultMap := rfl
@[simp] theorem State.withInbox_outside (s : State) (es : List HostEvent) : (s.withInbox es).outside = s.outside := rfl
@[simp] theorem State.withInbox_inbox (s : State) (es : List HostEvent) : (s.withInbox es).inbox = es := rfl
@[simp] theorem State.withInbox_reg (s : State) (es : List HostEvent) (q : Reg) : (s.withInbox es).reg q = s.reg q := rfl
@[simp] theorem State.withInbox_lane (s : State) (es : List HostEvent) (q : Reg) (j : Fin 32) : (s.withInbox es).lane q j = s.lane q j := rfl
@[simp] theorem State.withInbox_maskOf (s : State) (es : List HostEvent) (q : Reg) : (s.withInbox es).maskOf q = s.maskOf q := rfl
@[simp] theorem State.withInbox_enabled (s : State) (es : List HostEvent) (q : Reg) (j : Fin 32) : (s.withInbox es).enabled q j = s.enabled q j := rfl
@[simp] theorem State.withInbox_masked (s : State) (es : List HostEvent) (q : Reg) (j : Fin 32) : (s.withInbox es).masked q j = s.masked q j := rfl
@[simp] theorem State.withInbox_cell (s : State) (es : List HostEvent) (row col : Fin 32) : (s.withInbox es).cell row col = s.cell row col := rfl
@[simp] theorem State.withInbox_active (s : State) (es : List HostEvent) : (s.withInbox es).active = s.active := rfl

/-! accept -/

@[simp] theorem State.accept_v (s : State) (i : Instr) (xs1 xs2 : Word64) : (s.accept i xs1 xs2).v = s.v := rfl
@[simp] theorem State.accept_mask (s : State) (i : Instr) (xs1 xs2 : Word64) : (s.accept i xs1 xs2).mask = s.mask := rfl
@[simp] theorem State.accept_m (s : State) (i : Instr) (xs1 xs2 : Word64) : (s.accept i xs1 xs2).m = s.m := rfl
@[simp] theorem State.accept_vl (s : State) (i : Instr) (xs1 xs2 : Word64) : (s.accept i xs1 xs2).vl = s.vl := rfl
@[simp] theorem State.accept_stride (s : State) (i : Instr) (xs1 xs2 : Word64) : (s.accept i xs1 xs2).stride = s.stride := rfl
@[simp] theorem State.accept_xs1 (s : State) (i : Instr) (xs1 xs2 : Word64) : (s.accept i xs1 xs2).xs1 = xs1 := rfl
@[simp] theorem State.accept_xs2 (s : State) (i : Instr) (xs1 xs2 : Word64) : (s.accept i xs1 xs2).xs2 = xs2 := rfl
@[simp] theorem State.accept_resp (s : State) (i : Instr) (xs1 xs2 : Word64) : (s.accept i xs1 xs2).resp = Response.none := rfl
@[simp] theorem State.accept_waiting (s : State) (i : Instr) (xs1 xs2 : Word64) : (s.accept i xs1 xs2).waiting = s.waiting := rfl
@[simp] theorem State.accept_rst (s : State) (i : Instr) (xs1 xs2 : Word64) : (s.accept i xs1 xs2).rst = s.rst := rfl
@[simp] theorem State.accept_actKind (s : State) (i : Instr) (xs1 xs2 : Word64) : (s.accept i xs1 xs2).actKind = s.actKind := rfl
@[simp] theorem State.accept_actX (s : State) (i : Instr) (xs1 xs2 : Word64) : (s.accept i xs1 xs2).actX = s.actX := rfl
@[simp] theorem State.accept_actS (s : State) (i : Instr) (xs1 xs2 : Word64) : (s.accept i xs1 xs2).actS = s.actS := rfl
@[simp] theorem State.accept_bridgeReady (s : State) (i : Instr) (xs1 xs2 : Word64) : (s.accept i xs1 xs2).bridgeReady = s.bridgeReady := rfl
@[simp] theorem State.accept_harnessLog (s : State) (i : Instr) (xs1 xs2 : Word64) : (s.accept i xs1 xs2).harnessLog = s.harnessLog := rfl
@[simp] theorem State.accept_hostTrap (s : State) (i : Instr) (xs1 xs2 : Word64) : (s.accept i xs1 xs2).hostTrap = none := rfl
@[simp] theorem State.accept_lut (s : State) (i : Instr) (xs1 xs2 : Word64) : (s.accept i xs1 xs2).lut = s.lut := rfl
@[simp] theorem State.accept_overflow (s : State) (i : Instr) (xs1 xs2 : Word64) : (s.accept i xs1 xs2).overflow = s.overflow := rfl
@[simp] theorem State.accept_divFn (s : State) (i : Instr) (xs1 xs2 : Word64) : (s.accept i xs1 xs2).divFn = s.divFn := rfl
@[simp] theorem State.accept_faultMap (s : State) (i : Instr) (xs1 xs2 : Word64) : (s.accept i xs1 xs2).faultMap = s.faultMap := rfl
@[simp] theorem State.accept_outside (s : State) (i : Instr) (xs1 xs2 : Word64) : (s.accept i xs1 xs2).outside = s.outside := rfl
@[simp] theorem State.accept_inbox (s : State) (i : Instr) (xs1 xs2 : Word64) : (s.accept i xs1 xs2).inbox = s.inbox := rfl
@[simp] theorem State.accept_reg (s : State) (i : Instr) (xs1 xs2 : Word64) (q : Reg) : (s.accept i xs1 xs2).reg q = s.reg q := rfl
@[simp] theorem State.accept_lane (s : State) (i : Instr) (xs1 xs2 : Word64) (q : Reg) (j : Fin 32) : (s.accept i xs1 xs2).lane q j = s.lane q j := rfl
@[simp] theorem State.accept_maskOf (s : State) (i : Instr) (xs1 xs2 : Word64) (q : Reg) : (s.accept i xs1 xs2).maskOf q = s.maskOf q := rfl
@[simp] theorem State.accept_enabled (s : State) (i : Instr) (xs1 xs2 : Word64) (q : Reg) (j : Fin 32) : (s.accept i xs1 xs2).enabled q j = s.enabled q j := rfl
@[simp] theorem State.accept_masked (s : State) (i : Instr) (xs1 xs2 : Word64) (q : Reg) (j : Fin 32) : (s.accept i xs1 xs2).masked q j = s.masked q j := rfl
@[simp] theorem State.accept_cell (s : State) (i : Instr) (xs1 xs2 : Word64) (row col : Fin 32) : (s.accept i xs1 xs2).cell row col = s.cell row col := rfl
@[simp] theorem State.accept_active (s : State) (i : Instr) (xs1 xs2 : Word64) : (s.accept i xs1 xs2).active = s.active := rfl

/-! applyRst -/

@[simp] theorem State.applyRst_v (s : State) : (s.applyRst).v = Vector.replicate 32 (Vector.replicate 32 0) := rfl
@[simp] theorem State.applyRst_mask (s : State) : (s.applyRst).mask = Vector.replicate 32 0xffffffff#32 := rfl
@[simp] theorem State.applyRst_m (s : State) : (s.applyRst).m = Vector.replicate 32 (Vector.replicate 32 0) := rfl
@[simp] theorem State.applyRst_vl (s : State) : (s.applyRst).vl = 32 := rfl
@[simp] theorem State.applyRst_stride (s : State) : (s.applyRst).stride = 1 := rfl
@[simp] theorem State.applyRst_xs1 (s : State) : (s.applyRst).xs1 = s.xs1 := rfl
@[simp] theorem State.applyRst_xs2 (s : State) : (s.applyRst).xs2 = s.xs2 := rfl
@[simp] theorem State.applyRst_resp (s : State) : (s.applyRst).resp = Response.none := rfl
@[simp] theorem State.applyRst_waiting (s : State) : (s.applyRst).waiting = none := rfl
@[simp] theorem State.applyRst_rst (s : State) : (s.applyRst).rst = true := rfl
@[simp] theorem State.applyRst_actKind (s : State) : (s.applyRst).actKind = s.actKind := rfl
@[simp] theorem State.applyRst_actX (s : State) : (s.applyRst).actX = s.actX := rfl
@[simp] theorem State.applyRst_actS (s : State) : (s.applyRst).actS = s.actS := rfl
@[simp] theorem State.applyRst_bridgeReady (s : State) : (s.applyRst).bridgeReady = s.bridgeReady := rfl
@[simp] theorem State.applyRst_counts (s : State) : (s.applyRst).counts = Vector.replicate 16 0 := rfl
@[simp] theorem State.applyRst_harnessLog (s : State) : (s.applyRst).harnessLog = s.harnessLog := rfl
@[simp] theorem State.applyRst_hostTrap (s : State) : (s.applyRst).hostTrap = none := rfl
@[simp] theorem State.applyRst_lut (s : State) : (s.applyRst).lut = s.lut := rfl
@[simp] theorem State.applyRst_overflow (s : State) : (s.applyRst).overflow = s.overflow := rfl
@[simp] theorem State.applyRst_divFn (s : State) : (s.applyRst).divFn = s.divFn := rfl
@[simp] theorem State.applyRst_faultMap (s : State) : (s.applyRst).faultMap = s.faultMap := rfl
@[simp] theorem State.applyRst_outside (s : State) : (s.applyRst).outside = s.outside := rfl
@[simp] theorem State.applyRst_inbox (s : State) : (s.applyRst).inbox = s.inbox := rfl

/-! releaseRst -/

@[simp] theorem State.releaseRst_v (s : State) : (s.releaseRst).v = s.v := rfl
@[simp] theorem State.releaseRst_mask (s : State) : (s.releaseRst).mask = s.mask := rfl
@[simp] theorem State.releaseRst_m (s : State) : (s.releaseRst).m = s.m := rfl
@[simp] theorem State.releaseRst_vl (s : State) : (s.releaseRst).vl = s.vl := rfl
@[simp] theorem State.releaseRst_stride (s : State) : (s.releaseRst).stride = s.stride := rfl
@[simp] theorem State.releaseRst_xs1 (s : State) : (s.releaseRst).xs1 = s.xs1 := rfl
@[simp] theorem State.releaseRst_xs2 (s : State) : (s.releaseRst).xs2 = s.xs2 := rfl
@[simp] theorem State.releaseRst_resp (s : State) : (s.releaseRst).resp = s.resp := rfl
@[simp] theorem State.releaseRst_waiting (s : State) : (s.releaseRst).waiting = s.waiting := rfl
@[simp] theorem State.releaseRst_rst (s : State) : (s.releaseRst).rst = false := rfl
@[simp] theorem State.releaseRst_actKind (s : State) : (s.releaseRst).actKind = s.actKind := rfl
@[simp] theorem State.releaseRst_actX (s : State) : (s.releaseRst).actX = s.actX := rfl
@[simp] theorem State.releaseRst_actS (s : State) : (s.releaseRst).actS = s.actS := rfl
@[simp] theorem State.releaseRst_bridgeReady (s : State) : (s.releaseRst).bridgeReady = s.bridgeReady := rfl
@[simp] theorem State.releaseRst_counts (s : State) : (s.releaseRst).counts = s.counts := rfl
@[simp] theorem State.releaseRst_harnessLog (s : State) : (s.releaseRst).harnessLog = s.harnessLog := rfl
@[simp] theorem State.releaseRst_hostTrap (s : State) : (s.releaseRst).hostTrap = s.hostTrap := rfl
@[simp] theorem State.releaseRst_lut (s : State) : (s.releaseRst).lut = s.lut := rfl
@[simp] theorem State.releaseRst_overflow (s : State) : (s.releaseRst).overflow = s.overflow := rfl
@[simp] theorem State.releaseRst_divFn (s : State) : (s.releaseRst).divFn = s.divFn := rfl
@[simp] theorem State.releaseRst_faultMap (s : State) : (s.releaseRst).faultMap = s.faultMap := rfl
@[simp] theorem State.releaseRst_outside (s : State) : (s.releaseRst).outside = s.outside := rfl
@[simp] theorem State.releaseRst_inbox (s : State) : (s.releaseRst).inbox = s.inbox := rfl
@[simp] theorem State.releaseRst_reg (s : State) (q : Reg) : (s.releaseRst).reg q = s.reg q := rfl
@[simp] theorem State.releaseRst_lane (s : State) (q : Reg) (j : Fin 32) : (s.releaseRst).lane q j = s.lane q j := rfl
@[simp] theorem State.releaseRst_maskOf (s : State) (q : Reg) : (s.releaseRst).maskOf q = s.maskOf q := rfl
@[simp] theorem State.releaseRst_cell (s : State) (row col : Fin 32) : (s.releaseRst).cell row col = s.cell row col := rfl

end Sys2Proof.Machine
end

