-- ==== Sys2Proof/Laws/Registers.lean ====
section
/-! SUPPORT. What the register accessors read after a write: vector registers, tail zeroing, masks and matrix cells; and
how lane results are read as integers. -/

namespace Sys2Proof.Machine

/-! Vector registers. -/

@[simp] theorem State.reg_setReg_self (s : State) (rd : Reg) (x : LaneVec) : (s.setReg rd x).reg rd = x := by
  simp [State.reg]

theorem State.reg_setReg_ne (s : State) (rd r : Reg) (x : LaneVec) (h : r ≠ rd) :
    (s.setReg rd x).reg r = s.reg r := by
  have hn : rd.toNat ≠ r.toNat := fun e => h (BitVec.eq_of_toNat_eq e.symm)
  simp [State.reg, Vector.getElem_set_ne, hn]

@[simp] theorem lanesOf_getElem (f : Fin 32 → Lane) (i : Fin 32) : (lanesOf f)[i] = f i := by
  simp [lanesOf]

@[simp] theorem tailZeroed_getElem (vl : Nat) (f : Fin 32 → Lane) (i : Fin 32) :
    (tailZeroed vl f)[i] = if i.val < vl then f i else 0 := lanesOf_getElem _ i

@[simp] theorem State.reg_writeReg_self (s : State) (rd : Reg) (f : Fin 32 → Lane) :
    (s.writeReg rd f).reg rd = tailZeroed s.vl f := by
  simp [State.writeReg]

theorem State.reg_writeReg_ne (s : State) (rd r : Reg) (f : Fin 32 → Lane) (h : r ≠ rd) :
    (s.writeReg rd f).reg r = s.reg r := s.reg_setReg_ne rd r _ h

@[simp] theorem State.lane_writeReg_self (s : State) (rd : Reg) (f : Fin 32 → Lane) (i : Fin 32) :
    (s.writeReg rd f).lane rd i = if i.val < s.vl then f i else 0 := by
  simp only [State.lane, State.reg_writeReg_self, tailZeroed_getElem]

/-- The same with the vector length named, for a state that is itself an update of another one. -/
theorem State.lane_writeReg_of_vl (s : State) (rd : Reg) (f : Fin 32 → Lane) (i : Fin 32) (n : Nat) (h : s.vl = n) :
    (s.writeReg rd f).lane rd i = if i.val < n then f i else 0 := by
  subst h; exact s.lane_writeReg_self rd f i

theorem State.reg_scrambleReg_ne (s : State) (rd r : Reg) (h : r ≠ rd) :
    (s.scrambleReg rd).reg r = s.reg r := s.reg_setReg_ne rd r _ h

/-- What asserting `rst` leaves in the block and in the harness counters (70_reset_and_hazards.md R341). -/
theorem State.applyRst_hasResetValues (s : State) : s.applyRst.hasResetValues := by
  refine ⟨fun r i => ?_, fun r => ?_, fun row col => ?_, rfl, rfl, rfl, rfl, fun n => ?_⟩
  · simp [State.lane, State.reg]
  · simp [State.maskOf]
  · simp [State.cell]
  · simp

/-! Masks. -/

@[simp] theorem State.maskOf_setMask_self (s : State) (r : Reg) (x : MaskWord) : (s.setMask r x).maskOf r = x := by
  simp [State.maskOf]

theorem State.maskOf_setMask_ne (s : State) (r q : Reg) (x : MaskWord) (h : q ≠ r) :
    (s.setMask r x).maskOf q = s.maskOf q := by
  have hn : r.toNat ≠ q.toNat := fun e => h (BitVec.eq_of_toNat_eq e.symm)
  simp [State.maskOf, Vector.getElem_set_ne, hn]

/-! The matrix register. -/

@[simp] theorem matrixOf_getElem (f : Fin 32 → Fin 32 → Lane) (row col : Fin 32) :
    (matrixOf f)[row][col] = f row col := by
  simp [matrixOf]

@[simp] theorem State.cell_setMatrix (s : State) (f : Fin 32 → Fin 32 → Lane) (row col : Fin 32) :
    (s.setMatrix (matrixOf f)).cell row col = f row col := matrixOf_getElem f row col

@[simp] theorem State.cell_fillMatrix (s : State) (xs : List Lane) (row col : Fin 32) :
    (s.fillMatrix xs).cell row col =
      if row.val < s.active ∧ col.val < s.active then xs.getD (row.val * s.active + col.val) (s.cell row col)
      else s.cell row col := by
  rw [State.fillMatrix, State.cell_setMatrix]

theorem State.cell_scrambleMatrix_outside (s : State) (row col : Fin 32)
    (h : ¬(row.val < s.active ∧ col.val < s.active)) : s.scrambleMatrix.cell row col = s.cell row col := by
  rw [State.scrambleMatrix, State.withOutside_cell, State.cell_setMatrix, if_neg h]

@[simp] theorem State.matrixBuffer_getElem (s : State) (row col : Fin 32) :
    s.matrixBuffer[row][col] = if row.val < s.vl ∧ col.val < s.vl then s.cell row col else 0 :=
  matrixOf_getElem _ row col

@[simp] theorem State.maskedBuffer_getElem (s : State) (r : Reg) (i : Fin 32) :
    (s.maskedBuffer r)[i] = if i.val < s.vl then s.masked r i else 0 := tailZeroed_getElem _ _ i

/-! Lane values as integers. -/

theorem State.masked_toInt (s : State) (r : Reg) (i : Fin 32) : (s.masked r i).toInt = s.maskedValue r i := by
  by_cases h : (s.maskOf r).getLsbD i.val = true
  · simp only [State.masked, State.maskedValue, State.enabled, h, if_true]
  · simp only [State.masked, State.maskedValue, State.enabled, h]
    rfl

theorem toInt_s16 (v : Int) : (s16 v).toInt = (v + 32768) % 65536 - 32768 := by
  simp only [s16, BitVec.toInt_ofInt, Int.bmod_def]
  omega

theorem toInt_fit16 (o : LaneOverflow) (v : Int) : (fit16 o v).toInt = o.reduced v := by
  cases o
  · exact toInt_s16 v
  · simp only [fit16, toInt_s16, LaneOverflow.reduced]
    split
    · omega
    · split <;> omega

theorem State.active_of_le (s : State) (h : s.vl ≤ 32) : s.active = s.vl := Nat.min_eq_left h

end Sys2Proof.Machine
end

