-- ==== Sys2Proof/Laws/Memory.lean ====
section
/-! SUPPORT. The laws of the host memory and of the two ports: a read after a write, the canonical form, what one access
and a run of accesses can do, and that neither touches the parameters. -/

namespace Sys2Proof.Machine

/-! One byte. -/

theorem Memory.risingFrom_mono (m : Memory) (a b : Nat) (h : a ≤ b) (hm : m.risingFrom b = true) :
    m.risingFrom a = true := by
  cases m with
  | nil => rfl
  | cons e rest =>
    obtain ⟨k, x⟩ := e
    simp only [Memory.risingFrom, Bool.and_eq_true, decide_eq_true_eq] at *
    exact ⟨⟨⟨Nat.le_trans h hm.1.1.1, hm.1.1.2⟩, hm.1.2⟩, hm.2⟩

/-- In a memory that rises from above `a`, nothing is listed at `a`. -/
theorem Memory.read_below (m : Memory) (a lo : Nat) (h : a < lo) (hm : m.risingFrom lo = true) :
    m.read a = unlistedByte := by
  induction m generalizing lo with
  | nil => rfl
  | cons e rest ih =>
    obtain ⟨k, x⟩ := e
    simp only [Memory.risingFrom, Bool.and_eq_true, decide_eq_true_eq] at hm
    simp only [Memory.read]
    rw [if_neg (by omega)]
    exact ih (k + 1) (by omega) hm.2

/-- A byte written is the byte read. -/
theorem Memory.read_write_self (m : Memory) (a lo : Nat) (x : Byte) (hm : m.risingFrom lo = true) :
    (m.write a x).read a = x := by
  induction m generalizing lo with
  | nil =>
    simp only [Memory.write]
    split <;> simp_all [Memory.read]
  | cons e rest ih =>
    obtain ⟨k, y⟩ := e
    simp only [Memory.risingFrom, Bool.and_eq_true, decide_eq_true_eq] at hm
    simp only [Memory.write]
    split
    · split
      · rename_i h1 h2
        rw [h2]
        simp only [Memory.read]
        rw [if_neg (by omega)]
        exact Memory.read_below rest a (k + 1) (by omega) hm.2
      · simp [Memory.read]
    · split
      · rename_i h1 h2
        split
        · rename_i h3
          rw [h3]
          exact Memory.read_below rest a (k + 1) (by omega) hm.2
        · simp [Memory.read, h2]
      · simp only [Memory.read]
        rw [if_neg (by omega)]
        exact ih (k + 1) hm.2

/-- A write leaves every other byte alone. -/
theorem Memory.read_write_ne (m : Memory) (a b : Nat) (x : Byte) (h : b ≠ a) : (m.write a x).read b = m.read b := by
  induction m with
  | nil =>
    simp only [Memory.write]
    split
    · rfl
    · simp [Memory.read, Ne.symm h]
  | cons e rest ih =>
    obtain ⟨k, y⟩ := e
    simp only [Memory.write]
    split
    · split
      · rfl
      · simp [Memory.read, Ne.symm h]
    · split
      · rename_i h1 h2
        subst h2
        split <;> simp [Memory.read, Ne.symm h]
      · simp only [Memory.read, ih]

theorem Memory.risingFrom_write (m : Memory) (a lo : Nat) (x : Byte) (hlo : lo ≤ a) (ha : a < 2 ^ 64)
    (hm : m.risingFrom lo = true) : (m.write a x).risingFrom lo = true := by
  induction m generalizing lo with
  | nil =>
    simp only [Memory.write]
    split
    · rfl
    · rename_i hx
      simp only [Memory.risingFrom, Bool.and_eq_true, decide_eq_true_eq]
      exact ⟨⟨⟨hlo, ha⟩, hx⟩, trivial⟩
  | cons e rest ih =>
    obtain ⟨k, y⟩ := e
    simp only [Memory.risingFrom, Bool.and_eq_true, decide_eq_true_eq] at hm
    obtain ⟨⟨⟨h1, h2⟩, h3⟩, h4⟩ := hm
    simp only [Memory.write]
    split
    · split
      · simp only [Memory.risingFrom, Bool.and_eq_true, decide_eq_true_eq]
        exact ⟨⟨⟨h1, h2⟩, h3⟩, h4⟩
      · rename_i hak hx
        simp only [Memory.risingFrom, Bool.and_eq_true, decide_eq_true_eq]
        exact ⟨⟨⟨hlo, ha⟩, hx⟩, ⟨⟨hak, h2⟩, h3⟩, h4⟩
    · split
      · split
        · exact Memory.risingFrom_mono rest lo (k + 1) (by omega) h4
        · rename_i hx
          simp only [Memory.risingFrom, Bool.and_eq_true, decide_eq_true_eq]
          exact ⟨⟨⟨h1, h2⟩, hx⟩, h4⟩
      · simp only [Memory.risingFrom, Bool.and_eq_true, decide_eq_true_eq]
        exact ⟨⟨⟨h1, h2⟩, h3⟩, ih (k + 1) (by omega) h4⟩

/-- Writing a byte keeps the canonical form. -/
theorem Memory.wf_write (m : Memory) (a : Word64) (x : Byte) (hm : m.wf = true) : (m.write a.toNat x).wf = true :=
  Memory.risingFrom_write m a.toNat 0 x (Nat.zero_le _) a.isLt hm

/-! The operations on what stands behind the ports, field by field. -/

@[simp] theorem Outside.issue_mem (o : Outside) (c : PortCall) : (o.issue c).mem = o.mem := rfl
@[simp] theorem Outside.issue_order (o : Outside) (c : PortCall) : (o.issue c).order = o.order := rfl
@[simp] theorem Outside.issue_regions (o : Outside) (c : PortCall) : (o.issue c).regions = o.regions := rfl
@[simp] theorem Outside.issue_backend (o : Outside) (c : PortCall) : (o.issue c).backend = o.backend := rfl
@[simp] theorem Outside.issue_calls (o : Outside) (c : PortCall) : (o.issue c).calls = c :: o.calls := rfl
@[simp] theorem Outside.issue_fresh (o : Outside) (c : PortCall) : (o.issue c).fresh = o.fresh := rfl
@[simp] theorem Outside.issue_byteAt (o : Outside) (c : PortCall) (a : Word64) : (o.issue c).byteAt a = o.byteAt a := rfl
@[simp] theorem Outside.issue_valueAt (o : Outside) (c : PortCall) (a : Word64) :
    (o.issue c).valueAt a = o.valueAt a := rfl
@[simp] theorem Outside.issue_answer (o : Outside) (c : PortCall) (k : AccessKind) (a : Word64) :
    (o.issue c).answer k a = o.answer k a := rfl
@[simp] theorem Outside.useFree_mem (o : Outside) (n : Nat) : (o.useFree n).mem = o.mem := rfl
@[simp] theorem Outside.useFree_order (o : Outside) (n : Nat) : (o.useFree n).order = o.order := rfl
@[simp] theorem Outside.useFree_regions (o : Outside) (n : Nat) : (o.useFree n).regions = o.regions := rfl
@[simp] theorem Outside.useFree_backend (o : Outside) (n : Nat) : (o.useFree n).backend = o.backend := rfl
@[simp] theorem Outside.useFree_calls (o : Outside) (n : Nat) : (o.useFree n).calls = o.calls := rfl
@[simp] theorem Outside.useFree_byteAt (o : Outside) (n : Nat) (a : Word64) : (o.useFree n).byteAt a = o.byteAt a := rfl
@[simp] theorem Outside.useFree_valueAt (o : Outside) (n : Nat) (a : Word64) :
    (o.useFree n).valueAt a = o.valueAt a := rfl
@[simp] theorem Outside.useFree_answer (o : Outside) (n : Nat) (k : AccessKind) (a : Word64) :
    (o.useFree n).answer k a = o.answer k a := rfl
@[simp] theorem Outside.putValue_order (o : Outside) (a : Word64) (x : Lane) : (o.putValue a x).order = o.order := rfl
@[simp] theorem Outside.putValue_regions (o : Outside) (a : Word64) (x : Lane) :
    (o.putValue a x).regions = o.regions := rfl
@[simp] theorem Outside.putValue_backend (o : Outside) (a : Word64) (x : Lane) :
    (o.putValue a x).backend = o.backend := rfl
@[simp] theorem Outside.putValue_calls (o : Outside) (a : Word64) (x : Lane) : (o.putValue a x).calls = o.calls := rfl
@[simp] theorem Outside.putValue_fresh (o : Outside) (a : Word64) (x : Lane) : (o.putValue a x).fresh = o.fresh := rfl
@[simp] theorem Outside.putValue_answer (o : Outside) (a b : Word64) (x : Lane) (k : AccessKind) :
    (o.putValue a x).answer k b = o.answer k b := rfl

/-! One 16-bit value. -/

theorem Outside.putValue_wf (o : Outside) (a : Word64) (x : Lane) (h : o.mem.wf = true) :
    (o.putValue a x).mem.wf = true := Memory.wf_write _ _ _ (Memory.wf_write _ _ _ h)

/-- A 16-bit store leaves every byte but its own two alone. -/
theorem Outside.putValue_byteAt_ne (o : Outside) (a b : Word64) (x : Lane) (h1 : b ≠ a) (h2 : b ≠ a + 1) :
    (o.putValue a x).byteAt b = o.byteAt b := by
  have n1 : b.toNat ≠ a.toNat := fun e => h1 (BitVec.eq_of_toNat_eq e)
  have n2 : b.toNat ≠ (a + 1).toNat := fun e => h2 (BitVec.eq_of_toNat_eq e)
  simp only [Outside.byteAt, Outside.putValue]
  rw [Memory.read_write_ne _ _ _ _ n2, Memory.read_write_ne _ _ _ _ n1]

theorem word64_succ_ne (a : Word64) : a + 1 ≠ a := by
  intro h
  have h1 := congrArg BitVec.toNat h
  have h2 : (1 : Word64).toNat = 1 := rfl
  rw [BitVec.toNat_add, h2] at h1
  omega

theorem Outside.putValue_byteAt_fst (o : Outside) (a : Word64) (x : Lane) (h : o.mem.wf = true) :
    (o.putValue a x).byteAt a = (laneBytes o.order x).1 := by
  have n : a.toNat ≠ (a + 1).toNat := fun e => word64_succ_ne a (BitVec.eq_of_toNat_eq e.symm)
  simp only [Outside.byteAt, Outside.putValue]
  rw [Memory.read_write_ne _ _ _ _ n, Memory.read_write_self _ _ 0 _ h]

theorem Outside.putValue_byteAt_snd (o : Outside) (a : Word64) (x : Lane) (h : o.mem.wf = true) :
    (o.putValue a x).byteAt (a + 1) = (laneBytes o.order x).2 := by
  simp only [Outside.byteAt, Outside.putValue]
  rw [Memory.read_write_self _ _ 0 _ (Memory.wf_write _ a _ h)]

theorem lane_of_bytes (x : Lane) : (x.extractLsb' 8 8 ++ x.extractLsb' 0 8 : BitVec 16) = x := by
  apply BitVec.eq_of_getElem_eq
  intro i hi
  rw [BitVec.getElem_append]
  split
  · simp [BitVec.getLsbD_eq_getElem hi]
  · have h8 : 8 + (i - 8) = i := by omega
    simp [h8, BitVec.getLsbD_eq_getElem hi]

/-- A 16-bit value stored in plain memory is the value read there, in either byte order. -/
theorem Outside.putValue_valueAt (o : Outside) (a : Word64) (x : Lane) (h : o.mem.wf = true) :
    (o.putValue a x).valueAt a = x := by
  simp only [Outside.valueAt, Outside.putValue_byteAt_fst o a x h, Outside.putValue_byteAt_snd o a x h,
    Outside.putValue_order]
  cases o.order <;> exact lane_of_bytes x

/-! One access. -/

/-- All that one load can do. -/
theorem Outside.memRead_cases (o : Outside) (a : Word64) :
    (o.answer .load a = .plain ∧ o.memRead a = ⟨.done, o.valueAt a, o.issue (.load a)⟩) ∨
    (o.answer .load a = .device ∧ o.memRead a = ⟨.done, Config.freeLane o.fresh, (o.useFree 1).issue (.load a)⟩) ∨
    (o.answer .load a = .fault ∧ o.memRead a = ⟨.fault, 0, o.issue (.load a)⟩) ∨
    (o.answer .load a = .never ∧ o.memRead a = ⟨.never, 0, o.issue (.load a)⟩) := by
  simp only [Outside.memRead]
  cases o.answer .load a <;> simp

/-- All that one store can do. -/
theorem Outside.memWrite_cases (o : Outside) (a : Word64) (x : Lane) :
    (o.answer .store a = .plain ∧ o.memWrite a x = ⟨.done, 0, (o.putValue a x).issue (.store a x)⟩) ∨
    (o.answer .store a = .device ∧ o.memWrite a x = ⟨.done, 0, o.issue (.store a x)⟩) ∨
    (o.answer .store a = .fault ∧ o.memWrite a x = ⟨.fault, 0, o.issue (.store a x)⟩) ∨
    (o.answer .store a = .never ∧ o.memWrite a x = ⟨.never, 0, o.issue (.store a x)⟩) := by
  simp only [Outside.memWrite]
  cases o.answer .store a <;> simp

theorem Outside.memRead_plain (o : Outside) (a : Word64) (h : o.answer .load a = .plain) :
    o.memRead a = ⟨.done, o.valueAt a, o.issue (.load a)⟩ := by simp [Outside.memRead, h]

theorem Outside.memRead_fault (o : Outside) (a : Word64) (h : o.answer .load a = .fault) :
    o.memRead a = ⟨.fault, 0, o.issue (.load a)⟩ := by simp [Outside.memRead, h]

theorem Outside.memRead_never (o : Outside) (a : Word64) (h : o.answer .load a = .never) :
    o.memRead a = ⟨.never, 0, o.issue (.load a)⟩ := by simp [Outside.memRead, h]

theorem Outside.memWrite_plain (o : Outside) (a : Word64) (x : Lane) (h : o.answer .store a = .plain) :
    o.memWrite a x = ⟨.done, 0, (o.putValue a x).issue (.store a x)⟩ := by simp [Outside.memWrite, h]

theorem Outside.memWrite_fault (o : Outside) (a : Word64) (x : Lane) (h : o.answer .store a = .fault) :
    o.memWrite a x = ⟨.fault, 0, o.issue (.store a x)⟩ := by simp [Outside.memWrite, h]

theorem Outside.memWrite_never (o : Outside) (a : Word64) (x : Lane) (h : o.answer .store a = .never) :
    o.memWrite a x = ⟨.never, 0, o.issue (.store a x)⟩ := by simp [Outside.memWrite, h]

/-! Runs of accesses. -/

/-- Whatever a run of loads meets, it changes neither the memory nor a parameter. -/
theorem Outside.loadRun_keeps (o : Outside) (base stride : Word64) (n k : Nat) :
    (o.loadRun base stride n k).outside.mem = o.mem ∧
    (o.loadRun base stride n k).outside.order = o.order ∧
    (o.loadRun base stride n k).outside.regions = o.regions ∧
    (o.loadRun base stride n k).outside.backend = o.backend := by
  induction n generalizing o k with
  | zero => exact ⟨rfl, rfl, rfl, rfl⟩
  | succ n ih =>
    rcases o.memRead_cases (elementAddress base stride k) with ⟨-, h⟩ | ⟨-, h⟩ | ⟨-, h⟩ | ⟨-, h⟩
    · simpa [Outside.loadRun, h] using ih (o.issue (.load (elementAddress base stride k))) (k + 1)
    · simpa [Outside.loadRun, h] using ih ((o.useFree 1).issue (.load (elementAddress base stride k))) (k + 1)
    · simp [Outside.loadRun, h]
    · simp [Outside.loadRun, h]

/-- Whatever a run of stores meets, it changes no parameter and keeps the memory's canonical form. -/
theorem Outside.storeRun_keeps (o : Outside) (base stride : Word64) (xs : List Lane) (k : Nat) :
    ((o.storeRun base stride xs k).2.order = o.order ∧ (o.storeRun base stride xs k).2.regions = o.regions ∧
      (o.storeRun base stride xs k).2.backend = o.backend) ∧
    (o.mem.wf = true → (o.storeRun base stride xs k).2.mem.wf = true) := by
  induction xs generalizing o k with
  | nil => exact ⟨⟨rfl, rfl, rfl⟩, id⟩
  | cons x rest ih =>
    rcases o.memWrite_cases (elementAddress base stride k) x with ⟨-, h⟩ | ⟨-, h⟩ | ⟨-, h⟩ | ⟨-, h⟩
    · have := ih ((o.putValue (elementAddress base stride k) x).issue (.store (elementAddress base stride k) x)) (k + 1)
      refine ⟨by simpa [Outside.storeRun, h] using this.1, fun hw => ?_⟩
      simpa [Outside.storeRun, h] using this.2 (Outside.putValue_wf o _ x hw)
    · simpa [Outside.storeRun, h] using ih (o.issue (.store (elementAddress base stride k) x)) (k + 1)
    · simp [Outside.storeRun, h]
    · simp [Outside.storeRun, h]

/-- The first index below `n + 1` with `q`, every earlier one having `p`: it is 0, or 0 has `p` and it is found after 0. -/
theorem exists_first_succ (p q : Nat → Prop) (n : Nat) :
    (∃ d, d < n + 1 ∧ (∀ j, j < d → p j) ∧ q d) ↔
      q 0 ∨ (p 0 ∧ ∃ d, d < n ∧ (∀ j, j < d → p (j + 1)) ∧ q (d + 1)) := by
  constructor
  · rintro ⟨d, hd, hp, hq⟩
    cases d with
    | zero => exact .inl hq
    | succ d => exact .inr ⟨hp 0 (by omega), d, by omega, fun j hj => hp (j + 1) (by omega), hq⟩
  · rintro (hq | ⟨h0, d, hd, hp, hq⟩)
    · exact ⟨0, by omega, fun j hj => absurd hj (by omega), hq⟩
    · refine ⟨d + 1, by omega, fun j hj => ?_, hq⟩
      cases j with
      | zero => exact h0
      | succ j => exact hp j (by omega)

/-- A run of loads ends in a fault exactly when one of its accesses faults and every access before that one is answered. -/
theorem Outside.loadRun_fault_iff (o : Outside) (base stride : Word64) (n k : Nat) :
    (o.loadRun base stride n k).ending = .fault ↔
      ∃ d, d < n ∧ (∀ j, j < d → o.answer .load (elementAddress base stride (k + j)) = .plain ∨
        o.answer .load (elementAddress base stride (k + j)) = .device) ∧
        o.answer .load (elementAddress base stride (k + d)) = .fault := by
  induction n generalizing o k with
  | zero => simp [Outside.loadRun]
  | succ n ih =>
    have shift : ∀ j, k + 1 + j = k + (j + 1) := fun j => by omega
    rcases o.memRead_cases (elementAddress base stride k) with ⟨ha, h⟩ | ⟨ha, h⟩ | ⟨ha, h⟩ | ⟨ha, h⟩ <;>
      rw [exists_first_succ fun j => o.answer .load (elementAddress base stride (k + j)) = .plain ∨
        o.answer .load (elementAddress base stride (k + j)) = .device] <;>
      simp [Outside.loadRun, h, ih, ha, shift]

/-- A run of stores ends in a fault exactly when one of its accesses faults and every access before that one is answered. -/
theorem Outside.storeRun_fault_iff (o : Outside) (base stride : Word64) (xs : List Lane) (k : Nat) :
    (o.storeRun base stride xs k).1 = .fault ↔
      ∃ d, d < xs.length ∧ (∀ j, j < d → o.answer .store (elementAddress base stride (k + j)) = .plain ∨
        o.answer .store (elementAddress base stride (k + j)) = .device) ∧
        o.answer .store (elementAddress base stride (k + d)) = .fault := by
  induction xs generalizing o k with
  | nil => simp [Outside.storeRun]
  | cons x rest ih =>
    have shift : ∀ j, k + 1 + j = k + (j + 1) := fun j => by omega
    rcases o.memWrite_cases (elementAddress base stride k) x with ⟨ha, h⟩ | ⟨ha, h⟩ | ⟨ha, h⟩ | ⟨ha, h⟩ <;>
      rw [List.length_cons, exists_first_succ fun j => o.answer .store (elementAddress base stride (k + j)) = .plain ∨
        o.answer .store (elementAddress base stride (k + j)) = .device] <;>
      simp [Outside.storeRun, h, ih, ha, shift]

/-- The loads of the elements `k`, ..., `k + n - 1`, in order. -/
def loadsFrom (base stride : Word64) (k n : Nat) : List PortCall :=
  (List.range' k n).map fun j => .load (elementAddress base stride j)

/-- A run of loads that every element answers as plain memory reads every element, in order. -/
theorem Outside.loadRun_plain (o : Outside) (base stride : Word64) (n k : Nat)
    (h : ∀ j, k ≤ j → j < k + n → o.answer .load (elementAddress base stride j) = .plain) :
    (o.loadRun base stride n k).values = (List.range' k n).map (fun j => o.valueAt (elementAddress base stride j)) ∧
    (o.loadRun base stride n k).ending = .done ∧
    (o.loadRun base stride n k).outside.calls = (loadsFrom base stride k n).reverse ++ o.calls := by
  induction n generalizing o k with
  | zero => simp [Outside.loadRun, loadsFrom]
  | succ n ih =>
    have h0 := o.memRead_plain _ (h k (by omega) (by omega))
    have := ih (o.issue (.load (elementAddress base stride k))) (k + 1)
      (fun j h1 h2 => by simpa using h j (by omega) (by omega))
    simp only [Outside.loadRun, h0]
    refine ⟨?_, this.2.1, ?_⟩
    · simp [this.1, List.range'_succ]
    · simp [this.2.2, loadsFrom, List.range'_succ]

/-- A run of loads that every element answers, as plain memory or as a device, reads a value for every element in order, and
from plain memory the one it holds. -/
theorem Outside.loadRun_answered (o : Outside) (base stride : Word64) (n k : Nat)
    (h : ∀ j, k ≤ j → j < k + n → o.answer .load (elementAddress base stride j) = .plain ∨
      o.answer .load (elementAddress base stride j) = .device) :
    (o.loadRun base stride n k).ending = .done ∧
    (o.loadRun base stride n k).outside.calls = (loadsFrom base stride k n).reverse ++ o.calls ∧
    ∀ d, d < n → o.answer .load (elementAddress base stride (k + d)) = .plain →
      (o.loadRun base stride n k).values[d]? = some (o.valueAt (elementAddress base stride (k + d))) := by
  induction n generalizing o k with
  | zero => simp [Outside.loadRun, loadsFrom]
  | succ n ih =>
    have shift : ∀ d, k + (d + 1) = k + 1 + d := fun d => by omega
    rcases o.memRead_cases (elementAddress base stride k) with ⟨-, h0⟩ | ⟨ha, h0⟩ | ⟨ha, -⟩ | ⟨ha, -⟩
    · obtain ⟨h1, h2, h3⟩ := ih (o.issue (.load (elementAddress base stride k))) (k + 1)
        (fun j hj hk => by simpa using h j (by omega) (by omega))
      simp only [Outside.loadRun, h0]
      refine ⟨h1, by simp [h2, loadsFrom, List.range'_succ], fun d hd hp => ?_⟩
      cases d with
      | zero => rfl
      | succ d => rw [shift d] at hp ⊢; simpa using h3 d (by omega) (by simpa using hp)
    · obtain ⟨h1, h2, h3⟩ := ih ((o.useFree 1).issue (.load (elementAddress base stride k))) (k + 1)
        (fun j hj hk => by simpa using h j (by omega) (by omega))
      simp only [Outside.loadRun, h0]
      refine ⟨h1, by simp [h2, loadsFrom, List.range'_succ], fun d hd hp => ?_⟩
      cases d with
      | zero => simp [ha] at hp
      | succ d => rw [shift d] at hp ⊢; simpa using h3 d (by omega) (by simpa using hp)
    · rcases h k (by omega) (by omega) with e | e <;> simp [ha] at e
    · rcases h k (by omega) (by omega) with e | e <;> simp [ha] at e

/-- A run of loads whose element `k + d` faults or is never answered, every element before it answered: the run ends there
with the elements before it read, from plain memory the value it holds. -/
theorem Outside.loadRun_stops (o : Outside) (base stride : Word64) (n k d : Nat) (e : Ending) (hd : d < n)
    (h : ∀ j, k ≤ j → j < k + d → o.answer .load (elementAddress base stride j) = .plain ∨
      o.answer .load (elementAddress base stride j) = .device)
    (hs : (e = .fault ∧ o.answer .load (elementAddress base stride (k + d)) = .fault) ∨
      (e = .never ∧ o.answer .load (elementAddress base stride (k + d)) = .never)) :
    (o.loadRun base stride n k).ending = e ∧
    (o.loadRun base stride n k).outside.calls = (loadsFrom base stride k (d + 1)).reverse ++ o.calls ∧
    ∀ j, j < d → o.answer .load (elementAddress base stride (k + j)) = .plain →
      (o.loadRun base stride n k).values[j]? = some (o.valueAt (elementAddress base stride (k + j))) := by
  induction d generalizing o k n with
  | zero =>
    obtain ⟨m, rfl⟩ := Nat.exists_eq_succ_of_ne_zero (Nat.ne_of_gt hd)
    rw [Nat.add_zero] at hs
    rcases hs with ⟨rfl, hs⟩ | ⟨rfl, hs⟩
    · simp only [Outside.loadRun, o.memRead_fault _ hs]
      simp [loadsFrom]
    · simp only [Outside.loadRun, o.memRead_never _ hs]
      simp [loadsFrom]
  | succ d ih =>
    obtain ⟨m, rfl⟩ := Nat.exists_eq_succ_of_ne_zero (by omega : n ≠ 0)
    have shift : ∀ j, k + (j + 1) = k + 1 + j := fun j => by omega
    rw [shift d] at hs
    rcases o.memRead_cases (elementAddress base stride k) with ⟨-, h0⟩ | ⟨ha, h0⟩ | ⟨ha, -⟩ | ⟨ha, -⟩
    · obtain ⟨h1, h2, h3⟩ := ih (o.issue (.load (elementAddress base stride k))) m (k + 1) (by omega)
        (fun j hj hk => by simpa using h j (by omega) (by omega)) (by simpa using hs)
      simp only [Outside.loadRun, h0]
      refine ⟨h1, by simp [h2, loadsFrom, List.range'_succ], fun j hj hp => ?_⟩
      cases j with
      | zero => rfl
      | succ j => rw [shift j] at hp ⊢; simpa using h3 j (by omega) (by simpa using hp)
    · obtain ⟨h1, h2, h3⟩ := ih ((o.useFree 1).issue (.load (elementAddress base stride k))) m (k + 1) (by omega)
        (fun j hj hk => by simpa using h j (by omega) (by omega)) (by simpa using hs)
      simp only [Outside.loadRun, h0]
      refine ⟨h1, by simp [h2, loadsFrom, List.range'_succ], fun j hj hp => ?_⟩
      cases j with
      | zero => simp [ha] at hp
      | succ j => rw [shift j] at hp ⊢; simpa using h3 j (by omega) (by simpa using hp)
    · rcases h k (by omega) (by omega) with e | e <;> simp [ha] at e
    · rcases h k (by omega) (by omega) with e | e <;> simp [ha] at e

/-- The stores of the values `xs` to the elements `k`, `k + 1`, ..., in order. -/
def storesFrom (base stride : Word64) : List Lane → Nat → List PortCall
  | [], _ => []
  | x :: rest, k => .store (elementAddress base stride k) x :: storesFrom base stride rest (k + 1)

/-- Plain memory after the values `xs` are stored to the elements `k`, `k + 1`, .... -/
def Outside.putRun (o : Outside) (base stride : Word64) (xs : List Lane) (k : Nat) : Outside :=
  match xs with
  | [] => o
  | x :: rest =>
    ((o.putValue (elementAddress base stride k) x).issue (.store (elementAddress base stride k) x)).putRun base stride
      rest (k + 1)

/-- A run of stores that every element answers as plain memory stores every value. -/
theorem Outside.storeRun_plain (o : Outside) (base stride : Word64) (xs : List Lane) (k : Nat)
    (h : ∀ j, k ≤ j → j < k + xs.length → o.answer .store (elementAddress base stride j) = .plain) :
    o.storeRun base stride xs k = (.done, o.putRun base stride xs k) := by
  induction xs generalizing o k with
  | nil => rfl
  | cons x rest ih =>
    simp only [List.length_cons] at h
    simp only [Outside.storeRun, o.memWrite_plain _ x (h k (by omega) (by omega)), Outside.putRun]
    exact ih _ (k + 1) (fun j h1 h2 => by simpa using h j (by omega) (by omega))

theorem Outside.putRun_calls (o : Outside) (base stride : Word64) (xs : List Lane) (k : Nat) :
    (o.putRun base stride xs k).calls = (storesFrom base stride xs k).reverse ++ o.calls := by
  induction xs generalizing o k with
  | nil => rfl
  | cons x rest ih => simp [Outside.putRun, ih, storesFrom]

theorem Outside.putRun_wf (o : Outside) (base stride : Word64) (xs : List Lane) (k : Nat) (h : o.mem.wf = true) :
    (o.putRun base stride xs k).mem.wf = true := by
  induction xs generalizing o k with
  | nil => exact h
  | cons x rest ih => exact ih _ _ (Outside.putValue_wf o _ x h)

theorem Outside.putRun_keeps (o : Outside) (base stride : Word64) (xs : List Lane) (k : Nat) :
    (o.putRun base stride xs k).order = o.order ∧ (o.putRun base stride xs k).regions = o.regions ∧
    (o.putRun base stride xs k).backend = o.backend := by
  induction xs generalizing o k with
  | nil => exact ⟨rfl, rfl, rfl⟩
  | cons x rest ih => simpa [Outside.putRun] using ih ((o.putValue (elementAddress base stride k) x).issue _) (k + 1)

/-- A run of stores leaves every byte outside its elements alone. -/
theorem Outside.putRun_byteAt_outside (o : Outside) (base stride : Word64) (xs : List Lane) (k : Nat) (a : Word64)
    (h : ∀ j, k ≤ j → j < k + xs.length → a ≠ elementAddress base stride j ∧ a ≠ elementAddress base stride j + 1) :
    (o.putRun base stride xs k).byteAt a = o.byteAt a := by
  induction xs generalizing o k with
  | nil => rfl
  | cons x rest ih =>
    simp only [List.length_cons] at h
    simp only [Outside.putRun]
    rw [ih _ (k + 1) (fun j h1 h2 => h j (by omega) (by omega)), Outside.issue_byteAt,
      Outside.putValue_byteAt_ne _ _ _ _ (h k (by omega) (by omega)).1 (h k (by omega) (by omega)).2]

/-- A run of stores whose element `k + xs.length` faults or is never answered, every element before it answered: it does what
the run of the values before it does, issues that one store and ends there (`storeRun_answered` says what the former does). -/
theorem Outside.storeRun_stops (o : Outside) (base stride : Word64) (xs ys : List Lane) (y : Lane) (k : Nat) (e : Ending)
    (h : ∀ j, k ≤ j → j < k + xs.length → o.answer .store (elementAddress base stride j) = .plain ∨
      o.answer .store (elementAddress base stride j) = .device)
    (hs : (e = .fault ∧ o.answer .store (elementAddress base stride (k + xs.length)) = .fault) ∨
      (e = .never ∧ o.answer .store (elementAddress base stride (k + xs.length)) = .never)) :
    o.storeRun base stride (xs ++ y :: ys) k =
      (e, (o.storeRun base stride xs k).2.issue (.store (elementAddress base stride (k + xs.length)) y)) := by
  induction xs generalizing o k with
  | nil =>
    rcases hs with ⟨rfl, hs⟩ | ⟨rfl, hs⟩
    · simp only [List.length_nil, Nat.add_zero] at hs
      simp [Outside.storeRun, o.memWrite_fault _ y hs]
    · simp only [List.length_nil, Nat.add_zero] at hs
      simp [Outside.storeRun, o.memWrite_never _ y hs]
  | cons x rest ih =>
    simp only [List.length_cons] at h hs
    have e1 : k + 1 + rest.length = k + (rest.length + 1) := by omega
    rcases o.memWrite_cases (elementAddress base stride k) x with ⟨-, h0⟩ | ⟨-, h0⟩ | ⟨ha, -⟩ | ⟨ha, -⟩
    · have := ih ((o.putValue (elementAddress base stride k) x).issue (.store (elementAddress base stride k) x)) (k + 1)
        (fun j hj hk => by simpa using h j (by omega) (by omega)) (by simpa [e1] using hs)
      simpa [Outside.storeRun, h0, e1] using this
    · have := ih (o.issue (.store (elementAddress base stride k) x)) (k + 1)
        (fun j hj hk => by simpa using h j (by omega) (by omega)) (by simpa [e1] using hs)
      simpa [Outside.storeRun, h0, e1] using this
    · rcases h k (by omega) (by omega) with e | e <;> simp [ha] at e
    · rcases h k (by omega) (by omega) with e | e <;> simp [ha] at e

/-! Element addresses. -/

/-- Two element addresses of one command differ by an even number, so distinct ones share no byte. -/
theorem elementAddress_parity (base stride : Word64) (j k : Nat) :
    (elementAddress base stride j).toNat % 2 = (elementAddress base stride k).toNat % 2 := by
  simp only [elementAddress, BitVec.toNat_ofNat]
  omega

theorem elementAddress_ne_succ (base stride : Word64) (j k : Nat) :
    elementAddress base stride j ≠ elementAddress base stride k + 1 := by
  intro h
  have h1 := congrArg BitVec.toNat h
  have h2 := elementAddress_parity base stride j k
  have h3 : (1 : Word64).toNat = 1 := rfl
  rw [BitVec.toNat_add, h3] at h1
  omega

/-- A run of stores leaves an element's value alone when none of its elements has that address. -/
theorem Outside.putRun_valueAt_outside (o : Outside) (base stride : Word64) (xs : List Lane) (k d : Nat)
    (h : ∀ j, k ≤ j → j < k + xs.length → elementAddress base stride j ≠ elementAddress base stride d) :
    (o.putRun base stride xs k).valueAt (elementAddress base stride d) =
      o.valueAt (elementAddress base stride d) := by
  have h1 := o.putRun_byteAt_outside base stride xs k (elementAddress base stride d)
    (fun j hj hk => ⟨fun e => h j hj hk e.symm, elementAddress_ne_succ base stride d j⟩)
  have h2 := o.putRun_byteAt_outside base stride xs k (elementAddress base stride d + 1)
    (fun j hj hk => ⟨fun e => elementAddress_ne_succ base stride j d e.symm,
      fun e => h j hj hk (add_right_cancel e).symm⟩)
  simp only [Outside.valueAt, (o.putRun_keeps base stride xs k).1, h1, h2]

/-- After a run of stores each element holds its value, unless a later element has the same address. -/
theorem Outside.putRun_valueAt (o : Outside) (base stride : Word64) (xs : List Lane) (k d : Nat) (hw : o.mem.wf = true)
    (hd : d < xs.length)
    (h : ∀ j, d < j → j < xs.length → elementAddress base stride (k + j) ≠ elementAddress base stride (k + d)) :
    (o.putRun base stride xs k).valueAt (elementAddress base stride (k + d)) = xs[d] := by
  induction xs generalizing o k d with
  | nil => simp at hd
  | cons x rest ih =>
    simp only [List.length_cons] at hd h
    cases d with
    | zero =>
      simp only [Outside.putRun, List.getElem_cons_zero, Nat.add_zero] at h ⊢
      rw [Outside.putRun_valueAt_outside]
      · exact Outside.putValue_valueAt o _ x hw
      · intro j hj hk
        have := h (j - k) (by omega) (by omega)
        rwa [show k + (j - k) = j by omega] at this
    | succ d =>
      have := ih ((o.putValue (elementAddress base stride k) x).issue (.store (elementAddress base stride k) x)) (k + 1) d
        (Outside.putValue_wf o _ x hw) (by omega)
        (fun j hj hk => by
          have := h (j + 1) (by omega) (by omega)
          rwa [show k + (j + 1) = k + 1 + j by omega, show k + (d + 1) = k + 1 + d by omega] at this)
      rw [show k + 1 + d = k + (d + 1) by omega] at this
      exact this

/-- A run of stores that every element answers, as plain memory or as a device: every store is issued, no byte outside the
plain elements changes, and each of those holds its value unless a later element has the same address. -/
theorem Outside.storeRun_answered (o : Outside) (base stride : Word64) (xs : List Lane) (k : Nat) (hw : o.mem.wf = true)
    (h : ∀ j, k ≤ j → j < k + xs.length → o.answer .store (elementAddress base stride j) = .plain ∨
      o.answer .store (elementAddress base stride j) = .device) :
    (o.storeRun base stride xs k).1 = .done ∧
    (o.storeRun base stride xs k).2.calls = (storesFrom base stride xs k).reverse ++ o.calls ∧
    (∀ a, (∀ j, k ≤ j → j < k + xs.length → o.answer .store (elementAddress base stride j) = .plain →
        a ≠ elementAddress base stride j ∧ a ≠ elementAddress base stride j + 1) →
      (o.storeRun base stride xs k).2.byteAt a = o.byteAt a) ∧
    ∀ d (hd : d < xs.length), o.answer .store (elementAddress base stride (k + d)) = .plain →
      (∀ j, d < j → j < xs.length → elementAddress base stride (k + j) ≠ elementAddress base stride (k + d)) →
      (o.storeRun base stride xs k).2.valueAt (elementAddress base stride (k + d)) = xs[d] := by
  induction xs generalizing o k with
  | nil => simp [Outside.storeRun, storesFrom]
  | cons x rest ih =>
    have shift : ∀ d, k + (d + 1) = k + 1 + d := fun d => by omega
    simp only [List.length_cons] at h ⊢
    rcases o.memWrite_cases (elementAddress base stride k) x with ⟨ha, h0⟩ | ⟨ha, h0⟩ | ⟨ha, -⟩ | ⟨ha, -⟩
    · obtain ⟨h1, h2, h3, h4⟩ := ih
        ((o.putValue (elementAddress base stride k) x).issue (.store (elementAddress base stride k) x)) (k + 1)
        (Outside.putValue_wf o _ x hw) (fun j hj hk => by simpa using h j (by omega) (by omega))
      simp only [Outside.storeRun, h0]
      refine ⟨h1, by simp [h2, storesFrom], fun a hn => ?_, fun d hd hp hl => ?_⟩
      · rw [h3 a fun j hj hk hp => hn j (by omega) (by omega) (by simpa using hp), Outside.issue_byteAt,
          Outside.putValue_byteAt_ne _ _ _ _ (hn k (by omega) (by omega) ha).1 (hn k (by omega) (by omega) ha).2]
      · cases d with
        | zero =>
          have hne : ∀ j, k + 1 ≤ j → j < k + 1 + rest.length →
              elementAddress base stride j ≠ elementAddress base stride k := fun j hj hk => by
            have := hl (j - k) (by omega) (by omega)
            rwa [show k + (j - k) = j by omega, Nat.add_zero] at this
          have b1 := h3 (elementAddress base stride k) fun j hj hk _ =>
            ⟨(hne j hj hk).symm, elementAddress_ne_succ base stride k j⟩
          have b2 := h3 (elementAddress base stride k + 1) fun j hj hk _ =>
            ⟨(elementAddress_ne_succ base stride j k).symm, fun e => hne j hj hk (add_right_cancel e).symm⟩
          have ho := (Outside.storeRun_keeps
            ((o.putValue (elementAddress base stride k) x).issue (.store (elementAddress base stride k) x)) base stride
            rest (k + 1)).1.1
          have hv := Outside.putValue_valueAt o (elementAddress base stride k) x hw
          simp only [Nat.add_zero, List.getElem_cons_zero]
          refine Eq.trans ?_ hv
          simp only [Outside.valueAt, b1, b2, ho, Outside.issue_byteAt, Outside.issue_order]
        | succ d =>
          rw [shift d] at hp ⊢
          exact h4 d (by omega) (by simpa using hp) fun j hj hk => by
            have := hl (j + 1) (by omega) (by omega)
            rwa [shift j, shift d] at this
    · obtain ⟨h1, h2, h3, h4⟩ := ih (o.issue (.store (elementAddress base stride k) x)) (k + 1) hw
        (fun j hj hk => by simpa using h j (by omega) (by omega))
      simp only [Outside.storeRun, h0]
      refine ⟨h1, by simp [h2, storesFrom], fun a hn => ?_, fun d hd hp hl => ?_⟩
      · rw [h3 a fun j hj hk hp => hn j (by omega) (by omega) (by simpa using hp), Outside.issue_byteAt]
      · cases d with
        | zero => simp [ha] at hp
        | succ d =>
          rw [shift d] at hp ⊢
          exact h4 d (by omega) (by simpa using hp) fun j hj hk => by
            have := hl (j + 1) (by omega) (by omega)
            rwa [shift j, shift d] at this
    · rcases h k (by omega) (by omega) with e | e <;> simp [ha] at e
    · rcases h k (by omega) (by omega) with e | e <;> simp [ha] at e

/-- The values STORE sends: one for each active lane, in order. -/
theorem State.storedLanes_length (s : State) (rs2 : Reg) : (s.storedLanes rs2).length = s.active := by
  simp [State.storedLanes, State.active]

theorem State.storedLanes_getElem (s : State) (rs2 : Reg) (i : Fin 32) (h : i.val < (s.storedLanes rs2).length) :
    (s.storedLanes rs2)[i.val] = s.lane rs2 i := by
  simp [State.storedLanes, State.lane]

/-- Whatever the abandoned command is, the parameters and the memory's canonical form stay, and only STORE changes memory. -/
theorem State.outsideAfter_keeps (s : State) (i : Instr) (n : Nat) :
    ((s.outsideAfter i n).order = s.outside.order ∧ (s.outsideAfter i n).regions = s.outside.regions ∧
      (s.outsideAfter i n).backend = s.outside.backend) ∧
    (s.outside.mem.wf = true → (s.outsideAfter i n).mem.wf = true) ∧
    ((∀ rs2, i ≠ .store rs2) → (s.outsideAfter i n).mem = s.outside.mem) := by
  cases i
  case store rs2 =>
    have h := s.outside.storeRun_keeps s.xs1 s.stride ((s.storedLanes rs2).take n) 0
    exact ⟨h.1, h.2, fun hn => absurd rfl (hn rs2)⟩
  case load rd =>
    have h := s.outside.loadRun_keeps s.xs1 s.stride (min n s.active) 0
    exact ⟨h.2, fun hw => (congrArg Memory.wf h.1).trans hw, fun _ => h.1⟩
  case configMatrix =>
    have h := s.outside.loadRun_keeps s.xs1 s.stride (min n (s.active * s.active)) 0
    exact ⟨h.2, fun hw => (congrArg Memory.wf h.1).trans hw, fun _ => h.1⟩
  case dotp => simp only [State.outsideAfter]; split <;> simp
  case mvm => simp only [State.outsideAfter]; split <;> simp
  all_goals exact ⟨⟨rfl, rfl, rfl⟩, id, fun _ => rfl⟩

/-! The numeric backend. -/

/-- All that a dot product call can answer. -/
theorem Backend.dotp_cases (b : Backend) (x y : LaneVec) :
    (b = .reference ∧ b.dotp x y = some (dotpReference x y)) ∨
    (b = .external ∧ b.dotp x y = some (Config.dotpFn x y)) ∨ (b = .silent ∧ b.dotp x y = none) := by
  cases b <;> simp [Backend.dotp]

/-- All that a matrix-vector call can answer. -/
theorem Backend.mvm_cases (b : Backend) (w : Matrix) (x : LaneVec) :
    (b = .reference ∧ b.mvm w x = some (mvmReference w x)) ∨
    (b = .external ∧ b.mvm w x = some (Config.mvmFn w x)) ∨ (b = .silent ∧ b.mvm w x = none) := by
  cases b <;> simp [Backend.mvm]

end Sys2Proof.Machine
end

