-- ==== Sys2Proof/Laws/Exec.lean ====
section
/-! SUPPORT. All that a meaning can answer, one lemma per meaning that has more than one case, and the event that a step
serves. Later proofs cite these and unfold no meaning. -/

namespace Sys2Proof.Machine

theorem execDivVS_cases (rd rs2 : Reg) (s : State) :
    (s.xs1 = 0 ∧ execDivVS rd rs2 s = .next (s.raise .arithmeticUndefined)) ∨
    (s.xs1 ≠ 0 ∧ execDivVS rd rs2 s = .next (s.vectorScalar s.divFn.quotient rd rs2)) := by
  by_cases h : s.xs1 = 0
  · exact .inl ⟨h, if_pos h⟩
  · exact .inr ⟨h, if_neg h⟩

theorem execShuffle_cases (rd rs1 rs2 : Reg) (s : State) :
    (s.indicesInRange rs2 ∧ execShuffle rd rs1 rs2 s =
      .next ((s.writeReg rd fun i => s.lane rs1 (Fin.ofNat 32 (s.lane rs2 i).toNat)).complete 0)) ∨
    (¬s.indicesInRange rs2 ∧ execShuffle rd rs1 rs2 s = .next (s.raise .illegalOperand)) := by
  by_cases h : s.indicesInRange rs2
  · exact .inl ⟨h, if_pos h⟩
  · exact .inr ⟨h, if_neg h⟩

theorem activation_cases (s : State) (rd rs1 kind : Reg) :
    (kind = 0 ∧ s.activation rd rs1 kind = (s.writeReg rd fun i => act s.lut .relu (s.lane rs1 i) 0).complete 0) ∨
    (kind ≠ 0 ∧ s.activation rd rs1 kind = s.raise .illegalOperationMode) := by
  by_cases h : kind = 0
  · exact .inl ⟨h, if_pos h⟩
  · exact .inr ⟨h, if_neg h⟩

theorem minmax_cases (s : State) (rs1 mode : Reg) :
    (mode = 0 ∧ s.minmax rs1 mode = s.complete (low64 (s.reduce max rs1))) ∨
    (mode = 1 ∧ s.minmax rs1 mode = s.complete (low64 (s.reduce min rs1))) ∨
    (mode ≠ 0 ∧ mode ≠ 1 ∧ s.minmax rs1 mode = s.raise .illegalOperationMode) := by
  by_cases h : mode = 0
  · exact .inl ⟨h, if_pos h⟩
  · by_cases h1 : mode = 1
    · exact .inr (.inl ⟨h1, (if_neg h).trans (if_pos h1)⟩)
    · exact .inr (.inr ⟨h, h1, (if_neg h).trans (if_neg h1)⟩)

theorem execDotp_cases (rs1 rs2 : Reg) (s : State) :
    (s.bridgeReady = false ∧ execDotp rs1 rs2 s = .next (s.raise .backendUnavailable)) ∨
    (∃ acc, s.bridgeReady = true ∧ s.outside.backend.dotp (s.maskedBuffer rs1) (s.maskedBuffer rs2) = some acc ∧
      execDotp rs1 rs2 s = .next ((s.withOutside (s.outside.issue (.dotp (s.maskedBuffer rs1)
        (s.maskedBuffer rs2)))).complete (low64 (s16 acc).toInt))) ∨
    (s.bridgeReady = true ∧ s.outside.backend = .silent ∧
      execDotp rs1 rs2 s = .next ((s.withOutside (s.outside.issue (.dotp (s.maskedBuffer rs1)
        (s.maskedBuffer rs2)))).stall .backend)) := by
  cases hr : s.bridgeReady
  · exact .inl ⟨rfl, if_pos hr⟩
  · have hn : ¬s.bridgeReady = false := by simp [hr]
    rcases s.outside.backend.dotp_cases (s.maskedBuffer rs1) (s.maskedBuffer rs2) with ⟨-, h⟩ | ⟨-, h⟩ | ⟨hb, h⟩
    · exact .inr (.inl ⟨_, rfl, h, by simp only [execDotp, if_neg hn, h]⟩)
    · exact .inr (.inl ⟨_, rfl, h, by simp only [execDotp, if_neg hn, h]⟩)
    · exact .inr (.inr ⟨rfl, hb, by simp only [execDotp, if_neg hn, h]⟩)

theorem execMvm_cases (rd rs1 : Reg) (s : State) :
    (s.bridgeReady = false ∧ execMvm rd rs1 s = .next (s.raise .backendUnavailable)) ∨
    (∃ y, s.bridgeReady = true ∧ s.outside.backend.mvm s.matrixBuffer (s.maskedBuffer rs1) = some y ∧
      execMvm rd rs1 s = .next (((s.withOutside (s.outside.issue (.mvm s.matrixBuffer
        (s.maskedBuffer rs1)))).writeReg rd fun i => s16 y[i].toInt).complete 0)) ∨
    (s.bridgeReady = true ∧ s.outside.backend = .silent ∧
      execMvm rd rs1 s = .next ((s.withOutside (s.outside.issue (.mvm s.matrixBuffer
        (s.maskedBuffer rs1)))).stall .backend)) := by
  cases hr : s.bridgeReady
  · exact .inl ⟨rfl, if_pos hr⟩
  · have hn : ¬s.bridgeReady = false := by simp [hr]
    rcases s.outside.backend.mvm_cases s.matrixBuffer (s.maskedBuffer rs1) with ⟨-, h⟩ | ⟨-, h⟩ | ⟨hb, h⟩
    · exact .inr (.inl ⟨_, rfl, h, by simp only [execMvm, if_neg hn, h]⟩)
    · exact .inr (.inl ⟨_, rfl, h, by simp only [execMvm, if_neg hn, h]⟩)
    · exact .inr (.inr ⟨rfl, hb, by simp only [execMvm, if_neg hn, h]⟩)

theorem execConfigVL_cases (s : State) :
    ((1 ≤ s.xs1.toNat ∧ s.xs1.toNat ≤ 32) ∧ execConfigVL s = .next ((s.setVL s.xs1.toNat).complete 0)) ∨
    (¬(1 ≤ s.xs1.toNat ∧ s.xs1.toNat ≤ 32) ∧ execConfigVL s = .next (s.raise .illegalConfiguration)) := by
  by_cases h : 1 ≤ s.xs1.toNat ∧ s.xs1.toNat ≤ 32
  · exact .inl ⟨h, if_pos h⟩
  · exact .inr ⟨h, if_neg h⟩

/-- CONFIG selector 2 by how its run of loads ends. -/
theorem execConfigMatrix_cases (s : State) (run : LoadRun)
    (hr : s.outside.loadRun s.xs1 s.stride (s.active * s.active) 0 = run) :
    (run.ending = .done ∧
      execConfigMatrix s = .next (((s.withOutside run.outside).fillMatrix run.values).complete 0)) ∨
    (run.ending = .fault ∧
      execConfigMatrix s = .next ((s.withOutside run.outside).scrambleMatrix.raise (.memoryFault .load))) ∨
    (run.ending = .never ∧
      execConfigMatrix s = .next (((s.withOutside run.outside).fillMatrix run.values).stall .memory)) := by
  subst hr
  simp only [execConfigMatrix]
  split <;> simp_all

/-- LOAD by how its run of loads ends. -/
theorem execLoad_cases (rd : Reg) (s : State) (run : LoadRun)
    (hr : s.outside.loadRun s.xs1 s.stride s.active 0 = run) :
    (run.ending = .done ∧ execLoad rd s =
      .next (((s.withOutside run.outside).writeReg rd fun i => run.values.getD i.val 0).complete 0)) ∨
    (run.ending = .fault ∧
      execLoad rd s = .next (((s.withOutside run.outside).scrambleReg rd).raise (.memoryFault .load))) ∨
    (run.ending = .never ∧ execLoad rd s = .next ((s.withOutside run.outside).stall .memory)) := by
  subst hr
  simp only [execLoad]
  split <;> simp_all

/-- STORE by how its run of stores ends. -/
theorem execStore_cases (rs2 : Reg) (s : State) (run : Ending × Outside)
    (hr : s.outside.storeRun s.xs1 s.stride (s.storedLanes rs2) 0 = run) :
    (run.1 = .done ∧ execStore rs2 s = .next ((s.withOutside run.2).complete 0)) ∨
    (run.1 = .fault ∧ execStore rs2 s = .next ((s.withOutside run.2).raise (.memoryFault .store))) ∨
    (run.1 = .never ∧ execStore rs2 s = .next ((s.withOutside run.2).stall .memory)) := by
  subst hr
  simp only [execStore]
  split <;> simp_all

/-! The step. -/

/-- All that a step can do: nothing, run a command, or serve another event. -/
theorem step_cases (s : State) :
    (nextEvent s.cmdReady s.inbox = none ∧ step s = .next s) ∨
    (∃ w x1 x2 rest, nextEvent s.cmdReady s.inbox = some (.command w x1 x2, rest) ∧
      step s = exec (decode w) ((s.withInbox rest).accept (decode w) x1 x2)) ∨
    (∃ e rest, nextEvent s.cmdReady s.inbox = some (e, rest) ∧ (∀ w x1 x2, e ≠ .command w x1 x2) ∧
      step s = .next ((s.withInbox rest).serve e)) := by
  unfold step
  cases h : nextEvent s.cmdReady s.inbox with
  | none => exact .inl ⟨rfl, rfl⟩
  | some p =>
    obtain ⟨e, rest⟩ := p
    cases e with
    | command w x1 x2 => exact .inr (.inl ⟨w, x1, x2, rest, rfl, rfl⟩)
    | strideWrite x => exact .inr (.inr ⟨_, rest, rfl, by simp, rfl⟩)
    | activation kind x shift => exact .inr (.inr ⟨_, rest, rfl, by simp, rfl⟩)
    | rst asserted => exact .inr (.inr ⟨_, rest, rfl, by simp, rfl⟩)
    | abandonedCommand w x1 x2 n => exact .inr (.inr ⟨_, rest, rfl, by simp, rfl⟩)
    | backendInit => exact .inr (.inr ⟨_, rest, rfl, by simp, rfl⟩)
    | hostWrite a b => exact .inr (.inr ⟨_, rest, rfl, by simp, rfl⟩)

/-- When the block accepts commands, the first event is served. -/
theorem nextEvent_ready (e : HostEvent) (rest : List HostEvent) : nextEvent true (e :: rest) = some (e, rest) := rfl

/-- The event served is one of those offered, and the others stay offered. -/
theorem nextEvent_mem (ready : Bool) (es rest : List HostEvent) (e : HostEvent)
    (h : nextEvent ready es = some (e, rest)) : e ∈ es ∧ ∀ x ∈ rest, x ∈ es := by
  induction es generalizing rest with
  | nil => simp [nextEvent] at h
  | cons a l ih =>
    rw [nextEvent] at h
    split at h
    · simp only [Option.some.injEq, Prod.mk.injEq] at h
      obtain ⟨rfl, rfl⟩ := h
      exact ⟨List.mem_cons_self, fun x hx => List.mem_cons_of_mem _ hx⟩
    · cases hl : nextEvent ready l with
      | none => simp [hl] at h
      | some p =>
        simp only [hl, Option.map_some, Option.some.injEq, Prod.mk.injEq] at h
        obtain ⟨rfl, rfl⟩ := h
        obtain ⟨h1, h2⟩ := ih p.2 hl
        refine ⟨List.mem_cons_of_mem _ h1, fun x hx => ?_⟩
        rcases List.mem_cons.mp hx with rfl | hx
        · exact List.mem_cons_self
        · exact List.mem_cons_of_mem _ (h2 x hx)

/-- While the block accepts no command, the event served is an asynchronous one. -/
theorem nextEvent_asynchronous (es rest : List HostEvent) (e : HostEvent) (h : nextEvent false es = some (e, rest)) :
    e.asynchronous = true := by
  induction es generalizing rest with
  | nil => simp [nextEvent] at h
  | cons a l ih =>
    rw [nextEvent] at h
    split at h
    · rename_i ha
      simp only [Option.some.injEq, Prod.mk.injEq] at h
      obtain ⟨rfl, -⟩ := h
      simpa using ha
    · cases hl : nextEvent false l with
      | none => simp [hl] at h
      | some p =>
        simp only [hl, Option.map_some, Option.some.injEq, Prod.mk.injEq] at h
        obtain ⟨rfl, -⟩ := h
        exact ih p.2 hl

/-- The events a block that accepts no command holds up are the others. -/
theorem HostEvent.held_iff (e : HostEvent) : e.held ↔ e.asynchronous = false := by
  cases e <;> simp [HostEvent.held, HostEvent.asynchronous]

/-- When the block accepts commands (R80, R340). -/
theorem State.cmdReady_iff (s : State) : s.cmdReady = true ↔ s.waiting = none ∧ s.rst = false := by
  simp [State.cmdReady]

/-- While the block accepts no command only an asynchronous event is served. -/
theorem nextEvent_stuck (es : List HostEvent) (h : ∀ e ∈ es, e.asynchronous = false) : nextEvent false es = none := by
  induction es with
  | nil => rfl
  | cons a l ih =>
    have h1 := h a List.mem_cons_self
    simp [nextEvent, h1, ih fun e he => h e (List.mem_cons_of_mem _ he)]

/-- While the block accepts no command the first asynchronous event is served, and those before it stay offered. -/
theorem nextEvent_stuck_append (held rest : List HostEvent) (e : HostEvent)
    (h : ∀ x ∈ held, x.asynchronous = false) (he : e.asynchronous = true) :
    nextEvent false (held ++ e :: rest) = some (e, held ++ rest) := by
  induction held with
  | nil => simp [nextEvent, he]
  | cons a l ih =>
    have h1 := h a List.mem_cons_self
    simp [nextEvent, h1, ih fun x hx => h x (List.mem_cons_of_mem _ hx)]

end Sys2Proof.Machine
end

