-- ==== Sys2Proof/Laws/Effects.lean ====
section
/-! SUPPORT. Every form of next state a command can answer, for proofs over all commands at once. -/

namespace Sys2Proof.Machine

/-- What a run of loads keeps of what stands behind the ports, whatever it meets. -/
abbrev KeptByLoads (s : State) (o : Outside) : Prop :=
  o.mem = s.outside.mem ∧ o.order = s.outside.order ∧ o.regions = s.outside.regions ∧ o.backend = s.outside.backend

/-- What a run of stores keeps of it. -/
abbrev KeptByStores (s : State) (o : Outside) : Prop :=
  (o.order = s.outside.order ∧ o.regions = s.outside.regions ∧ o.backend = s.outside.backend) ∧
  (s.outside.mem.wf = true → o.mem.wf = true)

/-- The states a command can answer: one constructor per shared way of ending, with what proofs over all commands need to
know of the command. -/
inductive Effect (i : Instr) (s : State) : State → Prop
  | raised (c : FaultCause) (h : c ≠ .memoryFault .load ∧ c ≠ .memoryFault .store) : Effect i s (s.raise c)
  | wroteReg (rd : Reg) (f : Fin 32 → Lane) (h : i.wf = true → destinationOf i = some rd) :
      Effect i s ((s.writeReg rd f).complete 0)
  | completed (r : Word64) (h : destinationOf i = none) : Effect i s (s.complete r)
  | backendResult (c : PortCall) (r : Word64) (h : destinationOf i = none) :
      Effect i s ((s.withOutside (s.outside.issue c)).complete r)
  | backendWroteReg (c : PortCall) (rd : Reg) (f : Fin 32 → Lane) (h : destinationOf i = some rd) :
      Effect i s (((s.withOutside (s.outside.issue c)).writeReg rd f).complete 0)
  | backendStuck (c : PortCall) : Effect i s ((s.withOutside (s.outside.issue c)).stall .backend)
  | setVL (h : 1 ≤ s.xs1.toNat ∧ s.xs1.toNat ≤ 32) (hi : i = .configVL) :
      Effect i s ((s.setVL s.xs1.toNat).complete 0)
  | setMask (r : Reg) (x : MaskWord) (hi : i = .configMask r) : Effect i s ((s.setMask r x).complete 0)
  | matrixLoaded (o : Outside) (hk : KeptByLoads s o) (xs : List Lane) (hi : i = .configMatrix) :
      Effect i s (((s.withOutside o).fillMatrix xs).complete 0)
  | matrixFault (o : Outside) (hk : KeptByLoads s o) (hi : i = .configMatrix) :
      Effect i s ((s.withOutside o).scrambleMatrix.raise (.memoryFault .load))
  | matrixStuck (o : Outside) (hk : KeptByLoads s o) (xs : List Lane) (hi : i = .configMatrix) :
      Effect i s (((s.withOutside o).fillMatrix xs).stall .memory)
  | loaded (o : Outside) (hk : KeptByLoads s o) (rd : Reg) (f : Fin 32 → Lane) (h : destinationOf i = some rd) :
      Effect i s (((s.withOutside o).writeReg rd f).complete 0)
  | loadFault (o : Outside) (hk : KeptByLoads s o) (rd : Reg) (h : destinationOf i = some rd) :
      Effect i s (((s.withOutside o).scrambleReg rd).raise (.memoryFault .load))
  | loadStuck (o : Outside) (hk : KeptByLoads s o) : Effect i s ((s.withOutside o).stall .memory)
  | stored (o : Outside) (hk : KeptByStores s o) (h : destinationOf i = none) :
      Effect i s ((s.withOutside o).complete 0)
  | storeFault (o : Outside) (hk : KeptByStores s o) : Effect i s ((s.withOutside o).raise (.memoryFault .store))
  | storeStuck (o : Outside) (hk : KeptByStores s o) : Effect i s ((s.withOutside o).stall .memory)
  | dumped (h : destinationOf i = none) : Effect i s (s.emitCounts.complete 0)
  | reported (h : destinationOf i = none) : Effect i s s.reportUnrecognized

/-- Every command answers a next state, of one of these forms. -/
theorem exec_effect (i : Instr) (s : State) : ∃ t, exec i s = .next t ∧ Effect i s t := by
  cases i with
  | addVV rd rs1 rs2 => exact ⟨_, rfl, .wroteReg _ _ fun _ => rfl⟩
  | subVV rd rs1 rs2 => exact ⟨_, rfl, .wroteReg _ _ fun _ => rfl⟩
  | addVS rd rs2 => exact ⟨_, rfl, .wroteReg _ _ fun _ => rfl⟩
  | subVS rd rs2 => exact ⟨_, rfl, .wroteReg _ _ fun _ => rfl⟩
  | mulVS rd rs2 => exact ⟨_, rfl, .wroteReg _ _ fun _ => rfl⟩
  | divVS rd rs2 =>
    rcases execDivVS_cases rd rs2 s with ⟨-, h⟩ | ⟨-, h⟩
    · exact ⟨_, h, .raised _ (by simp)⟩
    · exact ⟨_, h, .wroteReg _ _ fun _ => rfl⟩
  | shuffle rd rs1 rs2 =>
    rcases execShuffle_cases rd rs1 rs2 s with ⟨-, h⟩ | ⟨-, h⟩
    · exact ⟨_, h, .wroteReg _ _ fun _ => rfl⟩
    · exact ⟨_, h, .raised _ (by simp)⟩
  | activationRelu rd rs1 =>
    rcases activation_cases s rd rs1 0 with ⟨-, h⟩ | ⟨h, -⟩
    · exact ⟨_, congrArg Host.Outcome.next h, .wroteReg _ _ fun _ => rfl⟩
    · exact absurd rfl h
  | activationIllegalKind rd rs1 kind =>
    rcases activation_cases s rd rs1 kind with ⟨hk, h⟩ | ⟨-, h⟩
    · exact ⟨_, congrArg Host.Outcome.next h, .wroteReg rd _ fun hw => by subst hk; simp [Instr.wf] at hw⟩
    · exact ⟨_, congrArg Host.Outcome.next h, .raised _ (by simp)⟩
  | minmaxMax rs1 => exact ⟨_, rfl, .completed _ rfl⟩
  | minmaxMin rs1 => exact ⟨_, rfl, .completed _ rfl⟩
  | minmaxIllegalMode rs1 mode =>
    rcases minmax_cases s rs1 mode with ⟨-, h⟩ | ⟨-, h⟩ | ⟨-, -, h⟩
    · exact ⟨_, congrArg Host.Outcome.next h, .completed _ rfl⟩
    · exact ⟨_, congrArg Host.Outcome.next h, .completed _ rfl⟩
    · exact ⟨_, congrArg Host.Outcome.next h, .raised _ (by simp)⟩
  | dotp rs1 rs2 =>
    rcases execDotp_cases rs1 rs2 s with ⟨-, h⟩ | ⟨_, -, -, h⟩ | ⟨-, -, h⟩
    · exact ⟨_, h, .raised _ (by simp)⟩
    · exact ⟨_, h, .backendResult _ _ rfl⟩
    · exact ⟨_, h, .backendStuck _⟩
  | mvm rd rs1 =>
    rcases execMvm_cases rd rs1 s with ⟨-, h⟩ | ⟨_, -, -, h⟩ | ⟨-, -, h⟩
    · exact ⟨_, h, .raised _ (by simp)⟩
    · exact ⟨_, h, .backendWroteReg _ _ _ rfl⟩
    · exact ⟨_, h, .backendStuck _⟩
  | configVL =>
    rcases execConfigVL_cases s with ⟨hv, h⟩ | ⟨-, h⟩
    · exact ⟨_, h, .setVL hv rfl⟩
    · exact ⟨_, h, .raised _ (by simp)⟩
  | configMask rs2 => exact ⟨_, rfl, .setMask _ _ rfl⟩
  | configMatrix =>
    rcases execConfigMatrix_cases s _ rfl with ⟨-, h⟩ | ⟨-, h⟩ | ⟨-, h⟩
    · exact ⟨_, h, .matrixLoaded _ (Outside.loadRun_keeps _ _ _ _ _) _ rfl⟩
    · exact ⟨_, h, .matrixFault _ (Outside.loadRun_keeps _ _ _ _ _) rfl⟩
    · exact ⟨_, h, .matrixStuck _ (Outside.loadRun_keeps _ _ _ _ _) _ rfl⟩
  | configIllegalSelector sel => exact ⟨_, rfl, .raised _ (by simp)⟩
  | load rd =>
    rcases execLoad_cases rd s _ rfl with ⟨-, h⟩ | ⟨-, h⟩ | ⟨-, h⟩
    · exact ⟨_, h, .loaded _ (Outside.loadRun_keeps _ _ _ _ _) _ _ rfl⟩
    · exact ⟨_, h, .loadFault _ (Outside.loadRun_keeps _ _ _ _ _) _ rfl⟩
    · exact ⟨_, h, .loadStuck _ (Outside.loadRun_keeps _ _ _ _ _)⟩
  | store rs2 =>
    rcases execStore_cases rs2 s _ rfl with ⟨-, h⟩ | ⟨-, h⟩ | ⟨-, h⟩
    · exact ⟨_, h, .stored _ (Outside.storeRun_keeps _ _ _ _ _) rfl⟩
    · exact ⟨_, h, .storeFault _ (Outside.storeRun_keeps _ _ _ _ _)⟩
    · exact ⟨_, h, .storeStuck _ (Outside.storeRun_keeps _ _ _ _ _)⟩
  | dump => exact ⟨_, rfl, .dumped rfl⟩
  | unrecognizedOp15 => exact ⟨_, rfl, .reported rfl⟩
  | unrecognizedOp16to31 op => exact ⟨_, rfl, .reported rfl⟩
  | unrecognizedReserved r => exact ⟨_, rfl, .reported rfl⟩

/-- The form of the next state a command answers. -/
theorem effect_of_exec (i : Instr) (s t : State) (h : exec i s = .next t) : Effect i s t := by
  obtain ⟨u, hu, he⟩ := exec_effect i s
  cases hu.symm.trans h
  exact he

end Sys2Proof.Machine
end

