-- ==== Sys2Proof/Laws/Encoding.lean ====
section
/-! SUPPORT. The laws of the command word: its value as a number, the fields read back from a packed word, and the
bitwise and of packed words. -/

namespace Sys2Proof

theorem append_toNat {m n : Nat} (x : BitVec m) (y : BitVec n) : (x ++ y).toNat = x.toNat * 2 ^ n + y.toNat := by
  rw [BitVec.toNat_append, ← Nat.shiftLeft_add_eq_or_of_lt y.isLt, Nat.shiftLeft_eq]

/-- The command word as a number (R82). -/
theorem packFields_toNat (op rd rs1 rs2 : Reg) (r : BitVec 12) :
    (packFields op rd rs1 rs2 r).toNat =
      (((r.toNat * 2 ^ 5 + rs2.toNat) * 2 ^ 5 + rs1.toNat) * 2 ^ 5 + rd.toNat) * 2 ^ 5 + op.toNat := by
  simp only [packFields]
  rw [append_toNat, append_toNat, append_toNat, append_toNat]

@[simp] theorem opField_packFields (op rd rs1 rs2 : Reg) (r : BitVec 12) :
    opField (packFields op rd rs1 rs2 r) = op := by
  apply BitVec.eq_of_toNat_eq
  have := op.isLt
  simp only [opField, BitVec.extractLsb'_toNat, packFields_toNat, Nat.shiftRight_eq_div_pow]
  omega

@[simp] theorem rdField_packFields (op rd rs1 rs2 : Reg) (r : BitVec 12) :
    rdField (packFields op rd rs1 rs2 r) = rd := by
  apply BitVec.eq_of_toNat_eq
  have := op.isLt
  have := rd.isLt
  simp only [rdField, BitVec.extractLsb'_toNat, packFields_toNat, Nat.shiftRight_eq_div_pow]
  omega

@[simp] theorem rs1Field_packFields (op rd rs1 rs2 : Reg) (r : BitVec 12) :
    rs1Field (packFields op rd rs1 rs2 r) = rs1 := by
  apply BitVec.eq_of_toNat_eq
  have := op.isLt
  have := rd.isLt
  have := rs1.isLt
  simp only [rs1Field, BitVec.extractLsb'_toNat, packFields_toNat, Nat.shiftRight_eq_div_pow]
  omega

@[simp] theorem rs2Field_packFields (op rd rs1 rs2 : Reg) (r : BitVec 12) :
    rs2Field (packFields op rd rs1 rs2 r) = rs2 := by
  apply BitVec.eq_of_toNat_eq
  have := op.isLt
  have := rd.isLt
  have := rs1.isLt
  have := rs2.isLt
  simp only [rs2Field, BitVec.extractLsb'_toNat, packFields_toNat, Nat.shiftRight_eq_div_pow]
  omega

@[simp] theorem reservedField_packFields (op rd rs1 rs2 : Reg) (r : BitVec 12) :
    reservedField (packFields op rd rs1 rs2 r) = r := by
  apply BitVec.eq_of_toNat_eq
  have := op.isLt
  have := rd.isLt
  have := rs1.isLt
  have := rs2.isLt
  have := r.isLt
  simp only [reservedField, BitVec.extractLsb'_toNat, packFields_toNat, Nat.shiftRight_eq_div_pow]
  omega

/-- A command word is its fields. -/
theorem packFields_fields (w : CmdWord) :
    packFields (opField w) (rdField w) (rs1Field w) (rs2Field w) (reservedField w) = w := by
  apply BitVec.eq_of_toNat_eq
  have := w.isLt
  simp only [packFields_toNat, opField, rdField, rs1Field, rs2Field, reservedField, BitVec.extractLsb'_toNat,
    Nat.shiftRight_eq_div_pow]
  omega

/-- The bitwise and of two words is field by field. -/
theorem packFields_and (op rd rs1 rs2 op' rd' rs1' rs2' : Reg) (r r' : BitVec 12) :
    packFields op rd rs1 rs2 r &&& packFields op' rd' rs1' rs2' r' =
      packFields (op &&& op') (rd &&& rd') (rs1 &&& rs1') (rs2 &&& rs2') (r &&& r') := by
  unfold packFields
  show (r ++ rs2 ++ rs1 ++ rd ++ op : BitVec (12 + 5 + 5 + 5 + 5)) &&&
    (r' ++ rs2' ++ rs1' ++ rd' ++ op' : BitVec (12 + 5 + 5 + 5 + 5)) = _
  rw [BitVec.and_append, BitVec.and_append, BitVec.and_append, BitVec.and_append]

/-- A mask of spec/opcode_table.json that is a number, as fields. -/
theorem and_fields (op rd rs1 rs2 op' rd' rs1' rs2' : Reg) (r r' : BitVec 12) (m : CmdWord)
    (h : m = packFields op' rd' rs1' rs2' r') :
    packFields op rd rs1 rs2 r &&& m =
      packFields (op &&& op') (rd &&& rd') (rs1 &&& rs1') (rs2 &&& rs2') (r &&& r') := by
  rw [h, packFields_and]

end Sys2Proof
end

