-- ==== Sys2Proof/Laws/PerInstr.lean ====
section
/-! SUPPORT. Statements for all instructions, made per instruction. EncodeFitsRow: the encoded word of a well-formed
command has the fixed bits of its row of spec/opcode_table.json. -/

namespace Sys2Proof.Laws.EncodeFitsRow

/-- The encoded word carries the row's match under the row's mask. -/
def Statement (i : Instr) : Prop := i.wf = true → encode i &&& i.tableMask = i.tableMatch

theorem addVV (rd rs1 rs2 : Reg) : Statement (.addVV rd rs1 rs2) := by
  unfold Statement
  intro _
  show packFields 0 rd rs1 rs2 0 &&& 0xfff0001f#32 = 0x00000000#32
  rw [show 0xfff0001f#32 = packFields 31 0 0 0 4095 by decide, packFields_and]
  simp only [BitVec.ofNat_eq_ofNat, BitVec.and_zero, BitVec.zero_and]
  decide

theorem subVV (rd rs1 rs2 : Reg) : Statement (.subVV rd rs1 rs2) := by
  unfold Statement
  intro _
  show packFields 1 rd rs1 rs2 0 &&& 0xfff0001f#32 = 0x00000001#32
  rw [show 0xfff0001f#32 = packFields 31 0 0 0 4095 by decide, packFields_and]
  simp only [BitVec.ofNat_eq_ofNat, BitVec.and_zero, BitVec.zero_and]
  decide

theorem addVS (rd rs2 : Reg) : Statement (.addVS rd rs2) := by
  unfold Statement
  intro _
  show packFields 2 rd 0 rs2 0 &&& 0xfff0001f#32 = 0x00000002#32
  rw [show 0xfff0001f#32 = packFields 31 0 0 0 4095 by decide, packFields_and]
  simp only [BitVec.ofNat_eq_ofNat, BitVec.and_zero, BitVec.zero_and]
  decide

theorem subVS (rd rs2 : Reg) : Statement (.subVS rd rs2) := by
  unfold Statement
  intro _
  show packFields 3 rd 0 rs2 0 &&& 0xfff0001f#32 = 0x00000003#32
  rw [show 0xfff0001f#32 = packFields 31 0 0 0 4095 by decide, packFields_and]
  simp only [BitVec.ofNat_eq_ofNat, BitVec.and_zero, BitVec.zero_and]
  decide

theorem mulVS (rd rs2 : Reg) : Statement (.mulVS rd rs2) := by
  unfold Statement
  intro _
  show packFields 4 rd 0 rs2 0 &&& 0xfff0001f#32 = 0x00000004#32
  rw [show 0xfff0001f#32 = packFields 31 0 0 0 4095 by decide, packFields_and]
  simp only [BitVec.ofNat_eq_ofNat, BitVec.and_zero, BitVec.zero_and]
  decide

theorem divVS (rd rs2 : Reg) : Statement (.divVS rd rs2) := by
  unfold Statement
  intro _
  show packFields 5 rd 0 rs2 0 &&& 0xfff0001f#32 = 0x00000005#32
  rw [show 0xfff0001f#32 = packFields 31 0 0 0 4095 by decide, packFields_and]
  simp only [BitVec.ofNat_eq_ofNat, BitVec.and_zero, BitVec.zero_and]
  decide

theorem shuffle (rd rs1 rs2 : Reg) : Statement (.shuffle rd rs1 rs2) := by
  unfold Statement
  intro _
  show packFields 6 rd rs1 rs2 0 &&& 0xfff0001f#32 = 0x00000006#32
  rw [show 0xfff0001f#32 = packFields 31 0 0 0 4095 by decide, packFields_and]
  simp only [BitVec.ofNat_eq_ofNat, BitVec.and_zero, BitVec.zero_and]
  decide

theorem activationRelu (rd rs1 : Reg) : Statement (.activationRelu rd rs1) := by
  unfold Statement
  intro _
  show packFields 7 rd rs1 0 0 &&& 0xffff801f#32 = 0x00000007#32
  rw [show 0xffff801f#32 = packFields 31 0 0 31 4095 by decide, packFields_and]
  simp only [BitVec.ofNat_eq_ofNat, BitVec.and_zero, BitVec.zero_and]
  decide

theorem activationIllegalKind (rd rs1 kind : Reg) : Statement (.activationIllegalKind rd rs1 kind) := by
  unfold Statement
  intro _
  show packFields 7 rd rs1 kind 0 &&& 0xfff0001f#32 = 0x00000007#32
  rw [show 0xfff0001f#32 = packFields 31 0 0 0 4095 by decide, packFields_and]
  simp only [BitVec.ofNat_eq_ofNat, BitVec.and_zero, BitVec.zero_and]
  decide

theorem minmaxMax (rs1 : Reg) : Statement (.minmaxMax rs1) := by
  unfold Statement
  intro _
  show packFields 8 0 rs1 0 0 &&& 0xffff801f#32 = 0x00000008#32
  rw [show 0xffff801f#32 = packFields 31 0 0 31 4095 by decide, packFields_and]
  simp only [BitVec.ofNat_eq_ofNat, BitVec.and_zero, BitVec.zero_and]
  decide

theorem minmaxMin (rs1 : Reg) : Statement (.minmaxMin rs1) := by
  unfold Statement
  intro _
  show packFields 8 0 rs1 1 0 &&& 0xffff801f#32 = 0x00008008#32
  rw [show 0xffff801f#32 = packFields 31 0 0 31 4095 by decide, packFields_and]
  simp only [BitVec.ofNat_eq_ofNat, BitVec.and_zero, BitVec.zero_and]
  decide

theorem minmaxIllegalMode (rs1 mode : Reg) : Statement (.minmaxIllegalMode rs1 mode) := by
  unfold Statement
  intro _
  show packFields 8 0 rs1 mode 0 &&& 0xfff0001f#32 = 0x00000008#32
  rw [show 0xfff0001f#32 = packFields 31 0 0 0 4095 by decide, packFields_and]
  simp only [BitVec.ofNat_eq_ofNat, BitVec.and_zero, BitVec.zero_and]
  decide

theorem dotp (rs1 rs2 : Reg) : Statement (.dotp rs1 rs2) := by
  unfold Statement
  intro _
  show packFields 9 0 rs1 rs2 0 &&& 0xfff0001f#32 = 0x00000009#32
  rw [show 0xfff0001f#32 = packFields 31 0 0 0 4095 by decide, packFields_and]
  simp only [BitVec.ofNat_eq_ofNat, BitVec.and_zero, BitVec.zero_and]
  decide

theorem mvm (rd rs1 : Reg) : Statement (.mvm rd rs1) := by
  unfold Statement
  intro _
  show packFields 10 rd rs1 0 0 &&& 0xfff0001f#32 = 0x0000000a#32
  rw [show 0xfff0001f#32 = packFields 31 0 0 0 4095 by decide, packFields_and]
  simp only [BitVec.ofNat_eq_ofNat, BitVec.and_zero, BitVec.zero_and]
  decide

theorem configVL : Statement (.configVL) := by
  unfold Statement
  decide

theorem configMask (rs2 : Reg) : Statement (.configMask rs2) := by
  unfold Statement
  intro _
  show packFields 11 1 0 rs2 0 &&& 0xfff003ff#32 = 0x0000002b#32
  rw [show 0xfff003ff#32 = packFields 31 31 0 0 4095 by decide, packFields_and]
  simp only [BitVec.ofNat_eq_ofNat, BitVec.and_zero, BitVec.zero_and]
  decide

theorem configMatrix : Statement (.configMatrix) := by
  unfold Statement
  decide

theorem configIllegalSelector (sel : Reg) : Statement (.configIllegalSelector sel) := by
  unfold Statement
  intro _
  show packFields 11 sel 0 0 0 &&& 0xfff0001f#32 = 0x0000000b#32
  rw [show 0xfff0001f#32 = packFields 31 0 0 0 4095 by decide, packFields_and]
  simp only [BitVec.ofNat_eq_ofNat, BitVec.and_zero, BitVec.zero_and]
  decide

theorem load (rd : Reg) : Statement (.load rd) := by
  unfold Statement
  intro _
  show packFields 12 rd 0 0 0 &&& 0xfff0001f#32 = 0x0000000c#32
  rw [show 0xfff0001f#32 = packFields 31 0 0 0 4095 by decide, packFields_and]
  simp only [BitVec.ofNat_eq_ofNat, BitVec.and_zero, BitVec.zero_and]
  decide

theorem store (rs2 : Reg) : Statement (.store rs2) := by
  unfold Statement
  intro _
  show packFields 13 0 0 rs2 0 &&& 0xfff0001f#32 = 0x0000000d#32
  rw [show 0xfff0001f#32 = packFields 31 0 0 0 4095 by decide, packFields_and]
  simp only [BitVec.ofNat_eq_ofNat, BitVec.and_zero, BitVec.zero_and]
  decide

theorem dump : Statement (.dump) := by
  unfold Statement
  decide

theorem unrecognizedOp15 : Statement (.unrecognizedOp15) := by
  unfold Statement
  decide

theorem unrecognizedOp16to31 (op : Reg) : Statement (.unrecognizedOp16to31 op) := by
  unfold Statement
  revert op
  decide

theorem unrecognizedReserved (reserved : BitVec 12) : Statement (.unrecognizedReserved reserved) := by
  unfold Statement
  intro _
  exact BitVec.and_zero

end Sys2Proof.Laws.EncodeFitsRow
end

