-- ==== Sys2Proof/Tests/Slice0.lean ====
section
/-! SUPPORT. Tests of the model against 95_test_vectors.md and the worked examples of the rules, the smoke test of
WellFormed, and the witnesses: for each statement with hypotheses, a concrete state and operands that meet them. Every
expected value is the spec's. -/

namespace Sys2Proof.Tests

open Sys2Proof.Machine

set_option Elab.async false

/-! Well-formedness: an ill-formed term for each check, which the check refuses, and the term at its boundary. -/

theorem test_wf_activation_kind :
    (Instr.activationIllegalKind 2 1 0).wf = false ∧ (Instr.activationIllegalKind 2 1 1).wf = true := by decide
theorem test_wf_minmax_mode_0 : (Instr.minmaxIllegalMode 1 0).wf = false := by decide
theorem test_wf_minmax_mode_1 :
    (Instr.minmaxIllegalMode 1 1).wf = false ∧ (Instr.minmaxIllegalMode 1 2).wf = true := by decide
theorem test_wf_config_selector :
    (Instr.configIllegalSelector 0).wf = false ∧ (Instr.configIllegalSelector 1).wf = false ∧
    (Instr.configIllegalSelector 2).wf = false ∧ (Instr.configIllegalSelector 3).wf = true := by decide
theorem test_wf_unrecognized_op :
    (Instr.unrecognizedOp16to31 15).wf = false ∧ (Instr.unrecognizedOp16to31 16).wf = true := by decide
theorem test_wf_unrecognized_reserved :
    (Instr.unrecognizedReserved 0).wf = false ∧ (Instr.unrecognizedReserved 1).wf = true := by decide

/-! Decoding: a word for every constructor, written out from R71 and R74, with every operand field nonzero (R82,
95_test_vectors.md sections 3 to 11). -/

theorem test_decode_addVV : decode 0x00010460#32 = .addVV 3 1 2 := by decide
theorem test_decode_subVV : decode 0x000efbe1#32 = .subVV 31 30 29 := by decide
theorem test_decode_addVS : decode 0x00010062#32 = .addVS 3 2 := by decide
theorem test_decode_subVS : decode 0x00010063#32 = .subVS 3 2 := by decide
theorem test_decode_mulVS : decode 0x000100a4#32 = .mulVS 5 2 := by decide
theorem test_decode_divVS : decode 0x000100a5#32 = .divVS 5 2 := by decide
theorem test_decode_shuffle : decode 0x00010486#32 = .shuffle 4 1 2 := by decide
theorem test_decode_activationRelu : decode 0x00000447#32 = .activationRelu 2 1 := by decide
theorem test_decode_activationIllegalKind :
    decode 0x00008447#32 = .activationIllegalKind 2 1 1 ∧ decode 0x000f8447#32 = .activationIllegalKind 2 1 31 := by
  decide
theorem test_decode_minmaxMax : decode 0x000004e8#32 = .minmaxMax 1 := by decide
theorem test_decode_minmaxMin : decode 0x00008408#32 = .minmaxMin 1 := by decide
theorem test_decode_minmaxIllegalMode :
    decode 0x00010408#32 = .minmaxIllegalMode 1 2 ∧ decode 0x000f8408#32 = .minmaxIllegalMode 1 31 := by decide
theorem test_decode_dotp : decode 0x00010409#32 = .dotp 1 2 := by decide
theorem test_decode_mvm : decode 0x0000046a#32 = .mvm 3 1 := by decide
theorem test_decode_configVL : decode 0x0000000b#32 = .configVL := by decide
theorem test_decode_configMask : decode 0x0001002b#32 = .configMask 2 := by decide
theorem test_decode_configMatrix : decode 0x0000004b#32 = .configMatrix := by decide
theorem test_decode_configIllegalSelector :
    decode 0x0000006b#32 = .configIllegalSelector 3 ∧ decode 0x000003eb#32 = .configIllegalSelector 31 := by decide
theorem test_decode_load : decode 0x000000cc#32 = .load 6 := by decide
theorem test_decode_store : decode 0x0001800d#32 = .store 3 := by decide
theorem test_decode_dump : decode 0x0000000e#32 = .dump := by decide
theorem test_decode_unrecognizedOp15 : decode 0x0000000f#32 = .unrecognizedOp15 := by decide
theorem test_decode_unrecognizedOp16to31 :
    decode 0x000fffff#32 = .unrecognizedOp16to31 31 ∧ decode 0x00000010#32 = .unrecognizedOp16to31 16 := by decide
theorem test_decode_unrecognizedReserved :
    decode 0x00100000#32 = .unrecognizedReserved 1 ∧ decode 0x8000000e#32 = .unrecognizedReserved 0x800 := by decide

/-- The encoder on the words of section 8 (R82). -/
theorem test_encode_words :
    encode (.addVV 3 1 2) = 0x00010460#32 ∧ encode (.subVV 31 30 29) = 0x000efbe1#32 ∧
    encode (.minmaxMin 1) = 0x00008408#32 ∧ encode (.configMask 1) = 0x0000802b#32 ∧
    encode (.store 3) = 0x0001800d#32 ∧ encode (.load 6) = 0x000000cc#32 := by decide

/-- The host's view of the decoder: a row's word of 32 bits, and none for a word that is no command word. -/
theorem test_decodeTableWord :
    decodeTableWord 32 0x00010460 = some (.addVV 3 1 2) ∧ decodeTableWord 64 0 = none ∧
    decodeTableWord 32 0x100000000 = none := by decide

/-! Helpers of the tests: small states, and what a command answers. -/

/-- A vector register's contents from the values of its first lanes; the other lanes are 0. -/
def lanes (xs : List Int) : LaneVec := lanesOf fun i => BitVec.ofInt 16 (xs.getD i.val 0)

/-- The reset state with `VL = n`, the backend initialized, `xs1 = x`, and V1 and V2 as given. -/
def setup (n : Nat) (x : Word64) (v1 v2 : List Int) : State :=
  { ((State.reset.setVL n).setReg 1 (lanes v1)).setReg 2 (lanes v2) with xs1 := x, bridgeReady := true }

/-- The state with the given 16-bit values in the host memory from an address on. -/
def poke (s : State) (a : Word64) (xs : List Int) : State :=
  s.withOutside ((xs.zipIdx.foldl (fun o p => o.putValue (a + BitVec.ofNat 64 (2 * p.2)) (BitVec.ofInt 16 p.1)) s.outside))

/-- The state whose host memory answers the accesses at an address in the given way. -/
def answering (s : State) (a : Nat) (h : HostAnswer) : State :=
  s.withOutside { s.outside with regions := [⟨a, 1, false, h, h⟩] }

/-- The state whose host memory answers the accesses at one address as a device, and those at another in the given way. -/
def deviceThen (s : State) (device a : Nat) (h : HostAnswer) : State :=
  s.withOutside { s.outside with regions := [⟨device, 1, false, .device, .device⟩, ⟨a, 1, false, h, h⟩] }

/-- The state with another backend. -/
def backed (s : State) (b : Backend) : State := s.withOutside { s.outside with backend := b }

/-- The state a command answers. -/
def after (i : Instr) (s : State) : State :=
  match exec i s with
  | .next t => t
  | _ => s

/-- The first `n` lanes of a register, as integers. -/
def first (n : Nat) (t : State) (r : Reg) : List Int := (List.range n).map fun i => (t.lane r (Fin.ofNat 32 i)).toInt

/-- The first `n` lanes of `V[r]` after a command. -/
def firstAfter (n : Nat) (i : Instr) (s : State) (r : Reg) : List Int := first n (after i s) r

/-- The 16-bit value at an address of the host memory, as an integer. -/
def peek (t : State) (a : Word64) : Int := (t.outside.valueAt a).toInt

theorem exec_after (i : Instr) (s : State) : exec i s = .next (after i s) := by
  obtain ⟨t, h, -⟩ := exec_effect i s
  rw [after, h]

/-! One step of each command (95_test_vectors.md sections 3 to 11, by number). -/

theorem test_addVV_3_1 : firstAfter 5 (.addVV 3 1 2) (setup 4 0 [32767, -32768, 100, -1] [1, -1, -100, 1]) 3
    = [-32768, 32767, 0, 0, 0] := by decide +kernel
theorem test_addVV_3_2 : firstAfter 4 (.addVV 3 1 2)
    (((setup 4 0 [10, 20, 30, 40] [1, 2, 3, 4]).setMask 1 5#32).setMask 2 3#32) 3 = [11, 2, 30, 0] := by decide +kernel
theorem test_fit16_saturates_R141 : fit16 .saturate 32768 = 32767 ∧ fit16 .saturate (-32769) = -32768 ∧
    fit16 .wrap 32768 = -32768 := by decide +kernel
theorem test_subVV_3_3 : firstAfter 3 (.subVV 3 1 2) (setup 4 0 [0, -32768, 5, 7] [1, 1, -5, 7]) 3
    = [-1, 32767, 10] := by decide +kernel
theorem test_subVV_3_4 : firstAfter 4 (.subVV 1 1 2) (setup 4 0 [1, 2, 3, 4] [4, 3, 2, 1]) 1 = [-3, -1, 1, 3] := by
  decide +kernel
theorem test_addVS_4_1 : firstAfter 5 (.addVS 3 2) ((setup 4 100 [] [1, 2, 3, 4, 5]).setMask 2 11#32) 3
    = [101, 102, 0, 104, 0] := by decide +kernel
theorem test_addVS_4_2 : firstAfter 4 (.addVS 3 2) (setup 4 0xffffffffffffffff [] [0, 1, -1, 32767]) 3
    = [-1, 0, -2, 32766] := by decide +kernel
theorem test_subVS_4_4 : firstAfter 4 (.subVS 3 2) (setup 4 1 [] [0, 1, -32768, 5]) 3 = [-1, 0, 32767, 4] := by
  decide +kernel
theorem test_mulVS_4_5 : firstAfter 4 (.mulVS 3 2) (setup 4 300 [] [300, -32768, 3, -3]) 3
    = [24464, 0, 900, -900] := by decide +kernel
theorem test_mulVS_4_13 : firstAfter 4 (.mulVS 5 2) (setup 3 7 [] [1, -2, 3, 4]) 5 = [7, -14, 21, 0] := by
  decide +kernel
theorem test_divVS_4_9 : firstAfter 4 (.divVS 3 2) (setup 4 0xfffffffffffffffe [] [7, -7, 1, -1]) 3
    = [-3, 3, 0, 0] := by decide +kernel
theorem test_divVS_4_8 : firstAfter 4 (.divVS 3 2) (setup 4 0xffffffffffffffff [] [-32768, 5, -7, 0]) 3
    = [-32768, -5, 7, 0] := by decide +kernel
theorem test_shuffle_5_2 : firstAfter 5 (.shuffle 1 1 2) (setup 4 0 [10, 11, 12, 13, 14] [1, 2, 3, 0]) 1
    = [11, 12, 13, 10, 0] := by decide +kernel
theorem test_shuffle_5_4 : (after (.shuffle 4 1 2) (setup 4 0 [] [0, 32, 0, 0])).resp = ⟨true, 0, true, 4, false⟩ := by
  decide +kernel
theorem test_relu_5_8 : firstAfter 4 (.activationRelu 2 1) ((setup 4 0 [-5, 0, 7, 32767] [1, 1, 1, 1]).setMask 1 0#32) 2
    = [0, 0, 7, 32767] := by decide +kernel
theorem test_activation_5_9 :
    (after (.activationIllegalKind 2 1 1) (setup 4 0 [1] [])).resp = ⟨true, 0, true, 2, false⟩ := by decide +kernel
theorem test_vmax_6_4 : (after (.minmaxMax 1) ((setup 2 0 [-3, -5] []).setMask 1 2#32)).resp.result = 0 := by
  decide +kernel
theorem test_vmax_6_8 : (after (.minmaxMax 1) (setup 1 0 [-32768, 9] [])).resp.result = 0xffffffffffff8000 := by
  decide +kernel
theorem test_vmin_6_2 : (after (.minmaxMin 1) (setup 4 0 [-3, 7, 2, -9] [])).resp.result = 0xfffffffffffffff7 := by
  decide +kernel
theorem test_vmin_6_5 : (after (.minmaxMin 1) ((setup 4 0 [5, 6, 7, 8] []).setMask 1 0#32)).resp.result = 0 := by
  decide +kernel
theorem test_minmax_6_3 : (after (.minmaxIllegalMode 1 2) (setup 4 0 [] [])).resp = ⟨true, 0, true, 2, false⟩ := by
  decide +kernel
theorem test_dotp_7_2 : (after (.dotp 1 2) (setup 4 0 [128] [256])).resp.result = 0xffffffffffff8000 := by
  decide +kernel
theorem test_dotp_7_3 : (after (.dotp 1 2) ((setup 4 0 [1, 2, 3, 4] [5, 6, 7, 8]).setMask 2 6#32)).resp.result = 33 := by
  decide +kernel

/-- `M` with 1, 2, 100 in row 0 and 3, 4 in row 1, as in 7.6 and 7.7. -/
def matrix7 : Matrix :=
  matrixOf fun row col =>
    if row = 0 then (if col = 0 then 1 else if col = 1 then 2 else if col = 2 then 100 else 0)
    else if row = 1 then (if col = 0 then 3 else if col = 1 then 4 else 0) else 0

theorem test_mvm_7_7 : firstAfter 3 (.mvm 3 1) ((setup 2 0 [5, 6, 9] []).setMatrix matrix7) 3 = [17, 39, 0] := by
  decide +kernel
theorem test_mvm_7_8 : firstAfter 3 (.mvm 3 1) (((setup 2 0 [5, 6] []).setMatrix matrix7).setMask 1 1#32) 3
    = [5, 15, 0] := by decide +kernel
theorem test_setvl_9_2 : (after .configVL (setup 4 32 [] [])).vl = 32 := by decide +kernel
theorem test_setvl_9_6 : (after .configVL (setup 4 0x100000004 [] [])).vl = 4 ∧
    (after .configVL (setup 4 0x100000004 [] [])).resp = ⟨true, 0, true, 1, false⟩ := by decide +kernel
theorem test_setmask_9_7 : (after (.configMask 2) (setup 4 0xffffffff0000000f [] [])).maskOf 2 = 0xf#32 := by
  decide +kernel

/-- The 2x2 block of `M`, row by row. -/
def block2 (t : State) : List Int := [(t.cell 0 0).toInt, (t.cell 0 1).toInt, (t.cell 1 0).toInt, (t.cell 1 1).toInt]

theorem test_ldmatrix_9_9 : block2 (after .configMatrix (poke (setup 2 0x1000 [] []) 0x1000 [1, 2, 3, 4]))
    = [1, 2, 3, 4] := by decide +kernel
theorem test_ldmatrix_9_11 : block2 (after .configMatrix
    { poke (setup 2 0x1000 [] []) 0x1000 [1, 2, 3, 4, 5, 6, 7, 8] with stride := 2 }) = [1, 3, 5, 7] := by decide +kernel
theorem test_config_9_13 :
    (after (.configIllegalSelector 31) (setup 4 0 [] [])).resp = ⟨true, 0, true, 1, false⟩ := by decide +kernel
theorem test_load_10_6 : firstAfter 4 (.load 6) ((poke (setup 3 0x1000 [] []) 0x1000 [7, -1, 300, 9]).setMask 6 0#32) 6
    = [7, -1, 300, 0] := by decide +kernel
theorem test_load_10_8 : (after (.load 6) (setup 2 0xfffffffffffffffe [] [])).outside.calls
    = [.load 0, .load 0xfffffffffffffffe] := by decide +kernel
theorem test_store_10_4 : peek (after (.store 1) { setup 3 0x1000 [1, 2, 3] [] with stride := 0 }) 0x1000 = 3 := by
  decide +kernel
theorem test_store_10_10 :
    let t := after (.store 1) (answering (setup 3 0x1000 [5, -6, 7] []) 0x1002 .fault)
    peek t 0x1000 = 5 ∧ peek t 0x1002 = 0 ∧ peek t 0x1004 = 0 ∧ t.resp = ⟨true, 0, true, 5, false⟩ ∧
      t.hostTrap = some .storeAccessFault := by decide +kernel
theorem test_dump_11_4 : (after .dump State.reset).resp = ⟨true, 0, false, 0, false⟩ := by decide +kernel
theorem test_unrecognized_11_1 :
    (after .unrecognizedOp15 State.reset).resp = ⟨true, 0, false, 0, true⟩ := by decide +kernel
theorem test_unrecognized_11_2 :
    (after (.unrecognizedOp16to31 31) State.reset).harnessLog = [.unrecognized] := by decide +kernel
theorem test_unrecognized_11_3 :
    (after (.unrecognizedReserved 1) State.reset).v = State.reset.v := by decide +kernel

/-! The activation unit (R117, R119, 12.5) and the table (R105). -/

theorem test_act_wrap_R117 : act lutReference .sigmoid (-32768) 15 = 32767 ∧
    act lutReference .sigmoid (-32768) 14 = 1 := by decide +kernel
theorem test_act_port_12_5 :
    let t := State.reset.serve (.activation 1 (-4096) 0)
    t.actY = BitVec.ofInt 16 (-24956) ∧ t.actIllegal = false := by decide +kernel
theorem test_act_illegal_12_5 :
    let t := State.reset.serve (.activation 3 0 0)
    t.actY = 0 ∧ t.actIllegal = true := by decide +kernel
theorem test_lut_entries : lutEntry lutReference 0 = 32768 ∧ lutEntry lutReference 17 = 43911 ∧
    lutEntry lutReference 48 = 57724 ∧ lutEntry lutReference 255 = 65534 := by decide +kernel
/-- The last entry of each of R105's rows. -/
theorem test_lut_last_column :
    (List.range 16).map (fun r => lutEntry lutReference (16 * r + 15)) =
      [42687, 51408, 57433, 61109, 63186, 64308, 64900, 65208, 65367, 65449, 65491, 65513, 65524, 65530, 65533,
        65534] := by decide +kernel
/-- R119: saturation. -/
theorem test_act_saturation_R119 : act lutReference .tanh 21760 0 = 32767 ∧
    act lutReference .sigmoid 21760 1 = 32767 := by decide +kernel

/-! The step: a command from the queue, counted before it runs (R261), and every row as the first command after reset. -/

/-- The state one step answers. -/
def next (s : State) : State :=
  match step s with
  | .next t => t
  | _ => s

theorem test_dump_counts_itself_R260 :
    (next (State.reset.withFetchWord 32 0x0000000e)).harnessLog =
      [.counts ((Vector.replicate 16 0).set 14 1)] := by decide +kernel
theorem test_faulting_command_is_counted_R261 :
    let t := next { State.reset with inbox := [.command 0x0000006b#32 0 0] }
    t.counts[11] = 1 ∧ t.resp = ⟨true, 0, true, 1, false⟩ ∧ t.inbox = [] := by decide +kernel
theorem test_rst_leaves_a_stuck_command_R340 :
    let s := next ({ (setup 4 0 [7] []) with
      inbox := [.command 0x0001800d#32 0x1000 0, .strideWrite 3, .rst true, .rst false] } |>
      fun s => answering s 0x1000 .never)
    s.waiting = some .memory ∧ (next s).waiting = none ∧ (next s).inbox = [.strideWrite 3, .rst false] ∧
      (next (next (next s))).stride = 3 := by decide +kernel
/-- While `rst` is asserted the block accepts no command; once it is released it does. -/
theorem test_asserted_rst_accepts_nothing_R340 :
    let s : State := { State.reset with inbox := [.rst true, .command 0x0000000e#32 0 0] }
    (next s).cmdReady = false ∧ (next (next s)).inbox = [.command 0x0000000e#32 0 0] ∧
      (next { next s with inbox := [.rst false] }).cmdReady = true := by decide +kernel
/-- A STORE of 5, -6, 7 that `rst` abandons after two stores (R60, R340): no response, two elements stored. -/
theorem test_rst_abandons_a_store_R340 :
    let t := next { setup 3 0 [5, -6, 7] [] with inbox := [.abandonedCommand 0x0000800d#32 0x1000 0 2] }
    peek t 0x1000 = 5 ∧ peek t 0x1002 = -6 ∧ peek t 0x1004 = 0 ∧ t.resp = ⟨false, 0, false, 0, false⟩ ∧ t.vl = 32 := by
  decide +kernel

/-- The response of the first command after reset, its word placed by `withFetchWord`. -/
def firstResponse (w : Nat) : Response := (next (State.reset.withFetchWord 32 w)).resp

theorem test_first_command_lane_arithmetic :
    [0x00010460, 0x00010461, 0x00010062, 0x00010063, 0x00010064, 0x00010065].map firstResponse =
      List.replicate 5 (Response.completed 0) ++ [Response.faulted .arithmeticUndefined] := by decide +kernel
theorem test_first_command_selectors :
    [0x00010486, 0x00000447, 0x00008447, 0x00000408, 0x00008408, 0x00010408].map firstResponse =
      [.completed 0, .completed 0, .faulted .illegalOperationMode, .completed 0, .completed 0,
        .faulted .illegalOperationMode] := by decide +kernel
theorem test_first_command_backend_and_config :
    [0x00010409, 0x0000046a, 0x0000000b, 0x0000802b, 0x0000004b, 0x0000006b].map firstResponse =
      [.faulted .backendUnavailable, .faulted .backendUnavailable, .faulted .illegalConfiguration, .completed 0,
        .completed 0, .faulted .illegalConfiguration] := by decide +kernel
theorem test_first_command_memory_and_diagnostics :
    [0x000000cc, 0x0001800d, 0x0000000e, 0x0000000f, 0x00000010, 0x00100000].map firstResponse =
      [.completed 0, .completed 0, .completed 0, .unknown, .unknown, .unknown] := by decide +kernel

/-! Witnesses: for each statement with hypotheses, a concrete state and operands that meet them all, one for each clause at
a boundary of its range. Where a hypothesis is `exec i s = .next t`, `t` is `after i s` (`exec_after`). -/

/-- The table of R105 meets R104 and R114's condition. -/
theorem lutReference_legal : lutLegal lutReference ∧ lutEntry lutReference 254 ≤ 65534 := by decide +kernel

/-- Events that a block which accepts no command holds up. -/
theorem held_of_asynchronous (es : List HostEvent) (h : es.all (fun e => !e.asynchronous) = true) :
    ∀ e ∈ es, e.held :=
  fun e he => e.held_iff.2 (by simpa using List.all_eq_true.mp h e he)

/-- The reset state with one word offered. -/
def offering (w : CmdWord) : State := { State.reset with inbox := [.command w 5 6] }

/-- A state with a stuck STORE, a command and a stride write held up behind it. -/
def stuckState : State :=
  { State.reset with waiting := some .memory, inbox := [.command 0#32 0 0, .strideWrite 3] }

/-- A state in which `rst` is asserted, with the same two held up. -/
def resetHeldState : State := { State.reset with rst := true, inbox := [.command 0#32 0 0, .strideWrite 3] }

theorem witness_DecodeInvertsEncode :
    (Instr.activationIllegalKind 2 1 1).wf = true ∧ (Instr.minmaxIllegalMode 1 2).wf = true ∧
    (Instr.configIllegalSelector 3).wf = true ∧ (Instr.unrecognizedOp16to31 16).wf = true ∧
    (Instr.unrecognizedReserved 1).wf = true ∧ (Instr.addVV 31 30 29).wf = true := by decide

/-- A word of each row whose operands the statement reads, at the boundaries of their ranges; `op` 14 is the last that its
reserved bits name. -/
theorem witness_DecodedWordFitsItsTableRow :
    decode 0x000f8447#32 = .activationIllegalKind 2 1 31 ∧ decode 0x00010408#32 = .minmaxIllegalMode 1 2 ∧
    decode 0x0000006b#32 = .configIllegalSelector 3 ∧ decode 0x00000010#32 = .unrecognizedOp16to31 16 ∧
    decode 0xfff0000e#32 = .unrecognizedReserved 0xfff ∧ decode 0x000efbe1#32 = .subVV 31 30 29 ∧
    operandsAreFieldsOf (.subVV 31 30 29) 0x000efbe1#32 := by
  refine ⟨by decide, by decide, by decide, by decide, by decide, by decide, ?_⟩
  simp [operandsAreFieldsOf, fieldAt]

/-- ADD.VS with another `rs1`, and op 15 with other fields. -/
theorem witness_IgnoredFieldsHaveNoEffect :
    (∀ r, decode 0x00010062#32 ≠ .unrecognizedReserved r) ∧
    0x00010062#32 &&& (decode 0x00010062#32).usedBits = 0x00017c62#32 &&& (decode 0x00010062#32).usedBits ∧
    0x00010062#32 ≠ 0x00017c62#32 ∧ (∀ r, decode 0x0000000f#32 ≠ .unrecognizedReserved r) ∧
    0x0000000f#32 &&& (decode 0x0000000f#32).usedBits = 0xffffffef#32 &&& (decode 0x0000000f#32).usedBits := by
  refine ⟨fun r => ?_, by decide, by decide, fun r => ?_, by decide⟩
  · rw [test_decode_addVS]; simp
  · rw [test_decode_unrecognizedOp15]; simp

theorem witness_UnrecognizedWordsTakeThePermissivePath :
    (offering 0x0000000f#32).cmdReady = true ∧ (offering 0x0000000f#32).inbox = [.command 0x0000000f#32 5 6] ∧
    15 ≤ (0x0000000f#32).toNat % 32 ∧ 2 ^ 20 ≤ (0x00100000#32).toNat ∧
    ¬(15 ≤ (0x000fffee#32).toNat % 32 ∨ 2 ^ 20 ≤ (0x000fffee#32).toNat) := by decide

theorem witness_StepRunsTheOfferedCommand :
    (offering 0x00010460#32).cmdReady = true ∧
    (offering 0x00010460#32).inbox = .command 0x00010460#32 5 6 :: [] := by decide

theorem witness_EveryCommandIsCountedOnce :
    (offering 0x0000000e#32).cmdReady = true ∧ (offering 0x0000000e#32).inbox = .command 0x0000000e#32 5 6 :: [] ∧
    (offering 0x000fffff#32).inbox = .command 0x000fffff#32 5 6 :: [] := by decide

/-- A step that raises a counter, with no reset offered. -/
theorem witness_CountersFallOnlyByReset :
    (∀ e ∈ (offering 0x0000000e#32).inbox, ¬e.assertsRst) ∧
    step (offering 0x0000000e#32) = .next (next (offering 0x0000000e#32)) := by
  refine ⟨by simp [offering, HostEvent.assertsRst], ?_⟩
  have h : step (offering 0x0000000e#32) =
      exec (decode 0x0000000e#32) (((offering 0x0000000e#32).withInbox []).accept (decode 0x0000000e#32) 5 6) := rfl
  rw [next, h, exec_after]

/-- Nothing offered, a stuck command, and an asserted `rst`. -/
theorem witness_StuckCommandHoldsTheBlock :
    State.reset.cmdReady = true ∧ State.reset.inbox = [] ∧ stuckState.waiting ≠ none ∧ (∀ e ∈ stuckState.inbox, e.held) ∧
    resetHeldState.rst = true ∧ ∀ e ∈ resetHeldState.inbox, e.held :=
  ⟨rfl, rfl, by decide, held_of_asynchronous _ (by decide), rfl, held_of_asynchronous _ (by decide)⟩

/-- `rst` driven as the next event, asserted and released. -/
theorem witness_ResetEventSetsTheResetValues_next :
    ({ State.reset with inbox := [.rst true, .strideWrite 3] } : State).inbox = [] ++ .rst true :: [.strideWrite 3] ∧
    ({ resetHeldState with inbox := [.rst false] } : State).inbox = [] ++ .rst false :: [] := by decide

/-- `rst` asserted behind what a stuck command holds up, and released behind what an asserted `rst` does. -/
theorem witness_ResetEventSetsTheResetValues_held :
    let held : List HostEvent := [.command 0#32 0 0, .strideWrite 3]
    let s : State := { stuckState with inbox := held ++ .rst true :: [.backendInit] }
    let s' : State := { resetHeldState with inbox := held ++ .rst false :: [] }
    s.inbox = held ++ .rst true :: [.backendInit] ∧ s.cmdReady = false ∧ s'.inbox = held ++ .rst false :: [] ∧
    s'.cmdReady = false ∧ ∀ e ∈ held, e.held :=
  ⟨rfl, rfl, rfl, rfl, held_of_asynchronous _ (by decide)⟩

/-- `rst` during a STORE, after none and after all of its three stores, and during a command that stores nothing. -/
theorem witness_ResetEventSetsTheResetValues_abandoned :
    let s (n : Nat) : State := { setup 3 0 [5, -6, 7] [] with inbox := [.abandonedCommand 0x0000800d#32 0x1000 0 n] }
    (s 3).cmdReady = true ∧ (s 3).inbox = .abandonedCommand 0x0000800d#32 0x1000 0 3 :: [] ∧
    decode 0x0000800d#32 = .store 1 ∧ (s 3).outside.mem.wf = true ∧ (s 3).vl ≤ 32 ∧ 3 = min 3 (s 3).vl ∧
    0 = min 0 (s 0).vl ∧ ({ s 3 with xs1 := 0x1000 } : State).answeredElements .store 3 ∧
    (∀ j, j < 3 → 0 < j → elementAddress 0x1000 (s 3).stride j ≠ elementAddress 0x1000 (s 3).stride 0) ∧
    (∀ k, k < 3 → ¬({ s 3 with xs1 := 0x1000 } : State).byteOfElement k 0x1006) ∧
    ∀ rs2, decode 0x0000000e#32 ≠ .store rs2 := by
  refine ⟨by decide, rfl, by decide, by decide, by decide, by decide, by decide, by decide +kernel, by decide +kernel,
    by decide +kernel, fun rs2 => ?_⟩
  rw [test_decode_dump]; simp

/-- `rst` during a STORE whose second access faults or is never answered, its first answered by a device. -/
theorem witness_ResetEventSetsTheResetValues_abandoned_stops :
    let s (h : HostAnswer) : State := deviceThen
      { setup 3 0x1000 [5, -6, 7] [] with inbox := [.abandonedCommand 0x0000800d#32 0x1000 0 3] } 0x1000 0x1002 h
    (s .fault).cmdReady = true ∧ (s .fault).outside.mem.wf = true ∧ (s .fault).vl ≤ 32 ∧ 1 ≤ min 3 (s .fault).vl ∧
    (s .fault).answeredElements .store 1 ∧ (s .never).answeredElements .store 1 ∧
    (s .fault).outside.answer .store (elementAddress 0x1000 (s .fault).stride 1) = .fault ∧
    (s .never).outside.answer .store (elementAddress 0x1000 (s .never).stride 1) = .never := by decide +kernel

/-- The reset state is legal and steps to itself while nothing is offered. -/
theorem witness_EveryStepKeepsTheStateLegal : State.reset.legal ∧ step State.reset = .next State.reset :=
  ⟨⟨by decide, by decide, lutReference_legal.1, by decide, by decide, by decide, by decide, by decide⟩, rfl⟩

/-- A state with `rst` asserted, in which the last clause of legality says something, and the step that asserts it. -/
theorem witness_EveryStepKeepsTheStateLegal_rst :
    State.reset.applyRst.legal ∧ State.reset.applyRst.rst = true ∧
    step { State.reset with inbox := [.rst true] } = .next State.reset.applyRst :=
  ⟨⟨by decide, by decide, lutReference_legal.1, by decide, by decide, by decide, by decide,
    fun _ => State.applyRst_hasResetValues _⟩, rfl, rfl⟩

theorem witness_EveryStepKeepsTheParameters : step State.reset = .next State.reset := rfl

theorem witness_StrideSideBandActsBetweenCommands :
    ({ State.reset with inbox := [.strideWrite 3] } : State).cmdReady = true ∧
    ({ State.reset with inbox := [.strideWrite 3] } : State).inbox = .strideWrite 3 :: [] ∧
    ({ stuckState with inbox := [.strideWrite 3] } : State).cmdReady = false ∧
    ({ stuckState with inbox := [.strideWrite 3] } : State).inbox = [.strideWrite 3] ∧
    ({ resetHeldState with inbox := [.strideWrite 3] } : State).cmdReady = false := by decide

theorem witness_BridgeReadyIsSetOnceAndKept :
    ({ State.reset with inbox := [.backendInit] } : State).cmdReady = true ∧
    ({ State.reset with inbox := [.backendInit] } : State).inbox = .backendInit :: [] ∧
    step { State.reset with bridgeReady := true } = .next { State.reset with bridgeReady := true } ∧
    exec (.dotp 1 2) (setup 4 0 [1] [2]) = .next (after (.dotp 1 2) (setup 4 0 [1] [2])) :=
  ⟨by decide, by decide, rfl, exec_after _ _⟩

theorem witness_OnlyTheTenWritingCommandsChangeRegisters :
    (Instr.addVV 3 1 2).wf = true ∧ exec (.addVV 3 1 2) State.reset = .next (after (.addVV 3 1 2) State.reset) ∧
    destinationOf (.addVV 3 1 2) ≠ some 1 ∧ (Instr.store 3).wf = true ∧
    exec (.store 3) State.reset = .next (after (.store 3) State.reset) ∧ destinationOf (.store 3) ≠ some 3 :=
  ⟨rfl, exec_after _ _, by decide, rfl, exec_after _ _, by decide⟩

/-- Lane 4 is the first tail lane for `VL = 4`, lane 31 the last. -/
theorem witness_CompletedWriteZeroesTheTail :
    let s := setup 4 1 [1, 2, 3, 4, 5] [1, 1, 1, 1, 1]
    exec (.addVS 3 2) s = .next (after (.addVS 3 2) s) ∧ destinationOf (.addVS 3 2) = some 3 ∧
    (after (.addVS 3 2) s).resp.valid = true ∧ (after (.addVS 3 2) s).resp.fault = false ∧ s.vl ≤ 4 ∧ s.vl ≤ 31 :=
  ⟨exec_after _ _, rfl, by decide +kernel, by decide +kernel, by decide, by decide⟩

/-- Each configuration register changed by its own writer. -/
theorem witness_ConfigurationHasOneWriterEach :
    let s := poke (setup 2 0x1 [] []) 0x1 [1, 2, 3, 4]
    (after (.configMask 2) s).maskOf 2 ≠ s.maskOf 2 ∧ (after .configMatrix s).cell 0 0 ≠ s.cell 0 0 ∧
    (after .configVL s).vl ≠ s.vl := by decide +kernel

theorem witness_FaultsOtherThanMemoryFaultsArePrecise :
    (after (.divVS 3 2) (setup 4 0 [] [7])).resp.fault = true ∧
    (after (.divVS 3 2) (setup 4 0 [] [7])).resp.cause ≠ 5 := by decide +kernel

/-- Each cause at a boundary of its condition: VL 0 and 33, selector 3, mode 2, kind 1, divisor 0, indices -1 and 32, a
faulting access, a backend that is not ready. -/
theorem witness_FaultCausesAreThoseOfTheTable :
    (after .configVL (setup 4 0 [] [])).resp.cause = 1 ∧ (after .configVL (setup 4 33 [] [])).resp.cause = 1 ∧
    (after (.configIllegalSelector 3) State.reset).resp.cause = 1 ∧
    (after (.minmaxIllegalMode 1 2) State.reset).resp.cause = 2 ∧
    (after (.activationIllegalKind 2 1 1) State.reset).resp.cause = 2 ∧
    (after (.divVS 3 2) State.reset).resp.cause = 3 ∧
    (after (.shuffle 4 1 2) (setup 4 0 [] [0, 0, 0, -1])).resp.cause = 4 ∧
    (after (.shuffle 4 1 2) (setup 4 0 [] [32])).resp.cause = 4 ∧
    (after (.load 6) (answering State.reset 0 .fault)).resp.cause = 5 ∧
    (after (.dotp 1 2) State.reset).resp.cause = 6 ∧ (after (.mvm 3 1) State.reset).resp.cause = 6 := by decide +kernel

/-- The condition of cause 5 at the first and at the last element, for loads, for stores and for the matrix block. -/
theorem witness_FaultCausesAreThoseOfTheTable_memory :
    let s := answering (setup 3 0x1000 [] []) 0x1000 .fault
    let s' := answering (setup 3 0x1000 [] []) 0x1004 .fault
    let s'' := answering (setup 2 0x1000 [] []) 0x1006 .fault
    s.faultsWithin .load 3 ∧ s.faultsWithin .store 3 ∧ s'.faultsWithin .load 3 ∧ s'.faultsWithin .store 3 ∧
    s''.faultsWithin .load 4 ∧ (after .configMatrix s'').resp.cause = 5 ∧ (after (.store 3) s').resp.cause = 5 := by
  refine ⟨⟨0, ?_⟩, ⟨0, ?_⟩, ⟨2, ?_⟩, ⟨2, ?_⟩, ⟨3, ?_⟩, ?_, ?_⟩ <;> decide +kernel

theorem witness_CommandsIgnoreXs2AndTheActivationPort :
    exec (.load 6) State.reset = .next (after (.load 6) State.reset) := exec_after _ _

theorem witness_DivVSTruncatesOrFaults :
    (setup 4 1 [] [7]).xs1 ≠ 0 ∧ (setup 4 0 [] [7]).xs1 = 0 ∧ 3 < (setup 4 1 [] [7]).vl ∧
    ((setup 4 1 [] [7]).maskOf 2).getLsbD 3 = true ∧ (setup 4 1 [] [7]).divFn = .truncating ∧
    ({ setup 4 1 [] [7] with divFn := .external } : State).divFn = .external := by decide +kernel

/-- The extreme sums 32767 and -32768 are in range. -/
theorem witness_InRangeSumsDoNotDependOnTheOverflowRule :
    let s := setup 2 0 [32766, -32767] [1, -1]
    (∀ i : Fin 32, i.val < s.vl → -32768 ≤ s.maskedValue 1 i + s.maskedValue 2 i ∧
      s.maskedValue 1 i + s.maskedValue 2 i ≤ 32767) ∧
    exec (.addVV 3 1 2) { s with overflow := .wrap } = .next (after (.addVV 3 1 2) { s with overflow := .wrap }) ∧
    exec (.addVV 3 1 2) { s with overflow := .saturate } =
      .next (after (.addVV 3 1 2) { s with overflow := .saturate }) :=
  ⟨by decide +kernel, exec_after _ _, exec_after _ _⟩

theorem witness_WrappingLaneLaws :
    (setup 4 2 [] [3]).overflow = .wrap ∧
    exec (.mulVS 3 2) (setup 4 2 [] [3]) = .next (after (.mulVS 3 2) (setup 4 2 [] [3])) ∧
    exec (.mulVS 3 2) { setup 4 2 [] [3] with xs1 := (setup 4 2 [] [3]).xs1 + 65536 } =
      .next (after (.mulVS 3 2) { setup 4 2 [] [3] with xs1 := (setup 4 2 [] [3]).xs1 + 65536 }) ∧
    exec (.subVV 3 1 1) (setup 4 2 [] [3]) = .next (after (.subVV 3 1 1) (setup 4 2 [] [3])) :=
  ⟨rfl, exec_after _ _, exec_after _ _, exec_after _ _⟩

/-- Each of the six commands is one of the forms; DIV.VS with a nonzero divisor. -/
theorem witness_DestinationMayBeASource :
    (setup 4 2 [] [3]).xs1 ≠ 0 ∧
    exec ((fun r => Instr.divVS r 2) 2) (setup 4 2 [] [3]) = .next (after (.divVS 2 2) (setup 4 2 [] [3])) ∧
    exec ((fun r => Instr.divVS r 2) 3) (setup 4 2 [] [3]) = .next (after (.divVS 3 2) (setup 4 2 [] [3])) ∧
    exec ((fun r => Instr.addVV r 1 2) 1) State.reset = .next (after (.addVV 1 1 2) State.reset) :=
  ⟨by decide +kernel, exec_after _ _, exec_after _ _, exec_after _ _⟩

/-- Indices 0 and 31 are in range, -1 and 32 are not. -/
theorem witness_ShuffleGathersOrFaults :
    (∀ i : Fin 32, i.val < (setup 2 0 [] [0, 31]).vl → 0 ≤ ((setup 2 0 [] [0, 31]).lane 2 i).toInt ∧
      ((setup 2 0 [] [0, 31]).lane 2 i).toInt ≤ 31) ∧
    ((setup 2 0 [] [0, 31]).lane 2 1).toInt = (31 : Fin 32).val ∧
    ((setup 2 0 [] [0, -1]).lane 2 1).toInt < 0 ∧ 31 < ((setup 1 0 [] [32]).lane 2 0).toInt := by decide +kernel

theorem witness_ActivationIsReluOrFaults : 1 ≤ (1 : Reg).toNat ∧ 1 ≤ (31 : Reg).toNat := by decide
theorem witness_MinmaxReducesOrFaults : 2 ≤ (2 : Reg).toNat ∧ 2 ≤ (31 : Reg).toNat := by decide
theorem witness_BackendCommandsFaultBeforeInitialization : State.reset.bridgeReady = false := by decide

/-- The buffers of 7.3, with the reference backend and with another one. -/
theorem witness_DotpReturnsTheSignExtendedLowHalf :
    let s := (setup 4 0 [1, 2, 3, 4] [5, 6, 7, 8]).setMask 2 6#32
    s.bridgeReady = true ∧ s.outside.backend = .reference ∧
    (backed s .external).bridgeReady = true ∧ (backed s .external).outside.backend = .external ∧
    (∀ i : Fin 32, (lanes [1, 2, 3, 4])[i].toInt =
      if i.val < (backed s .external).vl then (backed s .external).maskedValue 1 i else 0) ∧
    (∀ i : Fin 32, (lanes [0, 6, 7])[i].toInt =
      if i.val < (backed s .external).vl then (backed s .external).maskedValue 2 i else 0) := by decide +kernel

theorem witness_MvmIsRowTimesVector :
    (setup 2 0 [5, 6] []).bridgeReady = true ∧ (setup 2 0 [5, 6] []).outside.backend = .reference := by decide

theorem witness_MvmWritesAnyBackendsAnswers :
    let s := backed ((setup 2 0 [5, 6, 9] []).setMatrix matrix7) .external
    s.bridgeReady = true ∧ s.outside.backend = .external ∧
    (∀ row col : Fin 32, s.matrixBuffer[row][col] = if row.val < s.vl ∧ col.val < s.vl then s.cell row col else 0) ∧
    (∀ i : Fin 32, (lanes [5, 6])[i].toInt = if i.val < s.vl then s.maskedValue 1 i else 0) :=
  ⟨rfl, rfl, State.matrixBuffer_getElem _, by decide +kernel⟩

theorem witness_SilentBackendLeavesTheBlockStuck :
    (backed (setup 2 0 [] []) .silent).bridgeReady = true ∧ (backed (setup 2 0 [] []) .silent).outside.backend = .silent :=
  ⟨rfl, rfl⟩

/-- 1 and 32 are accepted, 0 and 33 are not. -/
theorem witness_SetVLAcceptsOneToThirtyTwo :
    (1 ≤ (setup 4 1 [] []).xs1.toNat ∧ (setup 4 32 [] []).xs1.toNat ≤ 32) ∧ (setup 4 0 [] []).xs1.toNat < 1 ∧
    32 < (setup 4 33 [] []).xs1.toNat := by decide

theorem witness_OtherConfigSelectorsFault : 3 ≤ (3 : Reg).toNat ∧ 3 ≤ (31 : Reg).toNat := by decide

/-- The reset host memory answers every access as plain memory; `VL = 32` is the largest block. -/
theorem witness_LoadMatrixFillsTheBlockRowByRow :
    State.reset.vl ≤ 32 ∧ State.reset.plainElements .load (State.reset.vl * State.reset.vl) :=
  ⟨by decide, fun _ _ => rfl⟩

/-- The first access faults, and the last one of a 2x2 block does, once after plain memory and once after a device. -/
theorem witness_MatrixLoadFaultSparesTheRest :
    let s := answering (setup 2 0x1000 [] []) 0x1000 .fault
    let s' := answering (setup 2 0x1000 [] []) 0x1006 .fault
    let d := deviceThen (setup 2 0x1000 [] []) 0x1002 0x1006 .fault
    s.vl ≤ 32 ∧ 0 < s.vl * s.vl ∧ s.answeredElements .load 0 ∧
    s.outside.answer .load (elementAddress s.xs1 s.stride 0) = .fault ∧
    s'.vl ≤ 32 ∧ 3 < s'.vl * s'.vl ∧ s'.answeredElements .load 3 ∧
    s'.outside.answer .load (elementAddress s'.xs1 s'.stride 3) = .fault ∧
    d.vl ≤ 32 ∧ 3 < d.vl * d.vl ∧ d.answeredElements .load 3 ∧ ¬d.plainElements .load 3 ∧
    d.outside.answer .load (elementAddress d.xs1 d.stride 3) = .fault := by decide +kernel

theorem witness_LoadReadsTheElementsInOrder :
    State.reset.vl ≤ 32 ∧ State.reset.plainElements .load State.reset.vl := ⟨by decide, fun _ _ => rfl⟩

/-- The first access faults, and the last one does, once after plain memory and once after a device. -/
theorem witness_LoadFaultSparesTheRest :
    let s := answering (setup 3 0x1000 [] []) 0x1000 .fault
    let s' := answering (setup 3 0x1000 [] []) 0x1004 .fault
    let d := deviceThen (setup 3 0x1000 [] []) 0x1002 0x1004 .fault
    s.vl ≤ 32 ∧ 0 < s.vl ∧ s.answeredElements .load 0 ∧
    s.outside.answer .load (elementAddress s.xs1 s.stride 0) = .fault ∧
    s'.vl ≤ 32 ∧ 2 < s'.vl ∧ s'.answeredElements .load 2 ∧
    s'.outside.answer .load (elementAddress s'.xs1 s'.stride 2) = .fault ∧
    d.vl ≤ 32 ∧ 2 < d.vl ∧ d.answeredElements .load 2 ∧ ¬d.plainElements .load 2 ∧
    d.outside.answer .load (elementAddress d.xs1 d.stride 2) = .fault := by decide +kernel

/-- With STRIDE 1 every element is the last of its address; with STRIDE 0 only the last lane is. -/
theorem witness_StoreWritesTheActiveLanes :
    let s := setup 3 0x1000 [1, 2, 3] []
    let s' := { setup 3 0x1000 [1, 2, 3] [] with stride := 0 }
    s.vl ≤ 32 ∧ s.outside.mem.wf = true ∧ s.plainElements .store s.vl ∧
    (∀ j, j < s.vl → 0 < j → elementAddress s.xs1 s.stride j ≠ elementAddress s.xs1 s.stride 0) ∧
    s'.plainElements .store s'.vl ∧ (∀ j, j < s'.vl → ¬2 < j) ∧
    (∀ k, k < s.vl → ¬s.byteOfElement k 0x1006) := by decide +kernel

/-- The last access faults, once after plain memory and once after a device, and the first one does. -/
theorem witness_StoreFaultKeepsTheEarlierElements :
    let s := answering (setup 3 0x1000 [5, -6, 7] []) 0x1004 .fault
    let s' := answering (setup 3 0x1000 [5, -6, 7] []) 0x1000 .fault
    let d := deviceThen (setup 3 0x1000 [5, -6, 7] []) 0x1002 0x1004 .fault
    s.vl ≤ 32 ∧ s.outside.mem.wf = true ∧ 2 < s.vl ∧ s.answeredElements .store 2 ∧
    s.outside.answer .store (elementAddress s.xs1 s.stride 2) = .fault ∧
    (∀ j, j < 2 → 0 < j → elementAddress s.xs1 s.stride j ≠ elementAddress s.xs1 s.stride 0) ∧
    s'.answeredElements .store 0 ∧ s'.outside.answer .store (elementAddress s'.xs1 s'.stride 0) = .fault ∧
    d.vl ≤ 32 ∧ d.outside.mem.wf = true ∧ 2 < d.vl ∧ d.answeredElements .store 2 ∧ ¬d.plainElements .store 2 ∧
    d.outside.answer .store (elementAddress d.xs1 d.stride 0) = .plain ∧
    d.outside.answer .store (elementAddress d.xs1 d.stride 2) = .fault := by decide +kernel

/-- The last access is never answered, once after plain memory and once after a device. -/
theorem witness_UnansweredAccessLeavesTheBlockStuck :
    let s := answering (setup 2 0x1000 [5, -6] []) 0x1002 .never
    let s' := answering (setup 2 0x1000 [] []) 0x1006 .never
    let d := deviceThen (setup 3 0x1000 [5, -6, 7] []) 0x1002 0x1004 .never
    let d' := deviceThen (setup 2 0x1000 [] []) 0x1002 0x1006 .never
    (s.vl ≤ 32 ∧ 1 < s.vl ∧ s.outside.mem.wf = true ∧ s.answeredElements .load 1 ∧ s.answeredElements .store 1 ∧
      s.outside.answer .load (elementAddress s.xs1 s.stride 1) = .never ∧
      s.outside.answer .store (elementAddress s.xs1 s.stride 1) = .never) ∧
    (3 < s'.vl * s'.vl ∧ s'.answeredElements .load 3 ∧
      s'.outside.answer .load (elementAddress s'.xs1 s'.stride 3) = .never) ∧
    (d.vl ≤ 32 ∧ 2 < d.vl ∧ d.outside.mem.wf = true ∧ d.answeredElements .load 2 ∧ d.answeredElements .store 2 ∧
      ¬d.plainElements .store 2 ∧ d.outside.answer .load (elementAddress d.xs1 d.stride 2) = .never ∧
      d.outside.answer .store (elementAddress d.xs1 d.stride 2) = .never) ∧
    (3 < d'.vl * d'.vl ∧ d'.answeredElements .load 3 ∧ ¬d'.plainElements .load 3 ∧
      d'.outside.answer .load (elementAddress d'.xs1 d'.stride 3) = .never) := by decide +kernel

/-- Three lanes, STRIDE 1, plain memory: the addresses are pairwise distinct. STRIDE 2^58 is no multiple of 2^59. -/
theorem witness_StoreThenLoadReproducesTheRegister :
    let s := setup 3 0x1000 [1, 2, 3] []
    let s' := { State.reset with stride := 0x400000000000000 }
    s.vl ≤ 32 ∧ s.outside.mem.wf = true ∧ s.plainElements .store s.vl ∧ s.plainElements .load s.vl ∧
    (∀ k, k < s.vl → ∀ j, j < k → elementAddress s.xs1 s.stride j ≠ elementAddress s.xs1 s.stride k) ∧
    s'.vl ≤ 32 ∧ ¬(2 ^ 59 ∣ s'.stride.toNat) := by decide +kernel

/-- The first and the last address of the host memory, and a write that a stuck command and an asserted `rst` hold up. -/
theorem witness_HostWriteChangesOneByte :
    let w : Word64 → List HostEvent := fun a => [.hostWrite a 7]
    ({ State.reset with inbox := w 0 } : State).cmdReady = true ∧ State.reset.outside.mem.wf = true ∧
    ({ State.reset with inbox := w 0xffffffffffffffff } : State).inbox = .hostWrite 0xffffffffffffffff 7 :: [] ∧
    ({ stuckState with inbox := w 0 } : State).cmdReady = false ∧
    ({ resetHeldState with inbox := w 0 } : State).inbox = [.hostWrite 0 7] := by decide

/-- A device at the second of two elements, the first being plain memory; and one at the last of a 2x2 block. -/
theorem witness_DeviceAccessesLeaveMemoryAlone :
    let s := answering (setup 2 0x1000 [5, -6] []) 0x1002 .device
    let s' := answering (setup 2 0x1000 [] []) 0x1006 .device
    s.vl ≤ 32 ∧ s.outside.mem.wf = true ∧ s.answeredElements .load s.vl ∧ s.answeredElements .store s.vl ∧
    s.outside.answer .store (elementAddress s.xs1 s.stride 0) = .plain ∧
    s.outside.answer .store (elementAddress s.xs1 s.stride 1) = .device ∧
    (∀ j, j < s.vl → 0 < j → elementAddress s.xs1 s.stride j ≠ elementAddress s.xs1 s.stride 0) ∧
    (∀ k, k < s.vl → s.outside.answer .store (elementAddress s.xs1 s.stride k) = .plain → ¬s.byteOfElement k 0x1002) ∧
    s'.answeredElements .load (s'.vl * s'.vl) ∧
    s'.outside.answer .load (elementAddress s'.xs1 s'.stride 0) = .plain ∧
    s'.outside.answer .load (elementAddress s'.xs1 s'.stride 3) = .device := by decide +kernel

theorem witness_UnrecognizedCommandsAreReportedNoOps :
    Instr.unrecognizedOp15.isUnrecognized = true ∧ (Instr.unrecognizedOp16to31 16).isUnrecognized = true ∧
    (Instr.unrecognizedReserved 1).isUnrecognized = true := by decide

/-- A request on the activation port as the next event while a command is stuck, and behind what an asserted `rst` holds. -/
theorem witness_DirectPortAnswersAtAnyTime :
    let held : List HostEvent := [.command 0#32 0 0, .strideWrite 3]
    let s : State := { resetHeldState with inbox := held ++ .activation 3 5 0 :: [] }
    ({ stuckState with inbox := [.activation 3 5 0, .rst true] } : State).inbox =
      [] ++ .activation 3 5 0 :: [.rst true] ∧
    s.inbox = held ++ .activation 3 5 0 :: [] ∧ s.cmdReady = false ∧ ∀ e ∈ held, e.held :=
  ⟨rfl, rfl, rfl, held_of_asynchronous _ (by decide)⟩

theorem witness_PreScaleWrapsOnlyFromShiftFifteen : (14 : BitVec 5).toNat ≤ 14 := by decide
theorem witness_ZeroInputIsTheMidpoint : lutLegal lutReference := lutReference_legal.1
theorem witness_ActivationOutputsStayInRange :
    lutLegal lutReference ∧ (14 : BitVec 5).toNat ≤ 14 ∧ lutEntry lutReference 254 ≤ 65534 :=
  ⟨lutReference_legal.1, by decide, lutReference_legal.2⟩
theorem witness_SigmoidAndTanhAreSymmetric :
    lutLegal lutReference ∧ (14 : BitVec 5).toNat ≤ 14 ∧ (-32767 : Lane).toInt ≠ -32768 ∧
    lutEntry lutReference 254 ≤ 65534 :=
  ⟨lutReference_legal.1, by decide, by decide, lutReference_legal.2⟩
theorem witness_SigmoidAndTanhAreMonotone :
    lutLegal lutReference ∧ (14 : BitVec 5).toNat ≤ 14 ∧ (-32768 : Lane).toInt ≤ (32767 : Lane).toInt ∧
    lutEntry lutReference 254 ≤ 65534 :=
  ⟨lutReference_legal.1, by decide, by decide, lutReference_legal.2⟩

/-- The ranges of the interpolation statement meet at 130560 and 65280. -/
theorem witness_InterpolationIsExactBelowSaturation :
    130560 ≤ (130560 : Nat) ∧ (130559 : Nat) < 130560 ∧ 65280 ≤ (65280 : Nat) ∧ (65279 : Nat) < 65280 ∧
    lutLegal lutReference := ⟨by decide, by decide, by decide, by decide, lutReference_legal.1⟩

end Sys2Proof.Tests
end

section
/-! What every command and every served event leaves unchanged: the harness counters (46_dump_unknown.md R261) and the
parameters (00_scope.md R7). -/

namespace Sys2Proof.Machine

/-! The counters. -/

/-- Only accepting a command counts it: no command's own rule touches a counter (R261). -/
theorem Effect.counts_eq {i : Instr} {s t : State} (h : Effect i s t) : t.counts = s.counts := by
  cases h <;> simp

theorem State.accept_counts_getElem (s : State) (i : Instr) (xs1 xs2 : Word64) (n : Fin 16) :
    (s.accept i xs1 xs2).counts[n] = s.counts[n] + (if n.val = i.displayName.index.val then 1 else 0) := by
  by_cases h : i.displayName.index.val = n.val
  · have hn : i.displayName.index = n := Fin.ext h
    subst hn
    simp [State.accept]
  · simp [State.accept, h, Ne.symm h]

/-- The counter of a command word: that of its opcode number, or UNKNOWN's from `op` 15 on or with a reserved bit set
(R74, R76, R261). -/
def counterOf (w : CmdWord) : Nat := if 15 ≤ w.toNat % 32 ∨ 2 ^ 20 ≤ w.toNat then 15 else w.toNat % 32

theorem opField_toNat (w : CmdWord) : (opField w).toNat = w.toNat % 32 := by
  simp [opField, BitVec.extractLsb'_toNat]

theorem reservedField_eq_zero_iff (w : CmdWord) : reservedField w = 0 ↔ w.toNat < 2 ^ 20 := by
  have hw := w.isLt
  rw [← BitVec.toNat_inj]
  simp only [reservedField, BitVec.extractLsb'_toNat, Nat.shiftRight_eq_div_pow, BitVec.ofNat_eq_ofNat,
    BitVec.toNat_zero]
  omega

theorem displayName_decodeActivation (rd rs1 kind : Reg) :
    (decodeActivation rd rs1 kind).displayName = .activation := by
  unfold decodeActivation; split <;> rfl

theorem displayName_decodeMinmax (rs1 mode : Reg) : (decodeMinmax rs1 mode).displayName = .minmax := by
  unfold decodeMinmax; split
  · rfl
  · split <;> rfl

theorem displayName_decodeConfig (sel rs2 : Reg) : (decodeConfig sel rs2).displayName = .config := by
  unfold decodeConfig; split
  · rfl
  · split
    · rfl
    · split <;> rfl

/-- A word of the opcode map counts under its opcode number, unless a reserved bit makes it unrecognized (R76). -/
theorem index_unlessReserved (w : CmdWord) (i : Instr) (k : Nat) (hop : (opField w).toNat = k) (hk : k < 15)
    (hi : i.displayName.index.val = k) :
    (unlessReserved (reservedField w) i).displayName.index.val = counterOf w := by
  rw [opField_toNat] at hop
  unfold unlessReserved counterOf
  split
  next hr =>
    rw [reservedField_eq_zero_iff] at hr
    rw [hi, if_neg (by omega), hop]
  next hr =>
    rw [reservedField_eq_zero_iff] at hr
    rw [if_pos (.inr (by omega))]
    rfl

theorem decode_displayName_index (w : CmdWord) : (decode w).displayName.index.val = counterOf w := by
  have unknown : 15 ≤ (opField w).toNat → counterOf w = 15 := fun h =>
    if_pos (.inl (opField_toNat w ▸ h))
  unfold decode
  split
  next h => exact index_unlessReserved w _ 0 h (by decide) rfl
  next h => exact index_unlessReserved w _ 1 h (by decide) rfl
  next h => exact index_unlessReserved w _ 2 h (by decide) rfl
  next h => exact index_unlessReserved w _ 3 h (by decide) rfl
  next h => exact index_unlessReserved w _ 4 h (by decide) rfl
  next h => exact index_unlessReserved w _ 5 h (by decide) rfl
  next h => exact index_unlessReserved w _ 6 h (by decide) rfl
  next h => exact index_unlessReserved w _ 7 h (by decide) (by rw [displayName_decodeActivation]; rfl)
  next h => exact index_unlessReserved w _ 8 h (by decide) (by rw [displayName_decodeMinmax]; rfl)
  next h => exact index_unlessReserved w _ 9 h (by decide) rfl
  next h => exact index_unlessReserved w _ 10 h (by decide) rfl
  next h => exact index_unlessReserved w _ 11 h (by decide) (by rw [displayName_decodeConfig]; rfl)
  next h => exact index_unlessReserved w _ 12 h (by decide) rfl
  next h => exact index_unlessReserved w _ 13 h (by decide) rfl
  next h => exact index_unlessReserved w _ 14 h (by decide) rfl
  next h => exact (unknown h.ge).symm
  next => exact (unknown (by simp only [imp_false] at *; omega)).symm

/-- A block that accepts commands runs the command offered first. -/
theorem step_of_ready_command (s : State) (w : CmdWord) (x1 x2 : Word64) (rest : List HostEvent)
    (hr : s.cmdReady = true) (hi : s.inbox = .command w x1 x2 :: rest) :
    step s = exec (decode w) ((s.withInbox rest).accept (decode w) x1 x2) := by
  simp only [step, hr, hi, nextEvent_ready]

/-- Settles O7: the command is counted when it is accepted, under its word's opcode number, and its own rule answers a
next state with the counters as they are. -/
theorem everyCommandIsCountedOnce : Obligations.EveryCommandIsCountedOnce := by
  intro s w x1 x2 rest hr hi
  obtain ⟨t, ht, he⟩ := exec_effect (decode w) ((s.withInbox rest).accept (decode w) x1 x2)
  refine ⟨t, (step_of_ready_command s w x1 x2 rest hr hi).trans ht, fun n => ?_⟩
  rw [he.counts_eq, State.accept_counts_getElem, decode_displayName_index, State.withInbox_counts]
  rfl

/-! The parameters. -/

/-- No command changes a parameter (R7). -/
theorem Effect.sameParameters {i : Instr} {s t : State} (h : Effect i s t) : s.sameParameters t := by
  cases h with
  | matrixLoaded o hk | matrixFault o hk | matrixStuck o hk | loaded o hk | loadFault o hk | loadStuck o hk =>
    obtain ⟨-, horder, hregions, hbackend⟩ := hk
    simp [State.sameParameters, horder, hregions, hbackend]
  | stored o hk | storeFault o hk | storeStuck o hk =>
    obtain ⟨⟨horder, hregions, hbackend⟩, -⟩ := hk
    simp [State.sameParameters, horder, hregions, hbackend]
  | _ => simp [State.sameParameters]

/-- No other event changes one: even an abandoned command changes at most the memory, the calls and the free values behind
the ports. -/
theorem State.serve_sameParameters (s : State) (e : HostEvent) : s.sameParameters (s.serve e) := by
  cases e with
  | rst asserted => cases asserted <;> exact ⟨rfl, rfl, rfl, rfl, rfl, rfl, rfl⟩
  | abandonedCommand cmd xs1 xs2 n =>
    obtain ⟨⟨horder, hregions, hbackend⟩, -⟩ :=
      (s.accept (decode cmd) xs1 xs2).outsideAfter_keeps (decode cmd) n
    exact ⟨rfl, rfl, rfl, rfl, horder, hregions, hbackend⟩
  | _ => exact ⟨rfl, rfl, rfl, rfl, rfl, rfl, rfl⟩

/-- Settles O14, by what a step can do: wait, run an accepted command, or serve another event. -/
theorem everyStepKeepsTheParameters : Obligations.EveryStepKeepsTheParameters := by
  intro s t h
  rcases step_cases s with ⟨-, hs⟩ | ⟨w, x1, x2, rest, -, hs⟩ | ⟨e, rest, -, -, hs⟩
  · cases hs.symm.trans h
    exact ⟨rfl, rfl, rfl, rfl, rfl, rfl, rfl⟩
  · exact (effect_of_exec _ _ _ (hs.symm.trans h)).sameParameters
  · cases hs.symm.trans h
    exact (s.withInbox rest).serve_sameParameters e

end Sys2Proof.Machine
end

section
/-! DIV.VS (41_lane_arith.md R148), over the frames of the shared ways of ending a command and the law of the
vector-scalar commands. -/

namespace Sys2Proof.Machine

/-- A fault changes the response and the host trap alone (60_exceptions.md R305, R306). -/
theorem State.raise_frame (s : State) (c : FaultCause) :
    (s.raise c).faultedWith c.code (s.faultMap.trapFor c) ∧ s.sameBlock (s.raise c) ∧ s.sameSurroundings (s.raise c) := by
  exact ⟨⟨rfl, rfl, rfl, rfl, rfl, rfl⟩, ⟨fun _ => rfl, fun _ => rfl, fun _ _ => rfl, rfl, rfl⟩,
    ⟨rfl, rfl, rfl, rfl, rfl, rfl, rfl⟩, ⟨rfl, rfl, rfl⟩, ⟨rfl, rfl, rfl, rfl, rfl, rfl, rfl⟩, fun _ => rfl, rfl, rfl⟩

/-- A command that writes `V[rd]` and completes changes nothing else but the response and the host trap. -/
theorem State.writeReg_complete_frame (s : State) (rd : Reg) (f : Fin 32 → Lane) (r : Word64) :
    s.sameBlockButReg ((s.writeReg rd f).complete r) rd ∧ s.sameSurroundings ((s.writeReg rd f).complete r) ∧
    ((s.writeReg rd f).complete r).completedWith r := by
  exact ⟨⟨fun q hq => s.reg_writeReg_ne rd q f hq, fun _ => rfl, fun _ _ => rfl, rfl, rfl⟩,
    ⟨⟨rfl, rfl, rfl, rfl, rfl, rfl, rfl⟩, ⟨rfl, rfl, rfl⟩, ⟨rfl, rfl, rfl, rfl, rfl, rfl, rfl⟩, fun _ => rfl, rfl, rfl⟩,
    rfl, rfl, rfl, rfl, rfl, rfl⟩

/-- The lanes of a vector-scalar command: reduced where active and enabled, 0 elsewhere (R144). -/
theorem State.vectorScalar_lane (s : State) (op : Int → Int → Int) (rd rs2 : Reg) (i : Fin 32) :
    (s.vectorScalar op rd rs2).lane rd i =
      if i.val < s.vl ∧ (s.maskOf rs2).getLsbD i.val = true
      then fit16 s.overflow (op (s.lane rs2 i).toInt s.xs1.toInt) else 0 := by
  rw [State.vectorScalar, State.complete_lane, State.lane_writeReg_self, ite_and]
  refine if_congr Iff.rfl ?_ rfl
  by_cases he : s.enabled rs2 i = true
  · rw [if_pos he, State.masked, if_pos he]
    exact (if_pos he).symm
  · rw [if_neg he]
    exact (if_neg he).symm

/-- The remainder of truncating division is zero or of the sign of the dividend. -/
theorem tmod_mul_self_nonneg (a b : Int) : 0 ≤ a.tmod b * a := by
  rcases le_total 0 a with ha | ha
  · exact mul_nonneg (Int.tmod_nonneg b ha) ha
  · have h := mul_nonneg (Int.tmod_nonneg b (neg_nonneg.mpr ha)) (neg_nonneg.mpr ha)
    rwa [Int.neg_tmod, neg_mul_neg] at h

theorem abs_tmod_lt (a b : Int) (hb : b ≠ 0) : |a.tmod b| < |b| := by
  rw [Int.abs_eq_natAbs, Int.abs_eq_natAbs, Int.natAbs_tmod]
  exact_mod_cast Nat.mod_lt _ (Int.natAbs_pos.mpr hb)

/-- Settles O25: with a nonzero divisor the quotient is `Int.tdiv`, or the parameter's own, in every active enabled lane;
with divisor 0 the command raises its fault. -/
theorem divVSTruncatesOrFaults : Obligations.DivVSTruncatesOrFaults := by
  intro s rd rs2
  rcases execDivVS_cases rd rs2 s with ⟨h0, h⟩ | ⟨h0, h⟩
  · exact ⟨fun hn => absurd h0 hn, fun _ => ⟨_, h, s.raise_frame .arithmeticUndefined⟩⟩
  · have hb : s.xs1.toInt ≠ 0 := fun e => h0 (BitVec.eq_of_toInt_eq e)
    refine ⟨fun _ => ⟨_, h, fun i => ⟨fun hi => ?_, fun hi => ?_⟩, s.writeReg_complete_frame rd _ 0⟩,
      fun hz => absurd hz h0⟩
    · rw [State.vectorScalar_lane, if_pos hi, toInt_fit16]
      refine ⟨fun hf => ⟨_, _, (Int.tdiv_mul_add_tmod _ s.xs1.toInt).symm, abs_tmod_lt _ _ hb,
        tmod_mul_self_nonneg _ _, ?_⟩, fun hf => ?_⟩
      · rw [hf, DivFn.quotient]
      · rw [hf, DivFn.quotient]
    · rw [State.vectorScalar_lane, if_neg hi]

end Sys2Proof.Machine
end

section
/-! LOAD, STORE and CONFIG selector 2 at an access that is never answered (00_scope.md R11 (d)), over what a run of accesses
has done by then. -/

namespace Sys2Proof.Machine

/-- A state whose outside a run of loads left reads the same host memory. -/
theorem sameMemory_of_mem_eq {s t : State} (h : t.outside.mem = s.outside.mem) : s.sameMemory t := fun a =>
  congrArg (Memory.read · a.toNat) h

/-- A stuck command that has only used its ports: no register, input or harness state changes (R348). -/
theorem State.stall_withOutside_frame (s : State) (o : Outside) (w : Waiting) :
    ((s.withOutside o).stall w).stuckOn w ∧ s.sameBlock ((s.withOutside o).stall w) ∧
    s.sameInputs ((s.withOutside o).stall w) ∧ s.sameHarness ((s.withOutside o).stall w) := by
  exact ⟨⟨rfl, rfl, rfl, rfl, rfl⟩, ⟨fun _ => rfl, fun _ => rfl, fun _ _ => rfl, rfl, rfl⟩,
    ⟨rfl, rfl, rfl, rfl, rfl, rfl, rfl⟩, rfl, rfl, rfl⟩

theorem State.loadCalls_eq_loadsFrom (s : State) (n : Nat) : s.loadCalls n = loadsFrom s.xs1 s.stride 0 n := by
  rw [State.loadCalls, loadsFrom, List.range_eq_range']

/-- The run of loads of a command whose element `n` is never answered: it ends there, with the loads up to that one issued. -/
theorem State.loadRun_never (s : State) (m n : Nat) (hn : n < m) (ha : s.answeredElements .load n)
    (hs : s.outside.answer .load (elementAddress s.xs1 s.stride n) = .never) :
    (s.outside.loadRun s.xs1 s.stride m 0).ending = .never ∧
    (s.outside.loadRun s.xs1 s.stride m 0).outside.calls = (s.loadCalls (n + 1)).reverse ++ s.outside.calls := by
  obtain ⟨hend, hcalls, -⟩ := s.outside.loadRun_stops s.xs1 s.stride m 0 n .never hn
    (fun j _ hj => ha j (by omega)) (.inr ⟨rfl, by rwa [Nat.zero_add]⟩)
  exact ⟨hend, by rw [hcalls, s.loadCalls_eq_loadsFrom]⟩

theorem execLoad_never (rd : Reg) (s : State)
    (h : (s.outside.loadRun s.xs1 s.stride s.active 0).ending = .never) :
    execLoad rd s = .next ((s.withOutside (s.outside.loadRun s.xs1 s.stride s.active 0).outside).stall .memory) := by
  simp only [execLoad, h]

theorem execConfigMatrix_never (s : State)
    (h : (s.outside.loadRun s.xs1 s.stride (s.active * s.active) 0).ending = .never) :
    execConfigMatrix s =
      .next (((s.withOutside (s.outside.loadRun s.xs1 s.stride (s.active * s.active) 0).outside).fillMatrix
        (s.outside.loadRun s.xs1 s.stride (s.active * s.active) 0).values).stall .memory) := by
  simp only [execConfigMatrix, h]

/-! The stores of a command, lane by lane. -/

theorem storesFrom_append (base stride : Word64) (xs ys : List Lane) (k : Nat) :
    storesFrom base stride (xs ++ ys) k = storesFrom base stride xs k ++ storesFrom base stride ys (k + xs.length) := by
  induction xs generalizing k with
  | nil => rfl
  | cons x rest ih => simp [storesFrom, ih, Nat.add_assoc, Nat.add_comm 1]

theorem State.storeCalls_succ (s : State) (rs2 : Reg) (n : Nat) :
    s.storeCalls rs2 (n + 1) =
      s.storeCalls rs2 n ++ [.store (elementAddress s.xs1 s.stride n) (s.lane rs2 (Fin.ofNat 32 n))] := by
  simp [State.storeCalls, List.range_succ]

/-- Element `n` of the stored lanes is lane `n`. -/
theorem State.storedLanes_getElem_ofNat (s : State) (rs2 : Reg) (n : Nat) (h : n < (s.storedLanes rs2).length) :
    (s.storedLanes rs2)[n] = s.lane rs2 (Fin.ofNat 32 n) := by
  have h32 : n < 32 := lt_of_lt_of_le h (s.storedLanes_length rs2 ▸ Nat.min_le_right _ _)
  have hf : Fin.ofNat 32 n = ⟨n, h32⟩ := Fin.ext (Nat.mod_eq_of_lt h32)
  rw [hf]
  exact s.storedLanes_getElem rs2 ⟨n, h32⟩ h

theorem State.storesFrom_storedLanes (s : State) (rs2 : Reg) (n : Nat) (hn : n ≤ s.active) :
    storesFrom s.xs1 s.stride ((s.storedLanes rs2).take n) 0 = s.storeCalls rs2 n := by
  induction n with
  | zero => rfl
  | succ n ih =>
    have hlen : n < (s.storedLanes rs2).length := by rw [s.storedLanes_length]; omega
    rw [← List.take_append_getElem hlen, storesFrom_append, ih (by omega), s.storeCalls_succ,
      s.storedLanes_getElem_ofNat rs2 n hlen, List.length_take_of_le hlen.le, Nat.zero_add]
    rfl

/-- What the run of the first `n` stored lanes, every one of them answered, leaves in memory. -/
theorem State.storesElements_of_storeRun (s t : State) (rs2 : Reg) (n : Nat) (hn : n ≤ s.active)
    (hw : s.outside.mem.wf = true) (ha : s.answeredElements .store n)
    (hb : ∀ a, t.outside.byteAt a =
      (s.outside.storeRun s.xs1 s.stride ((s.storedLanes rs2).take n) 0).2.byteAt a)
    (hv : ∀ a, t.outside.valueAt a =
      (s.outside.storeRun s.xs1 s.stride ((s.storedLanes rs2).take n) 0).2.valueAt a) :
    s.storesElements t rs2 n := by
  have hlen : ((s.storedLanes rs2).take n).length = n := List.length_take_of_le (by rwa [s.storedLanes_length])
  obtain ⟨-, -, hbytes, hvalues⟩ := s.outside.storeRun_answered s.xs1 s.stride ((s.storedLanes rs2).take n) 0 hw
    (fun j _ hj => ha j (by omega))
  simp only [hlen, Nat.zero_add] at hbytes hvalues
  refine ⟨fun k hk hp hlast => ?_, fun a hout => ?_⟩
  · rw [hv, hvalues k.val hk hp hlast, List.getElem_take, s.storedLanes_getElem]
  · rw [hb, hbytes a fun j _ hj hp => not_or.mp (hout j hj hp)]

/-- STORE whose element `n` is never answered: the elements before it are stored, its own store is issued, and the block is
stuck. -/
theorem execStore_never (rs2 : Reg) (s : State) (n : Nat) (hn : n < s.active) (ha : s.answeredElements .store n)
    (hs : s.outside.answer .store (elementAddress s.xs1 s.stride n) = .never) :
    execStore rs2 s = .next ((s.withOutside
      ((s.outside.storeRun s.xs1 s.stride ((s.storedLanes rs2).take n) 0).2.issue
        (.store (elementAddress s.xs1 s.stride n) (s.lane rs2 (Fin.ofNat 32 n))))).stall .memory) := by
  have hlen : n < (s.storedLanes rs2).length := by rwa [s.storedLanes_length]
  have htake : ((s.storedLanes rs2).take n).length = n := List.length_take_of_le hlen.le
  have hsplit : (s.storedLanes rs2).take n ++ s.lane rs2 (Fin.ofNat 32 n) :: (s.storedLanes rs2).drop (n + 1) =
      s.storedLanes rs2 := by
    rw [← s.storedLanes_getElem_ofNat rs2 n hlen, List.cons_getElem_drop_succ, List.take_append_drop]
  have hrun := s.outside.storeRun_stops s.xs1 s.stride ((s.storedLanes rs2).take n) ((s.storedLanes rs2).drop (n + 1))
    (s.lane rs2 (Fin.ofNat 32 n)) 0 .never (fun j _ hj => ha j (by omega))
    (.inr ⟨rfl, by rwa [htake, Nat.zero_add]⟩)
  rw [hsplit, htake, Nat.zero_add] at hrun
  simp only [execStore, hrun]

/-! The three commands. -/

theorem load_stuck_of_never (s : State) (rd : Reg) (n : Nat) (hvl : s.vl ≤ 32) (hn : n < s.vl)
    (ha : s.answeredElements .load n) (hs : s.outside.answer .load (elementAddress s.xs1 s.stride n) = .never) :
    ∃ t, exec (.load rd) s = .next t ∧ t.stuckOn .memory ∧ s.sameBlock t ∧ s.sameInputs t ∧ s.sameHarness t ∧
      s.sameParameters t ∧ s.sameMemory t ∧ s.callsMade t (s.loadCalls (n + 1)) := by
  obtain ⟨hend, hcalls⟩ := s.loadRun_never s.active n (by rwa [s.active_of_le hvl]) ha hs
  obtain ⟨hmem, -⟩ := s.outside.loadRun_keeps s.xs1 s.stride s.active 0
  have hexec : exec (.load rd) s = _ := execLoad_never rd s hend
  obtain ⟨hstuck, hblock, hinputs, hharness⟩ := s.stall_withOutside_frame _ .memory
  exact ⟨_, hexec, hstuck, hblock, hinputs, hharness, (effect_of_exec _ _ _ hexec).sameParameters,
    sameMemory_of_mem_eq hmem, hcalls⟩

theorem store_stuck_of_never (s : State) (rs2 : Reg) (n : Nat) (hvl : s.vl ≤ 32) (hn : n < s.vl)
    (hw : s.outside.mem.wf = true) (ha : s.answeredElements .store n)
    (hs : s.outside.answer .store (elementAddress s.xs1 s.stride n) = .never) :
    ∃ t, exec (.store rs2) s = .next t ∧ t.stuckOn .memory ∧ s.storesElements t rs2 n ∧ s.sameBlock t ∧
      s.sameInputs t ∧ s.sameHarness t ∧ s.sameParameters t ∧ s.callsMade t (s.storeCalls rs2 (n + 1)) := by
  have hna : n < s.active := by rwa [s.active_of_le hvl]
  have hexec : exec (.store rs2) s = _ := execStore_never rs2 s n hna ha hs
  obtain ⟨-, hcalls, -⟩ := s.outside.storeRun_answered s.xs1 s.stride ((s.storedLanes rs2).take n) 0 hw
    (fun j _ hj => ha j (by rw [List.length_take] at hj; omega))
  rw [s.storesFrom_storedLanes rs2 n hna.le] at hcalls
  obtain ⟨hstuck, hblock, hinputs, hharness⟩ := s.stall_withOutside_frame _ .memory
  refine ⟨_, hexec, hstuck, s.storesElements_of_storeRun _ rs2 n hna.le hw ha (fun _ => rfl) (fun _ => rfl), hblock,
    hinputs, hharness, (effect_of_exec _ _ _ hexec).sameParameters, ?_⟩
  rw [State.callsMade, s.storeCalls_succ, List.reverse_concat, List.cons_append, ← hcalls]
  rfl

theorem configMatrix_stuck_of_never (s : State) (n : Nat) (hvl : s.vl ≤ 32) (hn : n < s.vl * s.vl)
    (ha : s.answeredElements .load n) (hs : s.outside.answer .load (elementAddress s.xs1 s.stride n) = .never) :
    ∃ t, exec .configMatrix s = .next t ∧ t.stuckOn .memory ∧
      (∀ row col : Fin 32, ¬(row.val < s.vl ∧ col.val < s.vl) → t.cell row col = s.cell row col) ∧
      (∀ q, t.reg q = s.reg q) ∧ (∀ q, t.maskOf q = s.maskOf q) ∧ t.vl = s.vl ∧ t.stride = s.stride ∧
      s.sameInputs t ∧ s.sameHarness t ∧ s.sameParameters t ∧ s.sameMemory t ∧
      s.callsMade t (s.loadCalls (n + 1)) := by
  have hact := s.active_of_le hvl
  obtain ⟨hend, hcalls⟩ := s.loadRun_never (s.active * s.active) n (by rwa [hact]) ha hs
  obtain ⟨hmem, -⟩ := s.outside.loadRun_keeps s.xs1 s.stride (s.active * s.active) 0
  have hexec : exec .configMatrix s = _ := execConfigMatrix_never s hend
  refine ⟨_, hexec, by simp [State.stuckOn, Response.none], fun row col hout => ?_, by simp, by simp, by simp, by simp,
    by simp [State.sameInputs], by simp [State.sameHarness], (effect_of_exec _ _ _ hexec).sameParameters,
    sameMemory_of_mem_eq (by simpa using hmem), by simpa [State.callsMade] using hcalls⟩
  rw [State.stall_cell, State.cell_fillMatrix, State.withOutside_active, hact, if_neg hout, State.withOutside_cell]

/-- Settles O47: each of the three memory commands by what its run of accesses has done when one is never answered. -/
theorem unansweredAccessLeavesTheBlockStuck : Obligations.UnansweredAccessLeavesTheBlockStuck := fun s r n hvl =>
  ⟨load_stuck_of_never s r n hvl, store_stuck_of_never s r n hvl, configMatrix_stuck_of_never s n hvl⟩

end Sys2Proof.Machine
end

section
/-! What each register of 10_state.md can be changed by: the vector registers (R22, R23), the configuration registers
(R27, R29, R30, R31), `BRIDGE_READY` (R36) and the counters (R35). -/

namespace Sys2Proof.Machine

/-- Every next state of a step: the same state, what an accepted command answers, or what another event does. A command is
accepted, and an event that is not asynchronous served, only when no command is in progress and `rst` is released (R80, R340). -/
theorem step_next_cases {s t : State} (h : step s = .next t) :
    t = s ∨
    (∃ w x1 x2 rest, (s.waiting = none ∧ s.rst = false) ∧
      Effect (decode w) ((s.withInbox rest).accept (decode w) x1 x2) t) ∨
    (∃ e rest, e ∈ s.inbox ∧ (e.asynchronous = true ∨ s.waiting = none ∧ s.rst = false) ∧
      t = (s.withInbox rest).serve e) := by
  have served : ∀ e rest, nextEvent s.cmdReady s.inbox = some (e, rest) →
      e.asynchronous = true ∨ s.waiting = none ∧ s.rst = false := by
    intro e rest he
    cases hr : s.cmdReady with
    | true => exact .inr (s.cmdReady_iff.mp hr)
    | false => exact .inl (nextEvent_asynchronous s.inbox rest e (hr ▸ he))
  rcases step_cases s with ⟨-, hs⟩ | ⟨w, x1, x2, rest, he, hs⟩ | ⟨e, rest, he, -, hs⟩
  · cases hs.symm.trans h
    exact .inl rfl
  · have hready := (served _ _ he).resolve_left (by simp [HostEvent.asynchronous])
    exact .inr (.inl ⟨w, x1, x2, rest, hready, effect_of_exec _ _ _ (hs.symm.trans h)⟩)
  · cases hs.symm.trans h
    exact .inr (.inr ⟨e, rest, (nextEvent_mem _ _ _ _ he).1, served _ _ he, rfl⟩)

/-! The vector registers. -/

theorem Effect.reg_eq {i : Instr} {s t : State} (h : Effect i s t) (hw : i.wf = true) (q : Reg)
    (hq : destinationOf i ≠ some q) : t.reg q = s.reg q := by
  have ne : ∀ rd, destinationOf i = some rd → q ≠ rd := fun rd hd e => hq (e ▸ hd)
  cases h with
  | wroteReg rd f hd => simp [State.reg_writeReg_ne, ne rd (hd hw)]
  | backendWroteReg c rd f hd => simp [State.reg_writeReg_ne, ne rd hd]
  | loaded o hk rd f hd => simp [State.reg_writeReg_ne, ne rd hd]
  | loadFault o hk rd hd => simp [State.reg_scrambleReg_ne, ne rd hd]
  | _ => simp

/-- Settles O17: of the forms of next state, only those of a command with a destination differ in a vector register. -/
theorem onlyTheTenWritingCommandsChangeRegisters : Obligations.OnlyTheTenWritingCommandsChangeRegisters :=
  fun i s t r hw h hr => (effect_of_exec i s t h).reg_eq hw r hr

/-- A command with a destination register is well-formed, whatever its operands are (R22). -/
theorem wf_of_destinationOf {i : Instr} {rd : Reg} (h : destinationOf i = some rd) : i.wf = true := by
  cases i <;> simp [destinationOf, Instr.wf] at h ⊢

/-- A register written with its tail zeroed reads 0 from VL on (R23). -/
theorem State.lane_writeReg_tail (s : State) (rd : Reg) (f : Fin 32 → Lane) (j : Fin 32) (hj : s.vl ≤ j.val) :
    (s.writeReg rd f).lane rd j = 0 := by
  rw [State.lane_writeReg_self, if_neg (Nat.not_lt.mpr hj)]

theorem Effect.tail_zero {i : Instr} {s t : State} {rd : Reg} (h : Effect i s t) (hd : destinationOf i = some rd)
    (hv : t.resp.valid = true) (hf : t.resp.fault = false) (j : Fin 32) (hj : s.vl ≤ j.val) : t.lane rd j = 0 := by
  cases h with
  | wroteReg rd' f hd' =>
    cases hd.symm.trans (hd' (wf_of_destinationOf hd))
    exact s.lane_writeReg_tail rd f j hj
  | backendWroteReg c rd' f hd' | loaded o hk rd' f hd' =>
    cases hd.symm.trans hd'
    exact (s.withOutside _).lane_writeReg_tail rd f j hj
  | raised | matrixFault | loadFault | storeFault => simp [Response.faulted] at hf
  | backendStuck | matrixStuck | loadStuck | storeStuck => simp [Response.none] at hv
  | completed _ hn | backendResult _ _ hn | stored _ _ hn | dumped hn | reported hn => simp [hn] at hd
  | setVL _ hi | setMask _ _ hi | matrixLoaded _ _ _ hi => simp [hi, destinationOf] at hd

/-- Settles O18: a command with a destination that completes has written it with its tail zeroed. -/
theorem completedWriteZeroesTheTail : Obligations.CompletedWriteZeroesTheTail :=
  fun i s t _ h hd hv hf j hj => (effect_of_exec i s t h).tail_zero hd hv hf j hj

/-! The configuration registers. -/

theorem Effect.stride_eq {i : Instr} {s t : State} (h : Effect i s t) : t.stride = s.stride := by
  cases h <;> simp

theorem Effect.maskOf_eq {i : Instr} {s t : State} (h : Effect i s t) (hi : ∀ r, i ≠ .configMask r) (q : Reg) :
    t.maskOf q = s.maskOf q := by
  cases h with
  | setMask r x hm => exact absurd hm (hi r)
  | _ => simp

theorem Effect.cell_eq {i : Instr} {s t : State} (h : Effect i s t) (hi : i ≠ .configMatrix) (row col : Fin 32) :
    t.cell row col = s.cell row col := by
  cases h with
  | matrixLoaded _ _ _ hm | matrixFault _ _ hm | matrixStuck _ _ _ hm => exact absurd hm hi
  | _ => simp

theorem Effect.vl_eq {i : Instr} {s t : State} (h : Effect i s t) (hi : i ≠ .configVL) : t.vl = s.vl := by
  cases h with
  | setVL _ hv => exact absurd hv hi
  | _ => simp

/-- Settles O19: a command other than a register's one writer leaves that register as it is. -/
theorem configurationHasOneWriterEach : Obligations.ConfigurationHasOneWriterEach := by
  intro i s t h
  have he := effect_of_exec i s t h
  refine ⟨he.stride_eq, fun ⟨q, hq⟩ => ?_, fun ⟨row, col, hc⟩ => ?_, fun hv => ?_⟩
  · by_contra hi
    exact hq (he.maskOf_eq (not_exists.mp hi) q)
  · by_contra hi
    exact hc (he.cell_eq hi row col)
  · by_contra hi
    exact hv (he.vl_eq hi)

/-! `BRIDGE_READY`. -/

theorem Effect.bridgeReady_eq {i : Instr} {s t : State} (h : Effect i s t) : t.bridgeReady = s.bridgeReady := by
  cases h <;> simp

/-- No event clears it, `rst` included (log 13). -/
theorem State.serve_bridgeReady (s : State) (e : HostEvent) (h : s.bridgeReady = true) :
    (s.serve e).bridgeReady = true := by
  cases e with
  | rst asserted => cases asserted <;> exact h
  | backendInit => rfl
  | _ => exact h

theorem step_bridgeReady {s t : State} (hs : step s = .next t) (h : s.bridgeReady = true) : t.bridgeReady = true := by
  rcases step_next_cases hs with rfl | ⟨w, x1, x2, rest, -, he⟩ | ⟨e, rest, -, -, rfl⟩
  · exact h
  · exact he.bridgeReady_eq.trans h
  · exact (s.withInbox rest).serve_bridgeReady e h

/-- A block that accepts commands serves the initialization offered first. -/
theorem step_of_ready_backendInit (s : State) (rest : List HostEvent) (hr : s.cmdReady = true)
    (hi : s.inbox = .backendInit :: rest) : step s = .next ((s.withInbox rest).serve .backendInit) := by
  simp only [step, hr, hi, nextEvent_ready]

/-- Settles O16, by the events and the forms of next state. -/
theorem bridgeReadyIsSetOnceAndKept : Obligations.BridgeReadyIsSetOnceAndKept :=
  ⟨fun s rest hr hi => ⟨_, step_of_ready_backendInit s rest hr hi, rfl,
      ⟨fun _ => rfl, fun _ => rfl, fun _ _ => rfl, rfl, rfl⟩, fun _ => rfl, rfl⟩,
    fun _ _ hs h => step_bridgeReady hs h,
    fun i s t h => (effect_of_exec i s t h).bridgeReady_eq⟩

/-! The counters. -/

/-- Of the events other than commands only those that assert `rst` touch a counter. -/
theorem State.serve_counts (s : State) (e : HostEvent) (h : ¬e.assertsRst) : (s.serve e).counts = s.counts := by
  cases e with
  | rst asserted =>
    cases asserted with
    | true => exact absurd (.inl rfl) h
    | false => rfl
  | abandonedCommand w x1 x2 n => exact absurd (.inr ⟨w, x1, x2, n, rfl⟩) h
  | _ => rfl

/-- Settles O8: accepting a command adds to a counter, and nothing else but `rst` touches one. -/
theorem countersFallOnlyByReset : Obligations.CountersFallOnlyByReset := by
  intro s t hrst hs n
  rcases step_next_cases hs with rfl | ⟨w, x1, x2, rest, -, he⟩ | ⟨e, rest, hmem, -, rfl⟩
  · exact le_rfl
  · rw [he.counts_eq, State.accept_counts_getElem, State.withInbox_counts]
    exact Nat.le_add_right _ _
  · rw [State.serve_counts _ e (hrst e hmem), State.withInbox_counts]

end Sys2Proof.Machine
end

section
/-! Legal states (10_state.md R30, R104, R300, R305, R340): legality holds at process start, and every step keeps it. -/

namespace Sys2Proof.Machine

/-! The responses the block can give. -/

theorem FaultCause.code_range (c : FaultCause) : 1 ≤ c.code.toNat ∧ c.code.toNat ≤ 6 := by
  cases c <;> simp [FaultCause.code]

theorem Response.none_legal : Response.none.legal := by simp [Response.legal, Response.none]

theorem Response.completed_legal (r : Word64) : (Response.completed r).legal := by
  simp [Response.legal, Response.completed]

/-- Cause 7 is never produced (R300). -/
theorem Response.faulted_legal (c : FaultCause) : (Response.faulted c).legal := by
  simpa [Response.legal, Response.faulted] using c.code_range

theorem Response.unknown_legal : Response.unknown.legal := by simp [Response.legal, Response.unknown]

/-- What legality says of the response: it is one the block can give, there is none while a command is in progress (R80), and
a host trap stands exactly for a fault (R306). -/
abbrev State.endedLegally (s : State) : Prop :=
  s.resp.legal ∧ (s.waiting.isSome = true → s.resp.valid = false) ∧ s.hostTrap.isSome = s.resp.fault

theorem State.complete_endedLegally (s : State) (r : Word64) (h : s.waiting = none) :
    (s.complete r).endedLegally := ⟨Response.completed_legal r, by simp [h], rfl⟩

theorem State.raise_endedLegally (s : State) (c : FaultCause) (h : s.waiting = none) :
    (s.raise c).endedLegally := ⟨Response.faulted_legal c, by simp [h], rfl⟩

theorem State.reportUnrecognized_endedLegally (s : State) (h : s.waiting = none) :
    s.reportUnrecognized.endedLegally := ⟨Response.unknown_legal, by simp [h], rfl⟩

theorem State.stall_endedLegally (s : State) (w : Waiting) : (s.stall w).endedLegally :=
  ⟨Response.none_legal, fun _ => rfl, rfl⟩

/-! What a command keeps of legality. -/

theorem Effect.endedLegally {i : Instr} {s t : State} (h : Effect i s t) (hw : s.waiting = none) :
    t.endedLegally := by
  cases h with
  | raised | matrixFault | loadFault | storeFault => exact State.raise_endedLegally _ _ (by simpa using hw)
  | backendStuck | matrixStuck | loadStuck | storeStuck => exact State.stall_endedLegally _ _
  | reported => exact s.reportUnrecognized_endedLegally hw
  | _ => exact State.complete_endedLegally _ _ (by simpa using hw)

theorem Effect.rst_eq {i : Instr} {s t : State} (h : Effect i s t) : t.rst = s.rst := by
  cases h <;> simp

/-- CONFIG selector 0 takes only a value in [1, 32] (R222). -/
theorem Effect.vl_range {i : Instr} {s t : State} (h : Effect i s t) (hs : 1 ≤ s.vl ∧ s.vl ≤ 32) :
    1 ≤ t.vl ∧ t.vl ≤ 32 := by
  cases h with
  | setVL hx => exact hx
  | _ => simpa using hs

theorem Effect.mem_wf {i : Instr} {s t : State} (h : Effect i s t) (hs : s.outside.mem.wf = true) :
    t.outside.mem.wf = true := by
  cases h with
  | matrixLoaded o hk | matrixFault o hk | matrixStuck o hk | loaded o hk | loadFault o hk | loadStuck o hk =>
    simpa [hk.1] using hs
  | stored o hk | storeFault o hk | storeStuck o hk => exact hk.2 hs
  | _ => simpa using hs

/-- A command answers a legal state from one that is legal but for its response, which is the command's own to set. -/
theorem Effect.legal {i : Instr} {s t : State} (h : Effect i s t) (hw : s.waiting = none) (hr : s.rst = false)
    (hvl : 1 ≤ s.vl ∧ s.vl ≤ 32) (hlut : lutLegal s.lut) (hmem : s.outside.mem.wf = true) : t.legal := by
  obtain ⟨hresp, hwait, htrap⟩ := h.endedLegally hw
  obtain ⟨hlo, hhi⟩ := h.vl_range hvl
  obtain ⟨hlut_eq, -⟩ := h.sameParameters
  exact ⟨hlo, hhi, hlut_eq ▸ hlut, h.mem_wf hmem, hresp, hwait, htrap, fun ht => by simp [h.rst_eq, hr] at ht⟩

/-! What an event keeps of it. -/

/-- An asserted `rst` makes all legal but what it leaves alone, the table and the memory (R341; log 13). -/
theorem State.applyRst_legal (s : State) (hlut : lutLegal s.lut) (hmem : s.outside.mem.wf = true) :
    s.applyRst.legal :=
  ⟨by simp, by simp, hlut, hmem, Response.none_legal, by simp, rfl, fun _ => s.applyRst_hasResetValues⟩

theorem State.releaseRst_legal (s : State) (h : s.legal) : s.releaseRst.legal := by
  obtain ⟨hlo, hhi, hlut, hmem, hresp, hwait, htrap, -⟩ := h
  exact ⟨hlo, hhi, hlut, hmem, hresp, hwait, htrap, by simp⟩

theorem State.abandon_legal (s : State) (i : Instr) (n : Nat) (hlut : lutLegal s.lut)
    (hmem : s.outside.mem.wf = true) : (s.abandon i n).legal := by
  obtain ⟨-, hwf, -⟩ := s.outsideAfter_keeps i n
  exact (s.withOutside (s.outsideAfter i n)).applyRst_legal hlut (hwf hmem)

/-- A stride write is the one event that could break legality, and it is not served while `rst` is asserted (R340; log 28). -/
theorem State.serve_legal (s : State) (e : HostEvent) (h : s.legal) (hready : e.asynchronous = true ∨ s.rst = false) :
    (s.serve e).legal := by
  have ⟨hlo, hhi, hlut, hmem, hresp, hwait, htrap, hreset⟩ := h
  cases e with
  | command | activation | backendInit => exact h
  | strideWrite x =>
    have hr : s.rst = false := hready.resolve_left Bool.false_ne_true
    exact ⟨hlo, hhi, hlut, hmem, hresp, hwait, htrap, fun ht => absurd ht (by simp [State.serve, hr])⟩
  | rst asserted =>
    cases asserted with
    | true => exact s.applyRst_legal hlut hmem
    | false => exact s.releaseRst_legal h
  | abandonedCommand w x1 x2 n => exact State.abandon_legal _ _ n hlut hmem
  | hostWrite a b => exact ⟨hlo, hhi, hlut, Memory.wf_write _ a b hmem, hresp, hwait, htrap, hreset⟩

/-- Settles O13, by what a step can do: wait, run an accepted command, or serve another event. -/
theorem everyStepKeepsTheStateLegal : Obligations.EveryStepKeepsTheStateLegal := by
  intro s t h hs
  rcases step_next_cases hs with rfl | ⟨w, x1, x2, rest, ⟨hwait, hrst⟩, he⟩ | ⟨e, rest, -, hready, rfl⟩
  · exact h
  · obtain ⟨hlo, hhi, hlut, hmem, -⟩ := h
    exact he.legal hwait hrst ⟨hlo, hhi⟩ hlut hmem
  · exact (s.withInbox rest).serve_legal e h (hready.imp_right And.right)

/-! The table listed in R105, read entry by entry. -/

theorem lutReferenceList_length : lutReferenceList.length = 256 := by decide +kernel

/-- Every entry is a 16-bit number. -/
theorem lutReferenceList_lt : ∀ x ∈ lutReferenceList, x < 65536 := by decide +kernel

/-- The entries never fall. -/
theorem lutReferenceList_isChain : lutReferenceList.IsChain (· ≤ ·) := by decide +kernel

theorem lutEntry_lutReference (i : Nat) (hi : i < lutReferenceList.length) :
    lutEntry lutReference i = lutReferenceList[i] := by
  have h256 : i < 256 := lutReferenceList_length ▸ hi
  have hlt := lutReferenceList_lt _ (List.getElem_mem hi)
  simp only [lutEntry, lutReference, Vector.get_ofFn, Fin.val_ofNat, Nat.mod_eq_of_lt h256,
    List.getD_eq_getElem _ _ hi, BitVec.toNat_ofNat, Nat.mod_eq_of_lt hlt]

/-- The table of R105 is one that R104 allows. -/
theorem lutReference_lutLegal : lutLegal lutReference := by
  refine ⟨?_, fun i => ?_⟩
  · rw [lutEntry_lutReference 0 (by rw [lutReferenceList_length]; omega)]
    rfl
  · have hi : i.val + 1 < lutReferenceList.length := by rw [lutReferenceList_length]; omega
    rw [lutEntry_lutReference i.val (Nat.lt_of_succ_lt hi), lutEntry_lutReference (i.val + 1) hi]
    exact Int.ofNat_le.mpr (List.isChain_iff_getElem.mp lutReferenceList_isChain i.val hi)

/-! The base case. -/

/-- Settles O12: the state at process start is what asserting `rst` and releasing it again leaves of it. -/
theorem resetStateIsLegal : Obligations.ResetStateIsLegal :=
  State.releaseRst_legal _ (State.reset.applyRst_legal lutReference_lutLegal rfl)

end Sys2Proof.Machine
end

section
/-! LOAD, STORE and CONFIG selector 2 over accesses that are all answered, and at an access that faults (20_memory.md R53 to
R60, 44_config.md R226, 45_load_store.md R241 and R244, 60_exceptions.md R311): what the run of accesses has done, then the
frame of the command's ending. Plain memory is the case of answered accesses in which no device answers. -/

namespace Sys2Proof.Machine

/-- Settles O42: the address is narrowed to 64 bits once, at the end (R53). -/
theorem elementAddressesWrap : Obligations.ElementAddressesWrap := fun _ _ _ => BitVec.toNat_ofNat _ _

/-! The loads of a command. -/

/-- Plain memory answers. -/
theorem State.plainElements.answered {s : State} {kind : AccessKind} {n : Nat} (h : s.plainElements kind n) :
    s.answeredElements kind n := fun k hk => .inl (h k hk)

/-- The run of loads of a command whose `n` elements are all answered. -/
theorem State.loadRun_answered (s : State) (n : Nat) (ha : s.answeredElements .load n) :
    (s.outside.loadRun s.xs1 s.stride n 0).ending = .done ∧
    (s.outside.loadRun s.xs1 s.stride n 0).outside.calls = (s.loadCalls n).reverse ++ s.outside.calls ∧
    ∀ d, d < n → s.outside.answer .load (elementAddress s.xs1 s.stride d) = .plain →
      (s.outside.loadRun s.xs1 s.stride n 0).values[d]? = some (s.outside.valueAt (elementAddress s.xs1 s.stride d)) := by
  have h := s.outside.loadRun_answered s.xs1 s.stride n 0 (fun j _ hj => ha j (by omega))
  simpa only [Nat.zero_add, ← s.loadCalls_eq_loadsFrom] using h

/-- The run of loads of a command whose element `n` faults: it ends there, with the loads up to that one issued. -/
theorem State.loadRun_fault (s : State) (m n : Nat) (hn : n < m) (ha : s.answeredElements .load n)
    (hs : s.outside.answer .load (elementAddress s.xs1 s.stride n) = .fault) :
    (s.outside.loadRun s.xs1 s.stride m 0).ending = .fault ∧
    (s.outside.loadRun s.xs1 s.stride m 0).outside.calls = (s.loadCalls (n + 1)).reverse ++ s.outside.calls := by
  obtain ⟨hend, hcalls, -⟩ := s.outside.loadRun_stops s.xs1 s.stride m 0 n .fault hn
    (fun j _ hj => ha j (by omega)) (.inl ⟨rfl, by rwa [Nat.zero_add]⟩)
  exact ⟨hend, by rw [hcalls, s.loadCalls_eq_loadsFrom]⟩

/-! LOAD. -/

theorem execLoad_done (rd : Reg) (s : State) (hvl : s.vl ≤ 32)
    (h : (s.outside.loadRun s.xs1 s.stride s.vl 0).ending = .done) :
    execLoad rd s = .next (((s.withOutside (s.outside.loadRun s.xs1 s.stride s.vl 0).outside).writeReg rd
      fun i => (s.outside.loadRun s.xs1 s.stride s.vl 0).values.getD i.val 0).complete 0) := by
  simp only [execLoad, s.active_of_le hvl, h]

theorem execLoad_fault (rd : Reg) (s : State) (hvl : s.vl ≤ 32)
    (h : (s.outside.loadRun s.xs1 s.stride s.vl 0).ending = .fault) :
    execLoad rd s = .next (((s.withOutside (s.outside.loadRun s.xs1 s.stride s.vl 0).outside).scrambleReg rd).raise
      (.memoryFault .load)) := by
  simp only [execLoad, s.active_of_le hvl, h]

/-- LOAD with every access answered completes: the lanes of plain elements are read, the tail is 0 (R241, R57). -/
theorem load_completes_of_answered (s : State) (rd : Reg) (hvl : s.vl ≤ 32) (ha : s.answeredElements .load s.vl) :
    ∃ t, exec (.load rd) s = .next t ∧
      (∀ i : Fin 32, i.val < s.vl → s.outside.answer .load (elementAddress s.xs1 s.stride i.val) = .plain →
        t.lane rd i = s.outside.valueAt (elementAddress s.xs1 s.stride i.val)) ∧
      (∀ i : Fin 32, s.vl ≤ i.val → t.lane rd i = 0) ∧
      s.sameBlockButReg t rd ∧ s.sameInputs t ∧ s.sameHarness t ∧ s.sameParameters t ∧ s.sameMemory t ∧
      s.callsMade t (s.loadCalls s.vl) ∧ t.waiting = s.waiting ∧ t.completedWith 0 := by
  obtain ⟨hend, hcalls, hvalues⟩ := s.loadRun_answered s.vl ha
  obtain ⟨hmem, -⟩ := s.outside.loadRun_keeps s.xs1 s.stride s.vl 0
  have hexec : exec (.load rd) s = _ := execLoad_done rd s hvl hend
  obtain ⟨hblock, ⟨hinputs, hharness, -, -, -, hwaiting⟩, hdone⟩ :=
    (s.withOutside (s.outside.loadRun s.xs1 s.stride s.vl 0).outside).writeReg_complete_frame rd
      (fun i => (s.outside.loadRun s.xs1 s.stride s.vl 0).values.getD i.val 0) 0
  refine ⟨_, hexec, fun i hi hp => ?_, fun i hi => ?_, hblock, hinputs, hharness,
    (effect_of_exec _ _ _ hexec).sameParameters, sameMemory_of_mem_eq hmem, hcalls, hwaiting, hdone⟩
  · rw [State.complete_lane, State.lane_writeReg_self, State.withOutside_vl, if_pos hi, List.getD_eq_getElem?_getD,
      hvalues i.val hi hp, Option.getD_some]
  · exact State.lane_writeReg_tail _ rd _ i hi

/-- Settles O43: over plain memory every active lane is the value of its element. -/
theorem loadReadsTheElementsInOrder : Obligations.LoadReadsTheElementsInOrder := by
  intro s rd hvl hp
  obtain ⟨t, hexec, hlanes, htail, hframe⟩ := load_completes_of_answered s rd hvl hp.answered
  refine ⟨t, hexec, fun i => ?_, hframe⟩
  split
  next hi => exact hlanes i hi (hp i.val hi)
  next hi => exact htail i (Nat.not_lt.mp hi)

/-- Settles O44: the run of loads ends at the faulting element, and the fault spares all but the lanes of `V[rd]`. -/
theorem loadFaultSparesTheRest : Obligations.LoadFaultSparesTheRest := by
  intro s rd n hvl hn ha hs
  obtain ⟨hend, hcalls⟩ := s.loadRun_fault s.vl n hn ha hs
  obtain ⟨hmem, -⟩ := s.outside.loadRun_keeps s.xs1 s.stride s.vl 0
  have hexec : exec (.load rd) s = _ := execLoad_fault rd s hvl hend
  refine ⟨_, hexec, ⟨rfl, rfl, rfl, rfl, rfl, rfl⟩,
    ⟨fun q hq => State.reg_scrambleReg_ne _ rd q hq, by simp, by simp, by simp, by simp⟩, by simp [State.sameInputs],
    by simp [State.sameHarness], (effect_of_exec _ _ _ hexec).sameParameters, sameMemory_of_mem_eq hmem, hcalls, by simp⟩

/-! CONFIG selector 2. -/

theorem execConfigMatrix_done (s : State) (hvl : s.vl ≤ 32)
    (h : (s.outside.loadRun s.xs1 s.stride (s.vl * s.vl) 0).ending = .done) :
    execConfigMatrix s =
      .next (((s.withOutside (s.outside.loadRun s.xs1 s.stride (s.vl * s.vl) 0).outside).fillMatrix
        (s.outside.loadRun s.xs1 s.stride (s.vl * s.vl) 0).values).complete 0) := by
  simp only [execConfigMatrix, s.active_of_le hvl, h]

theorem execConfigMatrix_fault (s : State) (hvl : s.vl ≤ 32)
    (h : (s.outside.loadRun s.xs1 s.stride (s.vl * s.vl) 0).ending = .fault) :
    execConfigMatrix s =
      .next ((s.withOutside (s.outside.loadRun s.xs1 s.stride (s.vl * s.vl) 0).outside).scrambleMatrix.raise
        (.memoryFault .load)) := by
  simp only [execConfigMatrix, s.active_of_le hvl, h]

/-- The place of a cell of an `n x n` block in row-major order (R226). -/
theorem rowMajor_lt {row col n : Nat} (hr : row < n) (hc : col < n) : row * n + col < n * n :=
  calc row * n + col < row * n + n := Nat.add_lt_add_left hc _
    _ = (row + 1) * n := (Nat.succ_mul row n).symm
    _ ≤ n * n := Nat.mul_le_mul_right n hr

/-- CONFIG selector 2 with every access answered completes: the cells of plain elements are read, those outside the block
kept (R226, R57). -/
theorem configMatrix_completes_of_answered (s : State) (hvl : s.vl ≤ 32) (ha : s.answeredElements .load (s.vl * s.vl)) :
    ∃ t, exec .configMatrix s = .next t ∧
      (∀ row col : Fin 32, row.val < s.vl ∧ col.val < s.vl →
        s.outside.answer .load (elementAddress s.xs1 s.stride (row.val * s.vl + col.val)) = .plain →
        t.cell row col = s.outside.valueAt (elementAddress s.xs1 s.stride (row.val * s.vl + col.val))) ∧
      (∀ row col : Fin 32, ¬(row.val < s.vl ∧ col.val < s.vl) → t.cell row col = s.cell row col) ∧
      (∀ q, t.reg q = s.reg q) ∧ (∀ q, t.maskOf q = s.maskOf q) ∧ t.vl = s.vl ∧ t.stride = s.stride ∧
      s.sameInputs t ∧ s.sameHarness t ∧ s.sameParameters t ∧ s.sameMemory t ∧
      s.callsMade t (s.loadCalls (s.vl * s.vl)) ∧ t.waiting = s.waiting ∧ t.completedWith 0 := by
  have hact := s.active_of_le hvl
  obtain ⟨hend, hcalls, hvalues⟩ := s.loadRun_answered (s.vl * s.vl) ha
  obtain ⟨hmem, -⟩ := s.outside.loadRun_keeps s.xs1 s.stride (s.vl * s.vl) 0
  have hexec : exec .configMatrix s = _ := execConfigMatrix_done s hvl hend
  refine ⟨_, hexec, fun row col hin hp => ?_, fun row col hout => ?_, by simp, by simp, by simp, by simp,
    by simp [State.sameInputs], by simp [State.sameHarness], (effect_of_exec _ _ _ hexec).sameParameters,
    sameMemory_of_mem_eq (by simpa using hmem), by simpa [State.callsMade] using hcalls, by simp,
    ⟨rfl, rfl, rfl, rfl, rfl, rfl⟩⟩
  · rw [State.complete_cell, State.cell_fillMatrix, State.withOutside_active, hact, if_pos hin,
      List.getD_eq_getElem?_getD, hvalues _ (rowMajor_lt hin.1 hin.2) hp, Option.getD_some]
  · rw [State.complete_cell, State.cell_fillMatrix, State.withOutside_active, hact, if_neg hout, State.withOutside_cell]

/-- Settles O40: over plain memory every cell of the block is the value of its element. -/
theorem loadMatrixFillsTheBlockRowByRow : Obligations.LoadMatrixFillsTheBlockRowByRow := by
  intro s hvl hp
  obtain ⟨t, hexec, hcells, hout, hframe⟩ := configMatrix_completes_of_answered s hvl hp.answered
  refine ⟨t, hexec, fun row col => ?_, hframe⟩
  split
  next hin => exact hcells row col hin (hp _ (rowMajor_lt hin.1 hin.2))
  next hin => exact hout row col hin

/-- Settles O41: the run of loads ends at the faulting element, and the fault spares all but the cells of the block. -/
theorem matrixLoadFaultSparesTheRest : Obligations.MatrixLoadFaultSparesTheRest := by
  intro s n hvl hn ha hs
  have hact := s.active_of_le hvl
  obtain ⟨hend, hcalls⟩ := s.loadRun_fault (s.vl * s.vl) n hn ha hs
  obtain ⟨hmem, -⟩ := s.outside.loadRun_keeps s.xs1 s.stride (s.vl * s.vl) 0
  have hexec : exec .configMatrix s = _ := execConfigMatrix_fault s hvl hend
  refine ⟨_, hexec, ⟨rfl, rfl, rfl, rfl, rfl, by simp [FaultMap.trapFor]⟩, fun row col hout => ?_, by simp, by simp,
    by simp, by simp, by simp [State.sameInputs], by simp [State.sameHarness],
    (effect_of_exec _ _ _ hexec).sameParameters, sameMemory_of_mem_eq hmem, hcalls, by simp⟩
  rw [State.raise_cell, State.cell_scrambleMatrix_outside _ _ _ (by rwa [State.withOutside_active, hact]),
    State.withOutside_cell]

/-! STORE. -/

/-- A command that completes and has only used its ports: no register, input or harness state changes. -/
theorem State.complete_withOutside_frame (s : State) (o : Outside) (r : Word64) :
    s.sameBlock ((s.withOutside o).complete r) ∧ s.sameInputs ((s.withOutside o).complete r) ∧
    s.sameHarness ((s.withOutside o).complete r) ∧ ((s.withOutside o).complete r).completedWith r :=
  ⟨⟨fun _ => rfl, fun _ => rfl, fun _ _ => rfl, rfl, rfl⟩, ⟨rfl, rfl, rfl, rfl, rfl, rfl, rfl⟩, ⟨rfl, rfl, rfl⟩,
    rfl, rfl, rfl, rfl, rfl, rfl⟩

theorem State.storedLanes_take_active (s : State) (rs2 : Reg) : (s.storedLanes rs2).take s.active = s.storedLanes rs2 :=
  List.take_of_length_le (s.storedLanes_length rs2).le

/-- The stores of the first `n` lanes, of which element `m` faults or is never answered: the run does what that of the first
`m` lanes does, issues element `m`'s store and ends there (R56). -/
theorem State.storeRun_stops (s : State) (rs2 : Reg) (n m : Nat) (e : Ending) (hmn : m < n) (hm : m < s.active)
    (ha : s.answeredElements .store m)
    (hs : (e = .fault ∧ s.outside.answer .store (elementAddress s.xs1 s.stride m) = .fault) ∨
      (e = .never ∧ s.outside.answer .store (elementAddress s.xs1 s.stride m) = .never)) :
    s.outside.storeRun s.xs1 s.stride ((s.storedLanes rs2).take n) 0 =
      (e, (s.outside.storeRun s.xs1 s.stride ((s.storedLanes rs2).take m) 0).2.issue
        (.store (elementAddress s.xs1 s.stride m) (s.lane rs2 (Fin.ofNat 32 m)))) := by
  have hlen : m < (s.storedLanes rs2).length := by rwa [s.storedLanes_length]
  have htake : ((s.storedLanes rs2).take m).length = m := List.length_take_of_le hlen.le
  have hlenn : m < ((s.storedLanes rs2).take n).length := by rw [List.length_take]; omega
  have hsplit : (s.storedLanes rs2).take m ++
      s.lane rs2 (Fin.ofNat 32 m) :: ((s.storedLanes rs2).take n).drop (m + 1) = (s.storedLanes rs2).take n := by
    calc _ = ((s.storedLanes rs2).take n).take m ++ ((s.storedLanes rs2).take n).drop m := by
          rw [List.take_take, Nat.min_eq_left hmn.le, List.drop_eq_getElem_cons hlenn, List.getElem_take,
            s.storedLanes_getElem_ofNat rs2 m hlen]
      _ = _ := List.take_append_drop _ _
  have hrun := s.outside.storeRun_stops s.xs1 s.stride ((s.storedLanes rs2).take m)
    (((s.storedLanes rs2).take n).drop (m + 1)) (s.lane rs2 (Fin.ofNat 32 m)) 0 e (fun j _ hj => ha j (by omega))
    (by rwa [htake, Nat.zero_add])
  rwa [hsplit, htake, Nat.zero_add] at hrun

/-- The stores of the first `n` lanes, every one answered. -/
theorem State.storeRun_answered (s : State) (rs2 : Reg) (n : Nat) (hn : n ≤ s.active) (hw : s.outside.mem.wf = true)
    (ha : s.answeredElements .store n) :
    (s.outside.storeRun s.xs1 s.stride ((s.storedLanes rs2).take n) 0).1 = .done ∧
    (s.outside.storeRun s.xs1 s.stride ((s.storedLanes rs2).take n) 0).2.calls =
      (s.storeCalls rs2 n).reverse ++ s.outside.calls := by
  obtain ⟨hend, hcalls, -⟩ := s.outside.storeRun_answered s.xs1 s.stride ((s.storedLanes rs2).take n) 0 hw
    (fun j _ hj => ha j (by rw [List.length_take] at hj; omega))
  exact ⟨hend, by rw [hcalls, s.storesFrom_storedLanes rs2 n hn]⟩

theorem execStore_done (rs2 : Reg) (s : State)
    (h : (s.outside.storeRun s.xs1 s.stride ((s.storedLanes rs2).take s.active) 0).1 = .done) :
    execStore rs2 s = .next ((s.withOutside
      (s.outside.storeRun s.xs1 s.stride ((s.storedLanes rs2).take s.active) 0).2).complete 0) := by
  rw [s.storedLanes_take_active] at h ⊢
  simp only [execStore, h]

theorem execStore_fault (rs2 : Reg) (s : State) (o : Outside)
    (h : s.outside.storeRun s.xs1 s.stride ((s.storedLanes rs2).take s.active) 0 = (.fault, o)) :
    execStore rs2 s = .next ((s.withOutside o).raise (.memoryFault .store)) := by
  rw [s.storedLanes_take_active] at h
  simp only [execStore, h]

/-- STORE with every access answered completes, with the plain elements stored (R244, R57). -/
theorem store_completes_of_answered (s : State) (rs2 : Reg) (hvl : s.vl ≤ 32) (hw : s.outside.mem.wf = true)
    (ha : s.answeredElements .store s.vl) :
    ∃ t, exec (.store rs2) s = .next t ∧ s.storesElements t rs2 s.vl ∧ s.sameBlock t ∧ s.sameInputs t ∧
      s.sameHarness t ∧ s.sameParameters t ∧ s.callsMade t (s.storeCalls rs2 s.vl) ∧ t.waiting = s.waiting ∧
      t.completedWith 0 := by
  rw [← s.active_of_le hvl] at ha ⊢
  obtain ⟨hend, hcalls⟩ := s.storeRun_answered rs2 s.active le_rfl hw ha
  have hexec : exec (.store rs2) s = _ := execStore_done rs2 s hend
  obtain ⟨hblock, hinputs, hharness, hdone⟩ := s.complete_withOutside_frame _ 0
  exact ⟨_, hexec, s.storesElements_of_storeRun _ rs2 s.active le_rfl hw ha (fun _ => rfl) (fun _ => rfl), hblock,
    hinputs, hharness, (effect_of_exec _ _ _ hexec).sameParameters, hcalls, rfl, hdone⟩

/-- Settles O45: over plain memory every element is one of those STORE leaves in memory. -/
theorem storeWritesTheActiveLanes : Obligations.StoreWritesTheActiveLanes := by
  intro s rs2 hvl hw hp
  obtain ⟨t, hexec, ⟨hstored, hbytes⟩, hframe⟩ :=
    store_completes_of_answered s rs2 hvl hw hp.answered
  exact ⟨t, hexec, fun k hk hlast => hstored k hk (hp k.val hk) hlast,
    fun a hout => hbytes a fun k hk _ => hout k hk, hframe⟩

/-- Settles O46: the run of stores does what that of the elements before the faulting one does, and issues one store more. -/
theorem storeFaultKeepsTheEarlierElements : Obligations.StoreFaultKeepsTheEarlierElements := by
  intro s rs2 n hvl hw hn ha hs
  have hna : n < s.active := by rwa [s.active_of_le hvl]
  obtain ⟨-, hcalls⟩ := s.storeRun_answered rs2 n hna.le hw ha
  have hexec : exec (.store rs2) s = _ :=
    execStore_fault rs2 s _ (s.storeRun_stops rs2 s.active n .fault hna hna ha (.inl ⟨rfl, hs⟩))
  obtain ⟨hfault, hblock, hinputs, hharness, -, -, -, hwaiting⟩ := State.raise_frame (s.withOutside _) (.memoryFault .store)
  refine ⟨_, hexec, hfault, s.storesElements_of_storeRun _ rs2 n hna.le hw ha (fun _ => rfl) (fun _ => rfl), hblock,
    hinputs, hharness, (effect_of_exec _ _ _ hexec).sameParameters, ?_, hwaiting⟩
  rw [State.callsMade, s.storeCalls_succ, List.reverse_concat, List.cons_append, ← hcalls]
  rfl

/-- Settles O60: the three memory commands with every access answered. -/
theorem deviceAccessesLeaveMemoryAlone : Obligations.DeviceAccessesLeaveMemoryAlone := fun s r hvl =>
  ⟨load_completes_of_answered s r hvl, configMatrix_completes_of_answered s hvl, store_completes_of_answered s r hvl⟩

/-! STORE, then LOAD (R66). -/

theorem Outside.answer_of_regions_eq {o o' : Outside} (h : o'.regions = o.regions) (k : AccessKind) (a : Word64) :
    o'.answer k a = o.answer k a := by
  rw [Outside.answer, Outside.answer, h]

/-- A factor below 2^5 takes at most four of the twos of a multiple of 2^63. -/
theorem two_pow_dvd_of_dvd_mul {d x : Nat} (hd : 0 < d) (hlt : d < 32) (h : 2 ^ 63 ∣ d * x) : 2 ^ 59 ∣ x := by
  obtain ⟨a, m, hm, rfl⟩ := Nat.exists_eq_two_pow_mul_odd hd.ne'
  have ha : a < 5 := (Nat.pow_lt_pow_iff_right (a := 2) (by omega)).mp
    (lt_of_le_of_lt (Nat.le_mul_of_pos_right _ hm.pos) hlt)
  have hsplit : 2 ^ a * 2 ^ (63 - a) ∣ 2 ^ a * (m * x) := by
    rwa [← pow_add, Nat.add_sub_cancel' (by omega), ← mul_assoc]
  have hodd : Nat.Coprime (2 ^ (63 - a)) m := (Nat.coprime_two_left.mpr hm).pow_left _
  have hx : 2 ^ (63 - a) ∣ x := hodd.dvd_of_dvd_mul_left (Nat.dvd_of_mul_dvd_mul_left (Nat.two_pow_pos a) hsplit)
  exact (Nat.pow_dvd_pow 2 (by omega)).trans hx

/-- Two of 32 elements share an address only if the stride is a multiple of 2^59 (R53, R66). -/
theorem dvd_stride_of_elementAddress_eq (base stride : Word64) {j k : Nat} (hjk : j < k) (hk : k < 32)
    (h : elementAddress base stride j = elementAddress base stride k) : 2 ^ 59 ∣ stride.toNat := by
  have hmod : base.toNat + j * stride.toNat * 2 ≡ base.toNat + k * stride.toNat * 2 [MOD 2 ^ 64] := by
    have ht := congrArg BitVec.toNat h
    rwa [elementAddressesWrap, elementAddressesWrap] at ht
  have hle : j * stride.toNat * 2 ≤ k * stride.toNat * 2 :=
    Nat.mul_le_mul_right 2 (Nat.mul_le_mul_right _ hjk.le)
  have hdvd : 2 ^ 64 ∣ k * stride.toNat * 2 - j * stride.toNat * 2 :=
    (Nat.modEq_iff_dvd' hle).mp (Nat.ModEq.add_left_cancel' _ hmod)
  rw [← Nat.sub_mul, ← Nat.sub_mul, show 2 ^ 64 = 2 ^ 63 * 2 by rfl] at hdvd
  exact two_pow_dvd_of_dvd_mul (by omega) (by omega) (Nat.dvd_of_mul_dvd_mul_right (by omega) hdvd)

/-- Settles O48: after the store each element holds its lane, and the load reads every element; the state between them has
the operands, the stride and the regions of the first. -/
theorem storeThenLoadReproducesTheRegister : Obligations.StoreThenLoadReproducesTheRegister := by
  refine ⟨fun s rs2 rd hvl hw hps hpl hdistinct => ?_, fun s hvl hstride j k hjk hk heq => ?_⟩
  · obtain ⟨t, hstore, hstored, -, ⟨-, -, -, hvl', hstride⟩, ⟨-, hxs1, -⟩, -, ⟨-, -, -, -, -, hregions, -⟩, -, -, hdone⟩ :=
      storeWritesTheActiveLanes s rs2 hvl hw hps
    have hplain : t.plainElements .load t.vl := fun k hk => by
      rw [Outside.answer_of_regions_eq hregions, hxs1, hstride]
      exact hpl k (hvl' ▸ hk)
    obtain ⟨u, hload, hlanes, -, -, -, -, -, -, -, hdone'⟩ := loadReadsTheElementsInOrder t rd (hvl' ▸ hvl) hplain
    refine ⟨t, u, hstore, hload, hdone, hdone', fun i hi => ?_⟩
    rw [hlanes, hvl', if_pos hi, hxs1, hstride]
    exact hstored i hi fun j hij hj => (hdistinct i.val j hij hj).symm
  · exact hstride (dvd_stride_of_elementAddress_eq s.xs1 s.stride hjk (by omega) heq)

end Sys2Proof.Machine
end

section
/-! The cause table (60_exceptions.md R300): a command can raise one cause at most, under one condition. -/

namespace Sys2Proof.Machine

/-- The code of the only cause the command can raise; 0 for a command that never faults. -/
def causeCodeOf (i : Instr) : BitVec 3 :=
  match i with
  | .configVL | .configIllegalSelector _ => 1
  | .minmaxIllegalMode _ _ | .activationIllegalKind _ _ _ => 2
  | .divVS _ _ => 3
  | .shuffle _ _ _ => 4
  | .load _ | .store _ | .configMatrix => 5
  | .dotp _ _ | .mvm _ _ => 6
  | .addVV _ _ _ | .subVV _ _ _ | .addVS _ _ | .subVS _ _ | .mulVS _ _ | .activationRelu _ _ | .minmaxMax _ | .minmaxMin _
  | .configMask _ | .dump | .unrecognizedOp15 | .unrecognizedOp16to31 _ | .unrecognizedReserved _ => 0

/-- When the command faults. -/
def faultCondition (i : Instr) (s : State) : Prop :=
  match i with
  | .configVL => ¬(1 ≤ s.xs1.toNat ∧ s.xs1.toNat ≤ 32)
  | .configIllegalSelector _ | .minmaxIllegalMode _ _ | .activationIllegalKind _ _ _ => True
  | .divVS _ _ => s.xs1 = 0
  | .shuffle _ _ rs2 => ∃ j : Fin 32, j.val < s.vl ∧ ((s.lane rs2 j).toInt < 0 ∨ 31 < (s.lane rs2 j).toInt)
  | .load _ => s.faultsWithin .load (min s.vl 32)
  | .store _ => s.faultsWithin .store (min s.vl 32)
  | .configMatrix => s.faultsWithin .load (min s.vl 32 * min s.vl 32)
  | .dotp _ _ | .mvm _ _ => s.bridgeReady = false
  | .addVV _ _ _ | .subVV _ _ _ | .addVS _ _ | .subVS _ _ | .mulVS _ _ | .activationRelu _ _ | .minmaxMax _ | .minmaxMin _
  | .configMask _ | .dump | .unrecognizedOp15 | .unrecognizedOp16to31 _ | .unrecognizedReserved _ => False

/-- The response of a command that faults under the condition `p` with the cause code `c`, and otherwise not. -/
abbrev Response.faultsIff (r : Response) (p : Prop) (c : BitVec 3) : Prop :=
  (p ∧ r.fault = true ∧ r.cause = c) ∨ (¬p ∧ r.fault = false)

theorem Response.fault_and_cause_iff {r : Response} {p : Prop} {c : BitVec 3} (h : r.faultsIff p c) (k : BitVec 3) :
    r.fault = true ∧ r.cause = k ↔ c = k ∧ p := by
  rcases h with ⟨hp, hf, hc⟩ | ⟨hp, hf⟩
  · simp [hp, hf, hc]
  · simp [hp, hf]

theorem State.loadRun_fault_iff (s : State) (n : Nat) :
    (s.outside.loadRun s.xs1 s.stride n 0).ending = .fault ↔ s.faultsWithin .load n := by
  simpa only [Nat.zero_add] using s.outside.loadRun_fault_iff s.xs1 s.stride n 0

theorem State.storeRun_fault_iff (s : State) (rs2 : Reg) :
    (s.outside.storeRun s.xs1 s.stride (s.storedLanes rs2) 0).1 = .fault ↔ s.faultsWithin .store s.active := by
  simpa only [Nat.zero_add, s.storedLanes_length] using
    s.outside.storeRun_fault_iff s.xs1 s.stride (s.storedLanes rs2) 0

theorem load_faultsIff (rd : Reg) (s t : State) (h : exec (.load rd) s = .next t) :
    t.resp.faultsIff (s.faultsWithin .load s.active) 5 := by
  rw [← s.loadRun_fault_iff]
  rcases execLoad_cases rd s _ rfl with ⟨he, ht⟩ | ⟨he, ht⟩ | ⟨he, ht⟩ <;> cases ht.symm.trans h
  · exact .inr ⟨by simp [he], rfl⟩
  · exact .inl ⟨he, rfl, rfl⟩
  · exact .inr ⟨by simp [he], rfl⟩

theorem store_faultsIff (rs2 : Reg) (s t : State) (h : exec (.store rs2) s = .next t) :
    t.resp.faultsIff (s.faultsWithin .store s.active) 5 := by
  rw [← s.storeRun_fault_iff rs2]
  rcases execStore_cases rs2 s _ rfl with ⟨he, ht⟩ | ⟨he, ht⟩ | ⟨he, ht⟩ <;> cases ht.symm.trans h
  · exact .inr ⟨by simp [he], rfl⟩
  · exact .inl ⟨he, rfl, rfl⟩
  · exact .inr ⟨by simp [he], rfl⟩

theorem configMatrix_faultsIff (s t : State) (h : exec .configMatrix s = .next t) :
    t.resp.faultsIff (s.faultsWithin .load (s.active * s.active)) 5 := by
  rw [← s.loadRun_fault_iff]
  rcases execConfigMatrix_cases s _ rfl with ⟨he, ht⟩ | ⟨he, ht⟩ | ⟨he, ht⟩ <;> cases ht.symm.trans h
  · exact .inr ⟨by simp [he], rfl⟩
  · exact .inl ⟨he, rfl, rfl⟩
  · exact .inr ⟨by simp [he], rfl⟩

theorem State.not_indicesInRange_iff (s : State) (rs2 : Reg) :
    ¬s.indicesInRange rs2 ↔
      ∃ j : Fin 32, j.val < s.vl ∧ ((s.lane rs2 j).toInt < 0 ∨ 31 < (s.lane rs2 j).toInt) := by
  simp only [State.indicesInRange, not_forall, not_and_or, not_le, exists_prop]

/-- Every command by its one cause and condition, through what its meaning can answer. -/
theorem exec_faultsIff (i : Instr) (s t : State) (hw : i.wf = true) (h : exec i s = .next t) :
    t.resp.faultsIff (faultCondition i s) (causeCodeOf i) := by
  cases i with
  | divVS rd rs2 =>
    rcases execDivVS_cases rd rs2 s with ⟨h0, ht⟩ | ⟨h0, ht⟩ <;> cases ht.symm.trans h
    · exact .inl ⟨h0, rfl, rfl⟩
    · exact .inr ⟨h0, rfl⟩
  | shuffle rd rs1 rs2 =>
    rcases execShuffle_cases rd rs1 rs2 s with ⟨hr, ht⟩ | ⟨hr, ht⟩ <;> cases ht.symm.trans h
    · exact .inr ⟨fun hn => (s.not_indicesInRange_iff rs2).mpr hn hr, rfl⟩
    · exact .inl ⟨(s.not_indicesInRange_iff rs2).mp hr, rfl, rfl⟩
  | activationIllegalKind rd rs1 kind =>
    rcases activation_cases s rd rs1 kind with ⟨hk, -⟩ | ⟨-, ht⟩
    · simp [Instr.wf, hk] at hw
    · cases (congrArg Host.Outcome.next ht).symm.trans h
      exact .inl ⟨trivial, rfl, rfl⟩
  | minmaxIllegalMode rs1 mode =>
    rcases minmax_cases s rs1 mode with ⟨hm, -⟩ | ⟨hm, -⟩ | ⟨-, -, ht⟩
    · simp [Instr.wf, hm] at hw
    · simp [Instr.wf, hm] at hw
    · cases (congrArg Host.Outcome.next ht).symm.trans h
      exact .inl ⟨trivial, rfl, rfl⟩
  | dotp rs1 rs2 =>
    rcases execDotp_cases rs1 rs2 s with ⟨hb, ht⟩ | ⟨_, hb, -, ht⟩ | ⟨hb, -, ht⟩ <;> cases ht.symm.trans h
    · exact .inl ⟨hb, rfl, rfl⟩
    · exact .inr ⟨by simp [faultCondition, hb], rfl⟩
    · exact .inr ⟨by simp [faultCondition, hb], rfl⟩
  | mvm rd rs1 =>
    rcases execMvm_cases rd rs1 s with ⟨hb, ht⟩ | ⟨_, hb, -, ht⟩ | ⟨hb, -, ht⟩ <;> cases ht.symm.trans h
    · exact .inl ⟨hb, rfl, rfl⟩
    · exact .inr ⟨by simp [faultCondition, hb], rfl⟩
    · exact .inr ⟨by simp [faultCondition, hb], rfl⟩
  | configVL =>
    rcases execConfigVL_cases s with ⟨hx, ht⟩ | ⟨hx, ht⟩ <;> cases ht.symm.trans h
    · exact .inr ⟨not_not.mpr hx, rfl⟩
    · exact .inl ⟨hx, rfl, rfl⟩
  | configIllegalSelector sel => cases h; exact .inl ⟨trivial, rfl, rfl⟩
  | load rd => exact load_faultsIff rd s t h
  | store rs2 => exact store_faultsIff rs2 s t h
  | configMatrix => exact configMatrix_faultsIff s t h
  | _ => cases h; exact .inr ⟨id, rfl⟩

/-- Settles O21: each line of the table names the commands whose one cause it is, and their condition. -/
theorem faultCausesAreThoseOfTheTable : Obligations.FaultCausesAreThoseOfTheTable := by
  intro i s t hw h
  simp only [Response.fault_and_cause_iff (exec_faultsIff i s t hw h)]
  cases i <;> simp [causeCodeOf, faultCondition]

end Sys2Proof.Machine
end

section
/-! The host's own events: `rst` between commands and during one (70_reset_and_hazards.md R340, R341; log 29), and the write
of a byte of the host memory (20_memory.md R61). -/

namespace Sys2Proof.Machine

/-! The event a step serves. -/

/-- An asynchronous event is served as the next one, and behind what a block that accepts no command holds up (log 11,
log 28). -/
theorem nextEvent_behind_held (ready : Bool) (held rest : List HostEvent) (e : HostEvent) (he : e.asynchronous = true)
    (h : held = [] ∨ ready = false ∧ ∀ x ∈ held, x.held) :
    nextEvent ready (held ++ e :: rest) = some (e, held ++ rest) := by
  rcases h with rfl | ⟨rfl, hheld⟩
  · simp [nextEvent, he]
  · exact nextEvent_stuck_append held rest e (fun x hx => x.held_iff.mp (hheld x hx)) he

/-- A served event that is no command takes effect at once. -/
theorem step_of_served (s : State) (e : HostEvent) (rest : List HostEvent)
    (h : nextEvent s.cmdReady s.inbox = some (e, rest)) (he : ∀ w x1 x2, e ≠ .command w x1 x2) :
    step s = .next ((s.withInbox rest).serve e) := by
  rcases step_cases s with ⟨hn, -⟩ | ⟨w, x1, x2, rest', hn, -⟩ | ⟨e', rest', hn, -, hs⟩
  · simp [hn] at h
  · cases hn.symm.trans h
    exact absurd rfl (he w x1 x2)
  · cases hn.symm.trans h
    exact hs

/-- A step of a block that accepts no command and is offered nothing asynchronous changes nothing. -/
theorem step_of_held (s : State) (hr : s.cmdReady = false) (h : ∀ e ∈ s.inbox, e.asynchronous = false) :
    step s = .next s := by
  simp only [step, hr, nextEvent_stuck s.inbox h]

/-! The host's write. -/

/-- Settles O59, by the laws of one byte of memory. -/
theorem hostWriteChangesOneByte : Obligations.HostWriteChangesOneByte := by
  intro s a b rest
  refine ⟨fun hr hi hw => ⟨s.outside.mem.write a.toNat b, ?_, Memory.wf_write _ a b hw,
    Memory.read_write_self _ _ 0 b hw, fun c hc => Memory.read_write_ne _ _ _ b fun e => hc (BitVec.eq_of_toNat_eq e)⟩,
    fun hr hi => step_of_held s hr (by simp [hi, HostEvent.asynchronous])⟩
  exact step_of_served s (.hostWrite a b) rest (by rw [hr, hi, nextEvent_ready]) (by simp)

/-! `rst`. -/

theorem State.applyRst_not_cmdReady (s : State) : s.applyRst.cmdReady = false := rfl

/-- An abandoned STORE whose first `m` elements are answered, `m` being all it has made of its calls or the element that
faults or is never answered: memory holds what the stores of those elements left (log 29). -/
theorem State.abandonedStore_outside (s : State) (rs2 : Reg) (n m : Nat) (hm : m ≤ min n s.active)
    (ha : s.answeredElements .store m)
    (hs : m = min n s.active ∨ s.outside.answer .store (elementAddress s.xs1 s.stride m) = .fault ∨
      s.outside.answer .store (elementAddress s.xs1 s.stride m) = .never) :
    (∀ a, (s.outsideAfter (.store rs2) n).byteAt a =
      (s.outside.storeRun s.xs1 s.stride ((s.storedLanes rs2).take m) 0).2.byteAt a) ∧
    ∀ a, (s.outsideAfter (.store rs2) n).valueAt a =
      (s.outside.storeRun s.xs1 s.stride ((s.storedLanes rs2).take m) 0).2.valueAt a := by
  by_cases hall : m = min n s.active
  · have htake : (s.storedLanes rs2).take m = (s.storedLanes rs2).take n := by
      rw [hall, ← s.storedLanes_length rs2, ← List.take_eq_take_min]
    simp only [State.outsideAfter, htake, implies_true, and_self]
  · have hstop : ∃ e : Ending, (e = .fault ∧ s.outside.answer .store (elementAddress s.xs1 s.stride m) = .fault) ∨
        (e = .never ∧ s.outside.answer .store (elementAddress s.xs1 s.stride m) = .never) :=
      (hs.resolve_left hall).elim (fun hf => ⟨_, .inl ⟨rfl, hf⟩⟩) fun hn => ⟨_, .inr ⟨rfl, hn⟩⟩
    obtain ⟨e, he⟩ := hstop
    simp only [State.outsideAfter, s.storeRun_stops rs2 n m e (by omega) (by omega) ha he, Outside.issue_byteAt,
      Outside.issue_valueAt, implies_true, and_self]

/-- The elements an abandoned STORE leaves in memory; of what accepting the command changes, the store reads `xs1` alone. -/
theorem State.abandon_storesElements (s : State) (i : Instr) (rs2 : Reg) (x1 x2 : Word64) (n m : Nat)
    (hi : i = .store rs2) (hw : s.outside.mem.wf = true) (hvl : s.vl ≤ 32) (hm : m ≤ min n s.vl)
    (ha : ({ s with xs1 := x1 } : State).answeredElements .store m)
    (hs : m = min n s.vl ∨ s.outside.answer .store (elementAddress x1 s.stride m) = .fault ∨
      s.outside.answer .store (elementAddress x1 s.stride m) = .never) :
    ({ s with xs1 := x1 } : State).storesElements ((s.accept i x1 x2).abandon i n) rs2 m := by
  subst hi
  rw [← s.active_of_le hvl] at hm hs
  obtain ⟨hbytes, hvalues⟩ := ({ s with xs1 := x1 } : State).abandonedStore_outside rs2 n m hm ha hs
  exact State.storesElements_of_storeRun _ _ rs2 m (hm.trans (Nat.min_le_right _ _)) hw ha hbytes hvalues

/-- Settles O10: the state that asserting `rst` leaves, for the event and for an abandoned command, and what the command's
port calls did outside the block. -/
theorem resetEventSetsTheResetValues : Obligations.ResetEventSetsTheResetValues := by
  refine ⟨fun s held rest hi hheld => ?_, fun s held rest hi hheld => ?_, fun s w x1 x2 n rest hr hi => ?_⟩
  · have hstep := step_of_served s (.rst true) (held ++ rest) (hi ▸ nextEvent_behind_held _ held rest _ rfl hheld) (by simp)
    exact ⟨_, hstep, State.applyRst_hasResetValues _, rfl, State.applyRst_not_cmdReady _, rfl,
      everyStepKeepsTheParameters _ _ hstep, fun _ => rfl, rfl, rfl⟩
  · exact step_of_served s (.rst false) (held ++ rest) (hi ▸ nextEvent_behind_held _ held rest _ rfl hheld) (by simp)
  · have hstep := step_of_served s (.abandonedCommand w x1 x2 n) rest (by rw [hr, hi, nextEvent_ready]) (by simp)
    obtain ⟨-, -, hmem⟩ := ((s.withInbox rest).accept (decode w) x1 x2).outsideAfter_keeps (decode w) n
    exact ⟨_, hstep, State.applyRst_hasResetValues _, rfl, State.applyRst_not_cmdReady _, rfl,
      everyStepKeepsTheParameters _ _ hstep, rfl, fun hne => sameMemory_of_mem_eq (hmem hne),
      fun rs2 m hd hw hvl hm ha hs => (s.withInbox rest).abandon_storesElements _ rs2 x1 x2 n m hd hw hvl hm ha hs⟩

end Sys2Proof.Machine
end

section
/-! The command word (30_encoding.md R71, R74, R76, R82): the opcode map as a relation between words and commands, which the
decoder computes and which the encoder's words satisfy. -/

namespace Sys2Proof.Machine

/-! What a mask of spec/opcode_table.json keeps of a packed word. -/

@[simp] theorem reg_and_ones (x : Reg) : x &&& 31#5 = x := BitVec.and_allOnes

@[simp] theorem reserved_and_ones (x : BitVec 12) : x &&& 4095#12 = x := BitVec.and_allOnes

section
variable (op rd rs1 rs2 : Reg) (r : BitVec 12)

theorem packFields_and_all : packFields op rd rs1 rs2 r &&& 0xffffffff#32 = packFields op rd rs1 rs2 r :=
  BitVec.and_allOnes

theorem packFields_and_op_rd_rs2 : packFields op rd rs1 rs2 r &&& 0xffff83ff#32 = packFields op rd 0 rs2 r := by
  simp [and_fields op rd rs1 rs2 31 31 0 31 r 4095 0xffff83ff#32 (by decide)]

theorem packFields_and_op_rs1_rs2 : packFields op rd rs1 rs2 r &&& 0xfffffc1f#32 = packFields op 0 rs1 rs2 r := by
  simp [and_fields op rd rs1 rs2 31 0 31 31 r 4095 0xfffffc1f#32 (by decide)]

theorem packFields_and_op_rd_rs1 : packFields op rd rs1 rs2 r &&& 0xfff07fff#32 = packFields op rd rs1 0 r := by
  simp [and_fields op rd rs1 rs2 31 31 31 0 r 4095 0xfff07fff#32 (by decide)]

theorem packFields_and_op_rd : packFields op rd rs1 rs2 r &&& 0xfff003ff#32 = packFields op rd 0 0 r := by
  simp [and_fields op rd rs1 rs2 31 31 0 0 r 4095 0xfff003ff#32 (by decide)]

theorem packFields_and_op_rs2 : packFields op rd rs1 rs2 r &&& 0xffff801f#32 = packFields op 0 0 rs2 r := by
  simp [and_fields op rd rs1 rs2 31 0 0 31 r 4095 0xffff801f#32 (by decide)]

theorem packFields_and_op : packFields op rd rs1 rs2 r &&& 0xfff0001f#32 = packFields op 0 0 0 r := by
  simp [and_fields op rd rs1 rs2 31 0 0 0 r 4095 0xfff0001f#32 (by decide)]

/-- The rows from 15 on do not read the reserved bits (log 21). -/
theorem packFields_and_op_alone : packFields op rd rs1 rs2 r &&& 0x0000001f#32 = packFields op 0 0 0 0 := by
  simp [and_fields op rd rs1 rs2 31 0 0 0 r 0 0x0000001f#32 (by decide)]

theorem packFields_and_highOp (h : 16 ≤ op.toNat) : packFields op rd rs1 rs2 r &&& 0x00000010#32 = 0x00000010#32 := by
  have hop : op &&& 16 = 16 := by revert h; revert op; decide
  rw [and_fields op rd rs1 rs2 16 0 0 0 r 0 0x00000010#32 (by decide), hop]
  simp only [BitVec.ofNat_eq_ofNat, BitVec.and_zero]
  decide

/-! The fields of a packed word as numbers (R71). -/

theorem toNat_extractLsb'_eq_fieldAt (w : CmdWord) (lo : Nat) : (w.extractLsb' lo 5).toNat = fieldAt w lo := by
  rw [BitVec.extractLsb'_toNat, Nat.shiftRight_eq_div_pow]

theorem toNat_op_eq_fieldAt : op.toNat = fieldAt (packFields op rd rs1 rs2 r) 0 :=
  (congrArg BitVec.toNat (opField_packFields op rd rs1 rs2 r)).symm.trans (toNat_extractLsb'_eq_fieldAt _ 0)

theorem toNat_rd_eq_fieldAt : rd.toNat = fieldAt (packFields op rd rs1 rs2 r) 5 :=
  (congrArg BitVec.toNat (rdField_packFields op rd rs1 rs2 r)).symm.trans (toNat_extractLsb'_eq_fieldAt _ 5)

theorem toNat_rs1_eq_fieldAt : rs1.toNat = fieldAt (packFields op rd rs1 rs2 r) 10 :=
  (congrArg BitVec.toNat (rs1Field_packFields op rd rs1 rs2 r)).symm.trans (toNat_extractLsb'_eq_fieldAt _ 10)

theorem toNat_rs2_eq_fieldAt : rs2.toNat = fieldAt (packFields op rd rs1 rs2 r) 15 :=
  (congrArg BitVec.toNat (rs2Field_packFields op rd rs1 rs2 r)).symm.trans (toNat_extractLsb'_eq_fieldAt _ 15)

theorem toNat_reserved_eq_div : r.toNat = (packFields op rd rs1 rs2 r).toNat / 2 ^ 20 := by
  have := op.isLt
  have := rd.isLt
  have := rs1.isLt
  have := rs2.isLt
  rw [packFields_toNat]
  omega

end

theorem packFields_injective {op op' rd rd' rs1 rs1' rs2 rs2' : Reg} {r r' : BitVec 12}
    (h : packFields op rd rs1 rs2 r = packFields op' rd' rs1' rs2' r') :
    op = op' ∧ rd = rd' ∧ rs1 = rs1' ∧ rs2 = rs2' ∧ r = r' :=
  ⟨by simpa using congrArg opField h, by simpa using congrArg rdField h, by simpa using congrArg rs1Field h,
    by simpa using congrArg rs2Field h, by simpa using congrArg reservedField h⟩

/-- Packed words that agree on the bits a mask keeps, by what the mask keeps of each, agree on those fields. -/
theorem fields_eq_of_and_eq {w w' m : CmdWord} {op op' rd rd' rs1 rs1' rs2 rs2' : Reg} {r r' : BitVec 12}
    (h : w &&& m = w' &&& m) (hw : w &&& m = packFields op rd rs1 rs2 r)
    (hw' : w' &&& m = packFields op' rd' rs1' rs2' r') : op = op' ∧ rd = rd' ∧ rs1 = rs1' ∧ rs2 = rs2' ∧ r = r' :=
  packFields_injective (hw.symm.trans (h.trans hw'))

/-! The opcode map. -/

/-- The opcode map as a relation: one constructor per row of R74, R76 and R77, which fixes the fields the row gives a value and
leaves the fields it ignores free (R75). -/
inductive DecodesTo : CmdWord → Instr → Prop
  | addVV (rd rs1 rs2 : Reg) : DecodesTo (packFields 0 rd rs1 rs2 0) (.addVV rd rs1 rs2)
  | subVV (rd rs1 rs2 : Reg) : DecodesTo (packFields 1 rd rs1 rs2 0) (.subVV rd rs1 rs2)
  | addVS (rd rs1 rs2 : Reg) : DecodesTo (packFields 2 rd rs1 rs2 0) (.addVS rd rs2)
  | subVS (rd rs1 rs2 : Reg) : DecodesTo (packFields 3 rd rs1 rs2 0) (.subVS rd rs2)
  | mulVS (rd rs1 rs2 : Reg) : DecodesTo (packFields 4 rd rs1 rs2 0) (.mulVS rd rs2)
  | divVS (rd rs1 rs2 : Reg) : DecodesTo (packFields 5 rd rs1 rs2 0) (.divVS rd rs2)
  | shuffle (rd rs1 rs2 : Reg) : DecodesTo (packFields 6 rd rs1 rs2 0) (.shuffle rd rs1 rs2)
  | activationRelu (rd rs1 : Reg) : DecodesTo (packFields 7 rd rs1 0 0) (.activationRelu rd rs1)
  | activationIllegalKind (rd rs1 kind : Reg) (h : 1 ≤ kind.toNat) :
      DecodesTo (packFields 7 rd rs1 kind 0) (.activationIllegalKind rd rs1 kind)
  | minmaxMax (rd rs1 : Reg) : DecodesTo (packFields 8 rd rs1 0 0) (.minmaxMax rs1)
  | minmaxMin (rd rs1 : Reg) : DecodesTo (packFields 8 rd rs1 1 0) (.minmaxMin rs1)
  | minmaxIllegalMode (rd rs1 mode : Reg) (h : 2 ≤ mode.toNat) :
      DecodesTo (packFields 8 rd rs1 mode 0) (.minmaxIllegalMode rs1 mode)
  | dotp (rd rs1 rs2 : Reg) : DecodesTo (packFields 9 rd rs1 rs2 0) (.dotp rs1 rs2)
  | mvm (rd rs1 rs2 : Reg) : DecodesTo (packFields 10 rd rs1 rs2 0) (.mvm rd rs1)
  | configVL (rs1 rs2 : Reg) : DecodesTo (packFields 11 0 rs1 rs2 0) .configVL
  | configMask (rs1 rs2 : Reg) : DecodesTo (packFields 11 1 rs1 rs2 0) (.configMask rs2)
  | configMatrix (rs1 rs2 : Reg) : DecodesTo (packFields 11 2 rs1 rs2 0) .configMatrix
  | configIllegalSelector (sel rs1 rs2 : Reg) (h : 3 ≤ sel.toNat) :
      DecodesTo (packFields 11 sel rs1 rs2 0) (.configIllegalSelector sel)
  | load (rd rs1 rs2 : Reg) : DecodesTo (packFields 12 rd rs1 rs2 0) (.load rd)
  | store (rd rs1 rs2 : Reg) : DecodesTo (packFields 13 rd rs1 rs2 0) (.store rs2)
  | dump (rd rs1 rs2 : Reg) : DecodesTo (packFields 14 rd rs1 rs2 0) .dump
  | unrecognizedOp15 (rd rs1 rs2 : Reg) (r : BitVec 12) : DecodesTo (packFields 15 rd rs1 rs2 r) .unrecognizedOp15
  | unrecognizedOp16to31 (op rd rs1 rs2 : Reg) (r : BitVec 12) (h : 16 ≤ op.toNat) :
      DecodesTo (packFields op rd rs1 rs2 r) (.unrecognizedOp16to31 op)
  | unrecognizedReserved (op rd rs1 rs2 : Reg) (r : BitVec 12) (hop : op.toNat ≤ 14) (hr : r ≠ 0) :
      DecodesTo (packFields op rd rs1 rs2 r) (.unrecognizedReserved r)

theorem decodesTo_decodeActivation (rd rs1 kind : Reg) :
    DecodesTo (packFields 7 rd rs1 kind 0) (decodeActivation rd rs1 kind) := by
  unfold decodeActivation
  split
  next h => subst h; exact .activationRelu rd rs1
  next h => exact .activationIllegalKind rd rs1 kind (by bv_omega)

theorem decodesTo_decodeMinmax (rd rs1 mode : Reg) : DecodesTo (packFields 8 rd rs1 mode 0) (decodeMinmax rs1 mode) := by
  unfold decodeMinmax
  split
  next h => subst h; exact .minmaxMax rd rs1
  next h0 =>
    split
    next h => subst h; exact .minmaxMin rd rs1
    next h1 => exact .minmaxIllegalMode rd rs1 mode (by bv_omega)

theorem decodesTo_decodeConfig (sel rs1 rs2 : Reg) :
    DecodesTo (packFields 11 sel rs1 rs2 0) (decodeConfig sel rs2) := by
  unfold decodeConfig
  split
  next h => subst h; exact .configVL rs1 rs2
  next h0 =>
    split
    next h => subst h; exact .configMask rs1 rs2
    next h1 =>
      split
      next h => subst h; exact .configMatrix rs1 rs2
      next h2 => exact .configIllegalSelector sel rs1 rs2 (by bv_omega)

/-- A word with an `op` up to 14 is its row's command, or the unrecognized one of its reserved bits (R76). -/
theorem decodesTo_unlessReserved {op rd rs1 rs2 : Reg} {r : BitVec 12} {i : Instr} (k : Reg) (hop : op.toNat = k.toNat)
    (hk : k.toNat ≤ 14) (h : DecodesTo (packFields k rd rs1 rs2 0) i) :
    DecodesTo (packFields op rd rs1 rs2 r) (unlessReserved r i) := by
  obtain rfl := BitVec.eq_of_toNat_eq hop
  unfold unlessReserved
  split
  next hr => subst hr; exact h
  next hr => exact .unrecognizedReserved op rd rs1 rs2 r hk hr

/-- The decoder answers a command that the opcode map gives the word. -/
theorem decodesTo_decode (w : CmdWord) : DecodesTo w (decode w) := by
  have hw := packFields_fields w
  generalize opField w = op, rdField w = rd, rs1Field w = rs1, rs2Field w = rs2, reservedField w = r at hw
  subst hw
  simp only [decode, opField_packFields, rdField_packFields, rs1Field_packFields, rs2Field_packFields,
    reservedField_packFields]
  split
  next h => exact decodesTo_unlessReserved 0 h (by decide) (.addVV rd rs1 rs2)
  next h => exact decodesTo_unlessReserved 1 h (by decide) (.subVV rd rs1 rs2)
  next h => exact decodesTo_unlessReserved 2 h (by decide) (.addVS rd rs1 rs2)
  next h => exact decodesTo_unlessReserved 3 h (by decide) (.subVS rd rs1 rs2)
  next h => exact decodesTo_unlessReserved 4 h (by decide) (.mulVS rd rs1 rs2)
  next h => exact decodesTo_unlessReserved 5 h (by decide) (.divVS rd rs1 rs2)
  next h => exact decodesTo_unlessReserved 6 h (by decide) (.shuffle rd rs1 rs2)
  next h => exact decodesTo_unlessReserved 7 h (by decide) (decodesTo_decodeActivation rd rs1 rs2)
  next h => exact decodesTo_unlessReserved 8 h (by decide) (decodesTo_decodeMinmax rd rs1 rs2)
  next h => exact decodesTo_unlessReserved 9 h (by decide) (.dotp rd rs1 rs2)
  next h => exact decodesTo_unlessReserved 10 h (by decide) (.mvm rd rs1 rs2)
  next h => exact decodesTo_unlessReserved 11 h (by decide) (decodesTo_decodeConfig rd rs1 rs2)
  next h => exact decodesTo_unlessReserved 12 h (by decide) (.load rd rs1 rs2)
  next h => exact decodesTo_unlessReserved 13 h (by decide) (.store rd rs1 rs2)
  next h => exact decodesTo_unlessReserved 14 h (by decide) (.dump rd rs1 rs2)
  next h =>
    obtain rfl : op = 15 := BitVec.eq_of_toNat_eq h
    exact .unrecognizedOp15 rd rs1 rs2 r
  next => exact .unrecognizedOp16to31 op rd rs1 rs2 r (by simp only [imp_false] at *; omega)

/-- A command that the opcode map gives a word is the one that the decoder answers: where rows share an `op`, the field that
R77 tells them apart by decides, and from `op` 15 on the reserved bits do not (log 21). -/
theorem DecodesTo.decode_eq {w : CmdWord} {i : Instr} (h : DecodesTo w i) : decode w = i := by
  cases h with
  | activationIllegalKind rd rs1 kind h =>
    have h0 : kind ≠ 0#5 := by bv_omega
    simp [decode, unlessReserved, decodeActivation, h0]
  | minmaxIllegalMode rd rs1 mode h =>
    have h0 : mode ≠ 0#5 := by bv_omega
    have h1 : mode ≠ 1#5 := by bv_omega
    simp [decode, unlessReserved, decodeMinmax, h0, h1]
  | configIllegalSelector sel rs1 rs2 h =>
    have h0 : sel ≠ 0#5 := by bv_omega
    have h1 : sel ≠ 1#5 := by bv_omega
    have h2 : sel ≠ 2#5 := by bv_omega
    simp [decode, unlessReserved, decodeConfig, h0, h1, h2]
  | unrecognizedOp16to31 op rd rs1 rs2 r h =>
    simp only [decode, opField_packFields]
    split
    case h_17 => rfl
    all_goals omega
  | unrecognizedReserved op rd rs1 rs2 r hop hr =>
    simp only [decode, opField_packFields, reservedField_packFields, unlessReserved, if_neg hr]
    split
    case h_16 => omega
    case h_17 => simp only [imp_false] at *; omega
    all_goals rfl
  | activationRelu => simp [decode, unlessReserved, decodeActivation]
  | minmaxMax | minmaxMin => simp [decode, unlessReserved, decodeMinmax]
  | configVL | configMask | configMatrix => simp [decode, unlessReserved, decodeConfig]
  | _ => simp [decode, unlessReserved]

/-- The decoder computes the opcode map. -/
theorem decode_eq_iff (w : CmdWord) (i : Instr) : decode w = i ↔ DecodesTo w i :=
  ⟨fun h => h ▸ decodesTo_decode w, fun h => h.decode_eq⟩

/-! Encoding. -/

/-- The encoded word of a well-formed command lies in the command's own row, with 0 in the fields the row ignores (R82). -/
theorem decodesTo_encode (i : Instr) (h : i.wf = true) : DecodesTo (encode i) i := by
  cases i with
  | activationIllegalKind rd rs1 kind => exact .activationIllegalKind rd rs1 kind (of_decide_eq_true h)
  | minmaxIllegalMode rs1 mode => exact .minmaxIllegalMode 0 rs1 mode (of_decide_eq_true h)
  | configIllegalSelector sel => exact .configIllegalSelector sel 0 0 (of_decide_eq_true h)
  | unrecognizedOp16to31 op => exact .unrecognizedOp16to31 op 0 0 0 0 (of_decide_eq_true h)
  | unrecognizedReserved r => exact .unrecognizedReserved 0 0 0 0 r (by decide) (of_decide_eq_true h)
  | addVV rd rs1 rs2 => exact .addVV rd rs1 rs2
  | subVV rd rs1 rs2 => exact .subVV rd rs1 rs2
  | addVS rd rs2 => exact .addVS rd 0 rs2
  | subVS rd rs2 => exact .subVS rd 0 rs2
  | mulVS rd rs2 => exact .mulVS rd 0 rs2
  | divVS rd rs2 => exact .divVS rd 0 rs2
  | shuffle rd rs1 rs2 => exact .shuffle rd rs1 rs2
  | activationRelu rd rs1 => exact .activationRelu rd rs1
  | minmaxMax rs1 => exact .minmaxMax 0 rs1
  | minmaxMin rs1 => exact .minmaxMin 0 rs1
  | dotp rs1 rs2 => exact .dotp 0 rs1 rs2
  | mvm rd rs1 => exact .mvm rd rs1 0
  | configVL => exact .configVL 0 0
  | configMask rs2 => exact .configMask 0 rs2
  | configMatrix => exact .configMatrix 0 0
  | load rd => exact .load rd 0 0
  | store rs2 => exact .store 0 0 rs2
  | dump => exact .dump 0 0 0
  | unrecognizedOp15 => exact .unrecognizedOp15 0 0 0 0

/-- Settles O1: the encoded word lies in the command's row of the opcode map, and the decoder computes that map. -/
theorem decodeInvertsEncode : Obligations.DecodeInvertsEncode :=
  fun i h => (decode_eq_iff _ _).mpr (decodesTo_encode i h)

theorem decode_of_encode_eq {i : Instr} {w : CmdWord} (h : i.wf = true ∧ encode i = w) : decode w = i :=
  h.2 ▸ decodeInvertsEncode i h.1

/-- Settles O4: each word is the encoded word of its command, but for the last, the word of DUMP with a reserved bit set. -/
theorem writtenOutWordsDecode : Obligations.WrittenOutWordsDecode :=
  ⟨decode_of_encode_eq (by decide), decode_of_encode_eq (by decide), decode_of_encode_eq (by decide),
    decode_of_encode_eq (by decide), decode_of_encode_eq (by decide), decode_of_encode_eq (by decide),
    decode_of_encode_eq (by decide), decode_of_encode_eq (by decide), decode_of_encode_eq (by decide),
    decode_of_encode_eq (by decide), decode_of_encode_eq (by decide),
    (DecodesTo.unrecognizedReserved 14 0 0 0 0x800 (by decide) (by decide)).decode_eq⟩

/-! What every word decodes to. -/

/-- The command of a row is well formed: the conditions of R77 are those of the row (R74, R76). -/
theorem DecodesTo.wf {w : CmdWord} {i : Instr} (h : DecodesTo w i) : i.wf = true := by
  cases h with
  | activationIllegalKind _ _ _ h | minmaxIllegalMode _ _ _ h | configIllegalSelector _ _ _ h
  | unrecognizedOp16to31 _ _ _ _ _ h | unrecognizedReserved _ _ _ _ _ _ h => exact decide_eq_true h
  | _ => rfl

/-- The word carries the fixed bits of the row (spec/opcode_table.json). -/
theorem DecodesTo.fits {w : CmdWord} {i : Instr} (h : DecodesTo w i) : w &&& i.tableMask = i.tableMatch := by
  cases h with
  | activationRelu | minmaxMax | minmaxMin => exact (packFields_and_op_rs2 ..).trans rfl
  | configVL | configMask | configMatrix => exact (packFields_and_op_rd ..).trans rfl
  | unrecognizedOp15 => exact (packFields_and_op_alone ..).trans rfl
  | unrecognizedOp16to31 op rd rs1 rs2 r h => exact packFields_and_highOp op rd rs1 rs2 r h
  | unrecognizedReserved => exact BitVec.and_zero
  | _ => exact (packFields_and_op ..).trans rfl

/-- The operands are the word's own fields (R71, R73). -/
theorem DecodesTo.operands {w : CmdWord} {i : Instr} (h : DecodesTo w i) : operandsAreFieldsOf i w := by
  cases h with
  | addVV | subVV | shuffle | activationIllegalKind =>
    exact ⟨toNat_rd_eq_fieldAt .., toNat_rs1_eq_fieldAt .., toNat_rs2_eq_fieldAt ..⟩
  | addVS | subVS | mulVS | divVS => exact ⟨toNat_rd_eq_fieldAt .., toNat_rs2_eq_fieldAt ..⟩
  | activationRelu | mvm => exact ⟨toNat_rd_eq_fieldAt .., toNat_rs1_eq_fieldAt ..⟩
  | minmaxMax | minmaxMin => exact toNat_rs1_eq_fieldAt ..
  | minmaxIllegalMode | dotp => exact ⟨toNat_rs1_eq_fieldAt .., toNat_rs2_eq_fieldAt ..⟩
  | configVL | configMatrix | dump | unrecognizedOp15 => trivial
  | configMask | store => exact toNat_rs2_eq_fieldAt ..
  | configIllegalSelector | load => exact toNat_rd_eq_fieldAt ..
  | unrecognizedOp16to31 => exact toNat_op_eq_fieldAt ..
  | unrecognizedReserved => exact toNat_reserved_eq_div ..

theorem DecodesTo.op_le_of_reserved {w : CmdWord} {r : BitVec 12} (h : DecodesTo w (.unrecognizedReserved r)) :
    fieldAt w 0 ≤ 14 := by
  cases h with
  | unrecognizedReserved op rd rs1 rs2 r hop hr => exact toNat_op_eq_fieldAt op rd rs1 rs2 r ▸ hop

/-- Settles O2: the word's row of the opcode map is well formed, fits the word and takes its operands from it. -/
theorem decodedWordFitsItsTableRow : Obligations.DecodedWordFitsItsTableRow := fun w =>
  ⟨(decodesTo_decode w).wf, (decodesTo_decode w).fits, (decodesTo_decode w).operands,
    fun _ h => ((decode_eq_iff w _).mp h).op_le_of_reserved⟩

/-! The bits a row reads. -/

/-- The encoder keeps the bits the row reads and writes 0 in the others (R75, R82). -/
theorem DecodesTo.encode_eq {w : CmdWord} {i : Instr} (h : DecodesTo w i) (hi : ∀ r, i ≠ .unrecognizedReserved r) :
    encode i = w &&& i.usedBits := by
  cases h with
  | addVV | subVV | shuffle | activationRelu | activationIllegalKind => exact (packFields_and_all ..).symm
  | addVS | subVS | mulVS | divVS | configMask => exact (packFields_and_op_rd_rs2 ..).symm
  | minmaxMax | minmaxMin | minmaxIllegalMode | dotp => exact (packFields_and_op_rs1_rs2 ..).symm
  | mvm => exact (packFields_and_op_rd_rs1 ..).symm
  | configVL | configMatrix | configIllegalSelector | load => exact (packFields_and_op_rd ..).symm
  | store => exact (packFields_and_op_rs2 ..).symm
  | dump => exact (packFields_and_op ..).symm
  | unrecognizedOp15 | unrecognizedOp16to31 => exact (packFields_and_op_alone ..).symm
  | unrecognizedReserved op rd rs1 rs2 r => exact absurd rfl (hi r)

/-- A word that agrees with one of the row on the bits the row reads lies in the row too (R75). -/
theorem DecodesTo.of_and_usedBits {w w' : CmdWord} {i : Instr} (h : DecodesTo w i)
    (hi : ∀ r, i ≠ .unrecognizedReserved r) (hw : w &&& i.usedBits = w' &&& i.usedBits) : DecodesTo w' i := by
  have hw' := packFields_fields w'
  generalize opField w' = op', rdField w' = rd', rs1Field w' = rs1', rs2Field w' = rs2', reservedField w' = r' at hw'
  subst hw'
  cases h with
  | addVV | subVV | shuffle | activationRelu =>
    obtain ⟨rfl, rfl, rfl, rfl, rfl⟩ := fields_eq_of_and_eq hw (packFields_and_all ..) (packFields_and_all ..)
    with_reducible constructor
  | activationIllegalKind rd rs1 kind h =>
    obtain ⟨rfl, rfl, rfl, rfl, rfl⟩ := fields_eq_of_and_eq hw (packFields_and_all ..) (packFields_and_all ..)
    exact .activationIllegalKind rd rs1 kind h
  | addVS | subVS | mulVS | divVS | configMask =>
    obtain ⟨rfl, rfl, -, rfl, rfl⟩ :=
      fields_eq_of_and_eq hw (packFields_and_op_rd_rs2 ..) (packFields_and_op_rd_rs2 ..)
    with_reducible constructor
  | minmaxMax | minmaxMin | dotp =>
    obtain ⟨rfl, -, rfl, rfl, rfl⟩ :=
      fields_eq_of_and_eq hw (packFields_and_op_rs1_rs2 ..) (packFields_and_op_rs1_rs2 ..)
    with_reducible constructor
  | minmaxIllegalMode rd rs1 mode h =>
    obtain ⟨rfl, -, rfl, rfl, rfl⟩ :=
      fields_eq_of_and_eq hw (packFields_and_op_rs1_rs2 ..) (packFields_and_op_rs1_rs2 ..)
    exact .minmaxIllegalMode rd' rs1 mode h
  | mvm =>
    obtain ⟨rfl, rfl, rfl, -, rfl⟩ :=
      fields_eq_of_and_eq hw (packFields_and_op_rd_rs1 ..) (packFields_and_op_rd_rs1 ..)
    with_reducible constructor
  | configVL | configMatrix | load =>
    obtain ⟨rfl, rfl, -, -, rfl⟩ := fields_eq_of_and_eq hw (packFields_and_op_rd ..) (packFields_and_op_rd ..)
    with_reducible constructor
  | configIllegalSelector sel rs1 rs2 h =>
    obtain ⟨rfl, rfl, -, -, rfl⟩ := fields_eq_of_and_eq hw (packFields_and_op_rd ..) (packFields_and_op_rd ..)
    exact .configIllegalSelector sel rs1' rs2' h
  | store =>
    obtain ⟨rfl, -, -, rfl, rfl⟩ := fields_eq_of_and_eq hw (packFields_and_op_rs2 ..) (packFields_and_op_rs2 ..)
    with_reducible constructor
  | dump =>
    obtain ⟨rfl, -, -, -, rfl⟩ := fields_eq_of_and_eq hw (packFields_and_op ..) (packFields_and_op ..)
    with_reducible constructor
  | unrecognizedOp15 =>
    obtain ⟨rfl, -⟩ := fields_eq_of_and_eq hw (packFields_and_op_alone ..) (packFields_and_op_alone ..)
    with_reducible constructor
  | unrecognizedOp16to31 op rd rs1 rs2 r h =>
    obtain ⟨rfl, -⟩ := fields_eq_of_and_eq hw (packFields_and_op_alone ..) (packFields_and_op_alone ..)
    exact .unrecognizedOp16to31 op rd' rs1' rs2' r' h
  | unrecognizedReserved op rd rs1 rs2 r => exact absurd rfl (hi r)

/-- Settles O3: a row of the opcode map is told by the bits it reads, and the encoder keeps those alone. -/
theorem ignoredFieldsHaveNoEffect : Obligations.IgnoredFieldsHaveNoEffect := fun w _ hi =>
  ⟨fun hw => ((decodesTo_decode w).of_and_usedBits hi hw).decode_eq, (decodesTo_decode w).encode_eq hi⟩

end Sys2Proof.Machine
end

section
/-! The step on an offered command, on nothing and on what a block that accepts no command holds up (30_encoding.md R80,
70_reset_and_hazards.md R340, R342), and the unrecognized commands (46_dump_unknown.md R262). -/

namespace Sys2Proof.Machine

/-! Accepting a command. -/

/-- Settles O6: the accepting state is that of `State.accept`. -/
theorem stepRunsTheOfferedCommand : Obligations.StepRunsTheOfferedCommand := by
  intro s w x1 x2 rest hr hi
  obtain ⟨hwaiting, hrst⟩ := s.cmdReady_iff.mp hr
  refine ⟨_, step_of_ready_command s w x1 x2 rest hr hi, rfl, rfl, rfl, rfl, rfl, hwaiting, hrst,
    ⟨fun _ => rfl, fun _ => rfl, fun _ _ => rfl, rfl, rfl⟩, ⟨rfl, rfl, rfl, rfl, rfl, rfl, rfl⟩,
    rfl, rfl, rfl, rfl, rfl, rfl, fun n => ?_⟩
  simp only [State.accept_counts_getElem, State.withInbox_counts, Fin.ext_iff]

/-! A block that nothing is offered to, or that accepts no command. -/

theorem step_of_nothing_offered (s : State) (hi : s.inbox = []) : step s = .next s := by
  simp only [step, hi, nextEvent]

theorem State.not_cmdReady (s : State) (h : s.waiting ≠ none ∨ s.rst = true) : s.cmdReady = false := by
  rw [← Bool.not_eq_true, s.cmdReady_iff]
  rintro ⟨hwaiting, hrst⟩
  rcases h with h | h
  · exact h hwaiting
  · simp [hrst] at h

/-- Settles O9: with nothing offered no event is served, and a block that accepts no command serves no held event. -/
theorem stuckCommandHoldsTheBlock : Obligations.StuckCommandHoldsTheBlock :=
  ⟨fun s _ hi => step_of_nothing_offered s hi,
    fun s h => ⟨s.not_cmdReady h, fun hheld =>
      step_of_held s (s.not_cmdReady h) fun e he => e.held_iff.mp (hheld e he)⟩⟩

/-! The unrecognized commands. -/

/-- The unrecognized commands are those counted under UNKNOWN (R261, R262). -/
theorem isUnrecognized_iff_displayName_index (i : Instr) : i.isUnrecognized = true ↔ i.displayName.index.val = 15 := by
  cases i with
  | unrecognizedOp15 | unrecognizedOp16to31 | unrecognizedReserved => exact iff_of_true rfl rfl
  | _ => simp [Instr.isUnrecognized, Instr.displayName, DisplayName.index]

theorem counterOf_eq_unknown_iff (w : CmdWord) : counterOf w = 15 ↔ 15 ≤ w.toNat % 32 ∨ 2 ^ 20 ≤ w.toNat := by
  unfold counterOf
  split
  next h => exact iff_of_true rfl h
  next h => exact ⟨fun e => absurd (.inl e.ge) h, fun h' => absurd h' h⟩

theorem decode_isUnrecognized_iff (w : CmdWord) :
    (decode w).isUnrecognized = true ↔ 15 ≤ w.toNat % 32 ∨ 2 ^ 20 ≤ w.toNat := by
  rw [isUnrecognized_iff_displayName_index, decode_displayName_index, counterOf_eq_unknown_iff]

theorem exec_of_isUnrecognized (i : Instr) (s : State) (h : i.isUnrecognized = true) :
    exec i s = .next s.reportUnrecognized := by
  cases i with
  | unrecognizedOp15 | unrecognizedOp16to31 | unrecognizedReserved => rfl
  | _ => cases h

/-- The unrecognized path changes the response, the host trap and the harness log alone (R262). -/
theorem State.reportUnrecognized_frame (s : State) :
    s.reportUnrecognized.unrecognizedReported ∧ s.sameBlock s.reportUnrecognized ∧ s.sameParameters s.reportUnrecognized ∧
    s.sameMemory s.reportUnrecognized ∧ s.callsMade s.reportUnrecognized [] :=
  ⟨⟨rfl, rfl, rfl, rfl, rfl, rfl⟩, ⟨fun _ => rfl, fun _ => rfl, fun _ _ => rfl, rfl, rfl⟩,
    ⟨rfl, rfl, rfl, rfl, rfl, rfl, rfl⟩, fun _ => rfl, rfl⟩

/-- Settles O5: the unrecognized words are those counted under UNKNOWN, and each takes the unrecognized path. -/
theorem unrecognizedWordsTakeThePermissivePath : Obligations.UnrecognizedWordsTakeThePermissivePath := by
  intro s w x1 x2 rest hr hi
  refine ⟨decode_isUnrecognized_iff w, fun hw => ?_⟩
  have hexec := exec_of_isUnrecognized (decode w) ((s.withInbox rest).accept (decode w) x1 x2)
    ((decode_isUnrecognized_iff w).mpr hw)
  obtain ⟨hreported, hblock, hparameters, hmemory, hcalls⟩ :=
    ((s.withInbox rest).accept (decode w) x1 x2).reportUnrecognized_frame
  exact ⟨_, (step_of_ready_command s w x1 x2 rest hr hi).trans hexec, hreported, hblock, hparameters, hmemory, hcalls,
    rfl, hr, rfl, rfl⟩

end Sys2Proof.Machine
end

section
/-! Noninterference of the inputs that no command reads: `xs2` and the direct activation port (30_encoding.md R73,
70_reset_and_hazards.md R347). -/

namespace Sys2Proof.Machine

/-- `s` with other values in `xs2` and on the direct activation port. -/
def State.withUnread (s : State) (x2 : Word64) (kind : BitVec 2) (x : Lane) (shift : BitVec 5) : State :=
  { s with xs2 := x2, actKind := kind, actX := x, actS := shift }

section
variable (i : Instr) (s : State) (x2 : Word64) (kind : BitVec 2) (x : Lane) (shift : BitVec 5)

@[simp] theorem State.withUnread_outside : (s.withUnread x2 kind x shift).outside = s.outside := rfl
@[simp] theorem State.withUnread_xs1 : (s.withUnread x2 kind x shift).xs1 = s.xs1 := rfl
@[simp] theorem State.withUnread_stride : (s.withUnread x2 kind x shift).stride = s.stride := rfl
@[simp] theorem State.withUnread_active : (s.withUnread x2 kind x shift).active = s.active := rfl
@[simp] theorem State.withUnread_bridgeReady : (s.withUnread x2 kind x shift).bridgeReady = s.bridgeReady := rfl
@[simp] theorem State.withUnread_storedLanes (r : Reg) :
    (s.withUnread x2 kind x shift).storedLanes r = s.storedLanes r := rfl
@[simp] theorem State.withUnread_maskedBuffer (r : Reg) :
    (s.withUnread x2 kind x shift).maskedBuffer r = s.maskedBuffer r := rfl
@[simp] theorem State.withUnread_matrixBuffer : (s.withUnread x2 kind x shift).matrixBuffer = s.matrixBuffer := rfl

/-- A command answers the same state with other values in the inputs it does not read: what decides between the cases of its
meaning, and what each case writes, is the same. -/
theorem exec_withUnread : ∃ t, exec i s = .next t ∧
    exec i (s.withUnread x2 kind x shift) = .next (t.withUnread x2 kind x shift) := by
  cases i with
  | divVS rd rs2 =>
    rcases execDivVS_cases rd rs2 s with ⟨h0, h⟩ | ⟨h0, h⟩
    · exact ⟨_, h, if_pos h0⟩
    · exact ⟨_, h, if_neg h0⟩
  | shuffle rd rs1 rs2 =>
    rcases execShuffle_cases rd rs1 rs2 s with ⟨hr, h⟩ | ⟨hr, h⟩
    · exact ⟨_, h, if_pos hr⟩
    · exact ⟨_, h, if_neg hr⟩
  | activationIllegalKind rd rs1 code =>
    rcases activation_cases s rd rs1 code with ⟨hk, h⟩ | ⟨hk, h⟩
    · exact ⟨_, congrArg Host.Outcome.next h, congrArg Host.Outcome.next (if_pos hk)⟩
    · exact ⟨_, congrArg Host.Outcome.next h, congrArg Host.Outcome.next (if_neg hk)⟩
  | minmaxIllegalMode rs1 mode =>
    rcases minmax_cases s rs1 mode with ⟨h0, h⟩ | ⟨h1, h⟩ | ⟨h0, h1, h⟩
    · exact ⟨_, congrArg Host.Outcome.next h, congrArg Host.Outcome.next (if_pos h0)⟩
    · subst h1
      exact ⟨_, congrArg Host.Outcome.next h, rfl⟩
    · exact ⟨_, congrArg Host.Outcome.next h, congrArg Host.Outcome.next ((if_neg h0).trans (if_neg h1))⟩
  | dotp rs1 rs2 =>
    rcases execDotp_cases rs1 rs2 s with ⟨hb, h⟩ | ⟨_, hb, hacc, h⟩ | ⟨hb, hsilent, h⟩
    · exact ⟨_, h, if_pos hb⟩
    · exact ⟨_, h, by simp only [exec, execDotp, State.withUnread_bridgeReady, State.withUnread_outside,
        State.withUnread_maskedBuffer, hb, reduceCtorEq, if_false, hacc]; rfl⟩
    · exact ⟨_, h, by simp only [exec, execDotp, State.withUnread_bridgeReady, State.withUnread_outside,
        hb, reduceCtorEq, if_false, hsilent, Backend.dotp]; rfl⟩
  | mvm rd rs1 =>
    rcases execMvm_cases rd rs1 s with ⟨hb, h⟩ | ⟨_, hb, hy, h⟩ | ⟨hb, hsilent, h⟩
    · exact ⟨_, h, if_pos hb⟩
    · exact ⟨_, h, by simp only [exec, execMvm, State.withUnread_bridgeReady, State.withUnread_outside,
        State.withUnread_matrixBuffer, State.withUnread_maskedBuffer, hb, reduceCtorEq, if_false, hy]; rfl⟩
    · exact ⟨_, h, by simp only [exec, execMvm, State.withUnread_bridgeReady, State.withUnread_outside,
        hb, reduceCtorEq, if_false, hsilent, Backend.mvm]; rfl⟩
  | configVL =>
    rcases execConfigVL_cases s with ⟨hv, h⟩ | ⟨hv, h⟩
    · exact ⟨_, h, if_pos hv⟩
    · exact ⟨_, h, if_neg hv⟩
  | configMatrix =>
    rcases execConfigMatrix_cases s _ rfl with ⟨he, h⟩ | ⟨he, h⟩ | ⟨he, h⟩ <;>
      exact ⟨_, h, by simp only [exec, execConfigMatrix, State.withUnread_outside, State.withUnread_xs1,
        State.withUnread_stride, State.withUnread_active, he]; rfl⟩
  | load rd =>
    rcases execLoad_cases rd s _ rfl with ⟨he, h⟩ | ⟨he, h⟩ | ⟨he, h⟩ <;>
      exact ⟨_, h, by simp only [exec, execLoad, State.withUnread_outside, State.withUnread_xs1, State.withUnread_stride,
        State.withUnread_active, he]; rfl⟩
  | store rs2 =>
    rcases execStore_cases rs2 s _ rfl with ⟨he, h⟩ | ⟨he, h⟩ | ⟨he, h⟩ <;>
      exact ⟨_, h, by simp only [exec, execStore, State.withUnread_outside, State.withUnread_xs1, State.withUnread_stride,
        State.withUnread_storedLanes, he]; rfl⟩
  | _ => exact ⟨_, rfl, rfl⟩

end

/-- Settles O22: `exec` answers one state, so the one that it answers with the other inputs is that state with them. -/
theorem commandsIgnoreXs2AndTheActivationPort : Obligations.CommandsIgnoreXs2AndTheActivationPort := by
  intro i s t x2 kind x shift h
  obtain ⟨u, hu, hunread⟩ := exec_withUnread i s x2 kind x shift
  cases hu.symm.trans h
  exact hunread

end Sys2Proof.Machine
end

section
/-! The activation unit's values (40_activation_unit.md): the pre-scaled input and its magnitude (R108, R109), the linear
interpolation in the table (R104, R110, R111), and step 6 as one curve on magnitudes that is reflected for negative inputs
(R112, R113). -/

namespace Sys2Proof.Machine

/-! Words read signed (00_scope.md R9). -/

theorem s32_modEq (v : Int) : s32 v ≡ v [ZMOD 2 ^ 32] := by
  rw [s32, BitVec.toInt_ofInt]
  exact Int.bmod_emod

theorem s32_bounds (v : Int) : -2 ^ 31 ≤ s32 v ∧ s32 v < 2 ^ 31 :=
  ⟨BitVec.le_toInt _, BitVec.toInt_lt⟩

theorem s32_of_bounds {v : Int} (hlo : -2 ^ 31 ≤ v) (hhi : v < 2 ^ 31) : s32 v = v := by
  rw [s32, BitVec.toInt_ofInt]
  exact Int.bmod_eq_of_le hlo hhi

theorem toInt_s16_of_bounds {v : Int} (hlo : -32768 ≤ v) (hhi : v ≤ 32767) : (s16 v).toInt = v := by
  rw [toInt_s16]
  omega

theorem lane_toInt_bounds (x : Lane) : -32768 ≤ x.toInt ∧ x.toInt ≤ 32767 :=
  ⟨BitVec.le_toInt x, Int.le_of_lt_add_one BitVec.toInt_lt⟩

theorem lane_toInt_neg (x : Lane) (h : x.toInt ≠ -32768) : (-x).toInt = -x.toInt :=
  BitVec.toInt_neg_of_ne_intMin fun hmin => h (by rw [hmin]; rfl)

/-! Steps 1 and 2: the pre-scale and the magnitude (R108, R109). -/

theorem scaledInput_bounds (x : Lane) (shift : BitVec 5) :
    -2 ^ 31 ≤ scaledInput x shift ∧ scaledInput x shift < 2 ^ 31 := s32_bounds _

theorem scaledInput_modEq (x : Lane) (shift : BitVec 5) :
    scaledInput x shift ≡ x.toInt * 3 * 2 ^ shift.toNat [ZMOD 2 ^ 32] := by
  rw [mul_assoc]
  exact (s32_modEq _).trans ((s32_modEq _).mul_left _)

/-- No product wraps up to shift 14: `32768 * 3 * 2^14 < 2^31` (R108). -/
theorem scaledInput_of_le (x : Lane) {shift : BitVec 5} (hs : shift.toNat ≤ 14) :
    scaledInput x shift = x.toInt * 3 * 2 ^ shift.toNat := by
  obtain ⟨hxlo, hxhi⟩ := lane_toInt_bounds x
  have hpos : (0 : Int) < 2 ^ shift.toNat := by positivity
  have hpow : (2 : Int) ^ shift.toNat ≤ 2 ^ 14 := pow_le_pow_right₀ (by decide) hs
  have hlo : -32768 * 2 ^ shift.toNat ≤ x.toInt * 2 ^ shift.toNat := mul_le_mul_of_nonneg_right hxlo hpos.le
  have hhi : x.toInt * 2 ^ shift.toNat ≤ 32767 * 2 ^ shift.toNat := mul_le_mul_of_nonneg_right hxhi hpos.le
  rw [scaledInput, s32_of_bounds (v := 3 * 2 ^ shift.toNat) (by omega) (by omega), ← mul_assoc]
  exact s32_of_bounds (by linarith) (by linarith)

theorem scaledInput_zero (shift : BitVec 5) : scaledInput 0 shift = 0 := by
  rw [scaledInput, show (0 : Lane).toInt = 0 from rfl, zero_mul]
  rfl

theorem scaledInput_neg (x : Lane) {shift : BitVec 5} (hs : shift.toNat ≤ 14) (hx : x.toInt ≠ -32768) :
    scaledInput (-x) shift = -scaledInput x shift := by
  rw [scaledInput_of_le _ hs, scaledInput_of_le _ hs, lane_toInt_neg x hx]
  ring

theorem scaledInput_mono {x x' : Lane} {shift : BitVec 5} (hs : shift.toNat ≤ 14) (h : x.toInt ≤ x'.toInt) :
    scaledInput x shift ≤ scaledInput x' shift := by
  rw [scaledInput_of_le _ hs, scaledInput_of_le _ hs]
  gcongr

theorem absInput_eq_natAbs {p : Int} (h : -2 ^ 31 ≤ p) : absInput p = p.natAbs := by
  unfold absInput
  split <;> omega

/-! The table (R104). -/

theorem lutEntry_le (t : SigmoidTable) (i : Nat) : lutEntry t i ≤ 65535 := by
  have := (t.get (Fin.ofNat 256 i)).isLt
  unfold lutEntry
  omega

theorem lutLegal.mono {t : SigmoidTable} (ht : lutLegal t) {i j : Nat} (hij : i ≤ j) (hj : j ≤ 255) :
    lutEntry t i ≤ lutEntry t j := by
  induction j, hij using Nat.le_induction with
  | base => exact le_rfl
  | succ j _ ih => exact (ih (by omega)).trans (ht.2 ⟨j, hj⟩)

theorem lutLegal.le_entry {t : SigmoidTable} (ht : lutLegal t) {i : Nat} (hi : i ≤ 255) : 32768 ≤ lutEntry t i :=
  ht.1.ge.trans (ht.mono (Nat.zero_le i) hi)

/-! Steps 3 to 5: saturation and interpolation (R110, R111). -/

section
variable {t : SigmoidTable} {k a b : Nat} {ceiling : Int}

theorem interpolate_saturated (h : 255 * 2 ^ k ≤ a) : interpolate t k ceiling a = ceiling := by
  rw [interpolate, Nat.shiftRight_eq_div_pow]
  exact if_pos ((Nat.le_div_iff_mul_le (by positivity)).mpr h)

theorem div_lt_of_below (h : a < 255 * 2 ^ k) : a / 2 ^ k < 255 := Nat.div_lt_of_lt_mul (mul_comm 255 _ ▸ h)

/-- Below saturation the value is the weighted sum of two neighbouring entries (R111). -/
theorem interpolate_below (h : a < 255 * 2 ^ k) :
    interpolate t k ceiling a =
      lutEntry t (a / 2 ^ k) * (2 ^ k - (a % 2 ^ k : Nat)) + lutEntry t (a / 2 ^ k + 1) * (a % 2 ^ k : Nat) := by
  rw [interpolate, Nat.shiftRight_eq_div_pow, if_neg (Nat.not_le.mpr (div_lt_of_below h))]
  ring

/-- The weight of the upper entry lies in [0, 2^k]. -/
theorem weight_bounds (a k : Nat) : (0 : Int) ≤ (a % 2 ^ k : Nat) ∧ ((a % 2 ^ k : Nat) : Int) + 1 ≤ 2 ^ k :=
  ⟨Int.natCast_nonneg _, by exact_mod_cast Nat.mod_lt a (Nat.two_pow_pos k)⟩

/-- Below saturation the value lies between the two entries, at scale `2^k`. -/
theorem lutLegal.interpolate_between (ht : lutLegal t) (h : a < 255 * 2 ^ k) :
    lutEntry t (a / 2 ^ k) * 2 ^ k ≤ interpolate t k ceiling a ∧
    interpolate t k ceiling a ≤ lutEntry t (a / 2 ^ k + 1) * 2 ^ k := by
  obtain ⟨hw0, hw1⟩ := weight_bounds a k
  have hstep := ht.mono (Nat.le_succ (a / 2 ^ k)) (div_lt_of_below h)
  rw [interpolate_below h]
  constructor <;> nlinarith

/-- Below saturation the interpolation is monotone: within a segment because the entries never fall, and across segments
because each value lies between its segment's entries. -/
theorem lutLegal.interpolate_mono (ht : lutLegal t) (hab : a ≤ b) (hb : b < 255 * 2 ^ k) :
    interpolate t k ceiling a ≤ interpolate t k ceiling b := by
  have ha := hab.trans_lt hb
  rcases (Nat.div_le_div_right (c := 2 ^ k) hab).eq_or_lt with hseg | hseg
  · have hstep := ht.mono (Nat.le_succ (a / 2 ^ k)) (div_lt_of_below ha)
    have hw : ((a % 2 ^ k : Nat) : Int) ≤ (b % 2 ^ k : Nat) := by
      have hadiv := Nat.div_add_mod a (2 ^ k)
      have hbdiv := Nat.div_add_mod b (2 ^ k)
      rw [← hseg] at hbdiv
      omega
    rw [interpolate_below ha, interpolate_below hb, ← hseg]
    nlinarith
  · calc interpolate t k ceiling a ≤ lutEntry t (a / 2 ^ k + 1) * 2 ^ k := (ht.interpolate_between ha).2
      _ ≤ lutEntry t (b / 2 ^ k) * 2 ^ k := by
        gcongr
        exact ht.mono hseg (div_lt_of_below hb).le
      _ ≤ interpolate t k ceiling b := (ht.interpolate_between hb).1

/-- Below saturation the value lies between the table's extremes 32768 and 65535, at scale `2^k`. -/
theorem lutLegal.interpolate_bounds (ht : lutLegal t) (h : a < 255 * 2 ^ k) :
    32768 * 2 ^ k ≤ interpolate t k ceiling a ∧ interpolate t k ceiling a ≤ 65535 * 2 ^ k := by
  obtain ⟨hlo, hhi⟩ := ht.interpolate_between (ceiling := ceiling) h
  have hentry := ht.le_entry (div_lt_of_below h).le
  have hnext := lutEntry_le t (a / 2 ^ k + 1)
  exact ⟨le_trans (by gcongr) hlo, hhi.trans (by gcongr)⟩

/-- With R114's condition only the last entry can be 65535, and no index below saturation reaches it. -/
theorem lutLegal.interpolate_lt (ht : lutLegal t) (h254 : lutEntry t 254 ≤ 65534) (h : a < 255 * 2 ^ k) :
    interpolate t k ceiling a < 65535 * 2 ^ k := by
  obtain ⟨hw0, hw1⟩ := weight_bounds a k
  have hdiv := div_lt_of_below h
  have hentry := (ht.mono (Nat.le_of_lt_succ hdiv) (by decide)).trans h254
  have hnext := lutEntry_le t (a / 2 ^ k + 1)
  rw [interpolate_below h]
  nlinarith

end

theorem sigmoidInner_saturated (t : SigmoidTable) {a : Nat} (h : 130560 ≤ a) : sigmoidInner t a = 33553408 :=
  interpolate_saturated h

theorem tanhInner_saturated (t : SigmoidTable) {a : Nat} (h : 65280 ≤ a) : tanhInner t a = 16776960 :=
  interpolate_saturated h

theorem lutLegal.sigmoidInner_bounds {t : SigmoidTable} (ht : lutLegal t) (a : Nat) :
    0 ≤ sigmoidInner t a ∧ sigmoidInner t a < 2 ^ 26 := by
  rcases Nat.lt_or_ge a 130560 with h | h
  · obtain ⟨hlo, hhi⟩ := ht.interpolate_bounds (k := 9) (ceiling := 0x7fff * 2 ^ 10) h
    rw [sigmoidInner]
    omega
  · rw [sigmoidInner_saturated t h]
    decide

theorem lutLegal.tanhInner_bounds {t : SigmoidTable} (ht : lutLegal t) (a : Nat) :
    0 ≤ tanhInner t a ∧ tanhInner t a < 2 ^ 26 := by
  rcases Nat.lt_or_ge a 65280 with h | h
  · obtain ⟨hlo, hhi⟩ := ht.interpolate_bounds (k := 8) (ceiling := 0xffff * 2 ^ 8) h
    rw [tanhInner]
    omega
  · rw [tanhInner_saturated t h]
    decide

/-! Step 6 (R112, R113). -/

/-- Step 6 of SIGMOID for a nonnegative input of magnitude `a`. -/
def sigmoidCurve (t : SigmoidTable) (a : Nat) : Int := (sigmoidInner t a + 2 ^ 9) / 2 ^ 10

/-- Step 6 of TANH for a nonnegative input of magnitude `a`. -/
def tanhCurve (t : SigmoidTable) (a : Nat) : Int := (tanhInner t a - 2 ^ 23 + 2 ^ 7) / 2 ^ 8

/-- A curve on magnitudes, continued to negative inputs so that the values at `p` and `-p` sum to `c`. -/
def reflectAt (c : Int) (f : Nat → Int) (p : Int) : Int := if 0 ≤ p then f p.natAbs else c - f p.natAbs

/-- The floor in step 6's negative branch is the reflection of the floor in its nonnegative branch (R112). -/
theorem act_sigmoid_eq (t : SigmoidTable) (x : Lane) (shift : BitVec 5) :
    act t .sigmoid x shift = s16 (reflectAt 32768 (sigmoidCurve t) (scaledInput x shift)) := by
  rw [act, actSigmoid, absInput_eq_natAbs (scaledInput_bounds x shift).1, reflectAt, sigmoidCurve]
  split
  · rfl
  · congr 1
    omega

/-- The floor in step 6's negative branch is the reflection of the floor in its nonnegative branch (R113). -/
theorem act_tanh_eq (t : SigmoidTable) (x : Lane) (shift : BitVec 5) :
    act t .tanh x shift = s16 (reflectAt 0 (tanhCurve t) (scaledInput x shift)) := by
  rw [act, actTanh, absInput_eq_natAbs (scaledInput_bounds x shift).1, reflectAt, tanhCurve]
  split
  · rfl
  · congr 1
    omega

/-- What range, symmetry and monotonicity rest on: the curve never falls, starts at half of `c` and stays within 32767. -/
structure IsActivationCurve (c : Int) (f : Nat → Int) : Prop where
  mono : Monotone f
  zero : 2 * f 0 = c
  le   : ∀ a, f a ≤ 32767

section
variable {c : Int} {f : Nat → Int}

theorem IsActivationCurve.half_le (hf : IsActivationCurve c f) (a : Nat) : c ≤ 2 * f a := by
  have := hf.mono (Nat.zero_le a)
  have := hf.zero
  omega

theorem IsActivationCurve.reflectAt_bounds (hf : IsActivationCurve c f) (p : Int) :
    c - 32767 ≤ reflectAt c f p ∧ reflectAt c f p ≤ 32767 := by
  have := hf.half_le p.natAbs
  have := hf.le p.natAbs
  unfold reflectAt
  split <;> omega

theorem IsActivationCurve.reflectAt_add_neg (hf : IsActivationCurve c f) (p : Int) :
    reflectAt c f p + reflectAt c f (-p) = c := by
  have := hf.zero
  unfold reflectAt
  rw [Int.natAbs_neg]
  rcases lt_trichotomy p 0 with hp | rfl | hp
  · rw [if_neg (by omega), if_pos (by omega)]
    omega
  · simp only [le_refl, if_true, neg_zero, Int.natAbs_zero]
    omega
  · rw [if_pos (by omega), if_neg (by omega)]
    omega

theorem IsActivationCurve.reflectAt_mono (hf : IsActivationCurve c f) : Monotone (reflectAt c f) := by
  intro p q hpq
  unfold reflectAt
  split <;> split
  · exact hf.mono (by omega)
  · omega
  · have := hf.half_le p.natAbs
    have := hf.mono (Nat.zero_le q.natAbs)
    have := hf.half_le q.natAbs
    omega
  · exact sub_le_sub_left (hf.mono (by omega)) c

end

/-- A function that is monotone below `n` and has its greatest value from `n` on is monotone. -/
theorem monotone_of_saturation {f : Nat → Int} {n : Nat} {top : Int} (hmono : ∀ a b, a ≤ b → b < n → f a ≤ f b)
    (hle : ∀ a, f a ≤ top) (hsat : ∀ a, n ≤ a → f a = top) : Monotone f := by
  intro a b hab
  rcases Nat.lt_or_ge b n with hb | hb
  · exact hmono a b hab hb
  · exact (hsat b hb).symm ▸ hle a

theorem reflectAt_zero (c : Int) (f : Nat → Int) : reflectAt c f 0 = f 0 := rfl

/-! The two curves: `T[0]` at 0, 32767 from saturation on, and between them the rounded interpolation. -/

theorem sigmoidCurve_saturated (t : SigmoidTable) {a : Nat} (h : 130560 ≤ a) : sigmoidCurve t a = 32767 := by
  rw [sigmoidCurve, sigmoidInner_saturated t h]
  rfl

theorem tanhCurve_saturated (t : SigmoidTable) {a : Nat} (h : 65280 ≤ a) : tanhCurve t a = 32767 := by
  rw [tanhCurve, tanhInner_saturated t h]
  rfl

/-- At magnitude 0 the value is `T[0]` at scale `2^k`. -/
theorem lutLegal.interpolate_zero {t : SigmoidTable} (ht : lutLegal t) (k : Nat) (ceiling : Int) :
    interpolate t k ceiling 0 = 32768 * 2 ^ k := by
  rw [interpolate_below (by positivity), Nat.zero_div, Nat.zero_mod, ht.1]
  ring

theorem lutLegal.sigmoidCurve_zero {t : SigmoidTable} (ht : lutLegal t) : sigmoidCurve t 0 = 16384 := by
  rw [sigmoidCurve, sigmoidInner, ht.interpolate_zero]
  rfl

theorem lutLegal.tanhCurve_zero {t : SigmoidTable} (ht : lutLegal t) : tanhCurve t 0 = 0 := by
  rw [tanhCurve, tanhInner, ht.interpolate_zero]
  rfl

theorem lutLegal.sigmoidCurve_mono_below {t : SigmoidTable} (ht : lutLegal t) {a b : Nat} (hab : a ≤ b)
    (hb : b < 130560) : sigmoidCurve t a ≤ sigmoidCurve t b := by
  have h : sigmoidInner t a ≤ sigmoidInner t b := ht.interpolate_mono hab hb
  unfold sigmoidCurve
  omega

theorem lutLegal.tanhCurve_mono_below {t : SigmoidTable} (ht : lutLegal t) {a b : Nat} (hab : a ≤ b)
    (hb : b < 65280) : tanhCurve t a ≤ tanhCurve t b := by
  have h : tanhInner t a ≤ tanhInner t b := ht.interpolate_mono hab hb
  unfold tanhCurve
  omega

/-- TANH's greatest value is its saturated one, for every table: `65535 * 2^8` is its ceiling. -/
theorem lutLegal.tanhCurve_le {t : SigmoidTable} (ht : lutLegal t) (a : Nat) : tanhCurve t a ≤ 32767 := by
  rcases Nat.lt_or_ge a 65280 with h | h
  · have hhi := (ht.interpolate_bounds (k := 8) (ceiling := 0xffff * 2 ^ 8) h).2
    rw [tanhCurve, tanhInner]
    omega
  · exact (tanhCurve_saturated t h).le

/-- SIGMOID's greatest value is its saturated one only with R114's condition: its ceiling is `65534 * 2^9`. -/
theorem lutLegal.sigmoidCurve_le {t : SigmoidTable} (ht : lutLegal t) (h254 : lutEntry t 254 ≤ 65534) (a : Nat) :
    sigmoidCurve t a ≤ 32767 := by
  rcases Nat.lt_or_ge a 130560 with h | h
  · have hhi := ht.interpolate_lt (k := 9) (ceiling := 0x7fff * 2 ^ 10) h254 h
    rw [sigmoidCurve, sigmoidInner]
    omega
  · exact (sigmoidCurve_saturated t h).le

theorem lutLegal.tanhCurve_isActivationCurve {t : SigmoidTable} (ht : lutLegal t) :
    IsActivationCurve 0 (tanhCurve t) where
  mono := monotone_of_saturation (fun _ _ => ht.tanhCurve_mono_below) ht.tanhCurve_le fun _ => tanhCurve_saturated t
  zero := by rw [ht.tanhCurve_zero, mul_zero]
  le := ht.tanhCurve_le

theorem lutLegal.sigmoidCurve_isActivationCurve {t : SigmoidTable} (ht : lutLegal t) (h254 : lutEntry t 254 ≤ 65534) :
    IsActivationCurve 32768 (sigmoidCurve t) where
  mono := monotone_of_saturation (fun _ _ => ht.sigmoidCurve_mono_below) (ht.sigmoidCurve_le h254)
    fun _ => sigmoidCurve_saturated t
  zero := by rw [ht.sigmoidCurve_zero]; rfl
  le := ht.sigmoidCurve_le h254

/-- R114: the output fits, so step 6's value is the output. -/
theorem lutLegal.act_tanh_toInt {t : SigmoidTable} (ht : lutLegal t) (x : Lane) (shift : BitVec 5) :
    (act t .tanh x shift).toInt = reflectAt 0 (tanhCurve t) (scaledInput x shift) := by
  obtain ⟨hlo, hhi⟩ := ht.tanhCurve_isActivationCurve.reflectAt_bounds (scaledInput x shift)
  rw [act_tanh_eq, toInt_s16_of_bounds (by omega) hhi]

/-- R114: the output fits, so step 6's value is the output. -/
theorem lutLegal.act_sigmoid_toInt {t : SigmoidTable} (ht : lutLegal t) (h254 : lutEntry t 254 ≤ 65534) (x : Lane)
    (shift : BitVec 5) :
    (act t .sigmoid x shift).toInt = reflectAt 32768 (sigmoidCurve t) (scaledInput x shift) := by
  obtain ⟨hlo, hhi⟩ := (ht.sigmoidCurve_isActivationCurve h254).reflectAt_bounds (scaledInput x shift)
  rw [act_sigmoid_eq, toInt_s16_of_bounds (by omega) hhi]

end Sys2Proof.Machine
end

section
/-! The statements about the activation unit (40_activation_unit.md R100 to R119). -/

namespace Sys2Proof.Machine

/-! The direct port (R100, R101). -/

/-- RELU is a nonnegative 16-bit value already (R103). -/
theorem act_relu_toInt (t : SigmoidTable) (x : Lane) (shift : BitVec 5) :
    (act t .relu x shift).toInt = max 0 x.toInt := by
  obtain ⟨hlo, hhi⟩ := lane_toInt_bounds x
  exact toInt_s16_of_bounds (by omega) (by omega)

/-- Settles O51: the request is served past what is held up, and the outputs are those of its kind. -/
theorem directPortAnswersAtAnyTime : Obligations.DirectPortAnswersAtAnyTime := by
  intro s kind x shift held rest hi hheld
  refine ⟨_, step_of_served s (.activation kind x shift) (held ++ rest)
    (hi ▸ nextEvent_behind_held _ held rest _ rfl hheld) (by simp), rfl, ?_, ?_, ?_, ?_⟩ <;> rintro rfl
  · exact ⟨act_relu_toInt s.lut x shift, rfl⟩
  · exact ⟨rfl, rfl⟩
  · exact ⟨rfl, rfl⟩
  · exact ⟨rfl, rfl⟩

/-! The function `act` (R107 to R119). -/

/-- Settles O52, by the laws of the two wraps; the wrapped value lies in the range whose magnitudes are exact. -/
theorem preScaleWrapsOnlyFromShiftFifteen : Obligations.PreScaleWrapsOnlyFromShiftFifteen := by
  intro x shift
  obtain ⟨hlo, hhi⟩ := scaledInput_bounds x shift
  refine ⟨hlo, hhi, (scaledInput_modEq x shift).symm.dvd, scaledInput_of_le x, ?_⟩
  rw [absInput_eq_natAbs hlo, Int.natCast_natAbs]

/-- Settles O53: saturation and interpolation at the two scales, `255 * 2^9 = 130560` and `255 * 2^8 = 65280`. -/
theorem interpolationIsExactBelowSaturation : Obligations.InterpolationIsExactBelowSaturation := by
  intro t a
  refine ⟨sigmoidInner_saturated t, tanhInner_saturated t, interpolate_below (k := 9), interpolate_below (k := 8),
    fun ht => ?_⟩
  obtain ⟨hslo, hshi⟩ := ht.sigmoidInner_bounds a
  exact ⟨hslo, hshi, ht.tanhInner_bounds a⟩

/-- Settles O54: a zero input is not scaled, and both curves start at `T[0]`. -/
theorem zeroInputIsTheMidpoint : Obligations.ZeroInputIsTheMidpoint := by
  intro t shift ht
  rw [act_sigmoid_eq, act_tanh_eq, scaledInput_zero, reflectAt_zero, reflectAt_zero, ht.sigmoidCurve_zero,
    ht.tanhCurve_zero]
  exact ⟨rfl, rfl⟩

/-- Settles O55: the bounds of a reflected curve, which no shift leaves. -/
theorem activationOutputsStayInRange : Obligations.ActivationOutputsStayInRange := by
  intro t x shift ht _
  refine ⟨?_, fun h254 => ?_⟩
  · rw [ht.act_tanh_toInt]
    exact ht.tanhCurve_isActivationCurve.reflectAt_bounds _
  · rw [ht.act_sigmoid_toInt h254]
    exact (ht.sigmoidCurve_isActivationCurve h254).reflectAt_bounds _

/-- Settles O56: the pre-scale is odd, and a reflected curve's values at `p` and `-p` sum to its centre. -/
theorem sigmoidAndTanhAreSymmetric : Obligations.SigmoidAndTanhAreSymmetric := by
  intro t x shift ht hs hx
  refine ⟨?_, fun h254 => ?_⟩
  · rw [ht.act_tanh_toInt, ht.act_tanh_toInt, scaledInput_neg x hs hx, eq_neg_iff_add_eq_zero, add_comm]
    exact ht.tanhCurve_isActivationCurve.reflectAt_add_neg _
  · rw [ht.act_sigmoid_toInt h254, ht.act_sigmoid_toInt h254, scaledInput_neg x hs hx]
    exact (ht.sigmoidCurve_isActivationCurve h254).reflectAt_add_neg _

/-- Settles O57: the pre-scale and a reflected curve are monotone. -/
theorem sigmoidAndTanhAreMonotone : Obligations.SigmoidAndTanhAreMonotone := by
  intro t x x' shift ht hs hxx'
  have hscaled := scaledInput_mono hs hxx'
  refine ⟨?_, fun h254 => ?_⟩
  · rw [ht.act_tanh_toInt, ht.act_tanh_toInt]
    exact ht.tanhCurve_isActivationCurve.reflectAt_mono hscaled
  · rw [ht.act_sigmoid_toInt h254, ht.act_sigmoid_toInt h254]
    exact (ht.sigmoidCurve_isActivationCurve h254).reflectAt_mono hscaled

/-- Settles O58, by evaluating the unit on R119's inputs. -/
theorem workedActivationExamples : Obligations.WorkedActivationExamples := by
  unfold Obligations.WorkedActivationExamples
  decide +kernel

end Sys2Proof.Machine
end

section
/-! ADD, SUB and MUL lane by lane (41_lane_arith.md R140 to R147, R149, R150): each writes into `V[rd]` lanes that depend
on the state before the command and not on `rd`. -/

namespace Sys2Proof.Machine

/-! The lanes a command writes. -/

/-- The lanes of a vector-vector command: reduced where active, 0 in the tail (R140, R23). -/
theorem State.vectorVector_lane (s : State) (op : Int → Int → Int) (rd rs1 rs2 : Reg) (i : Fin 32) :
    (s.vectorVector op rd rs1 rs2).lane rd i =
      if i.val < s.vl then fit16 s.overflow (op (s.maskedValue rs1 i) (s.maskedValue rs2 i)) else 0 := by
  rw [State.vectorVector, State.complete_lane, State.lane_writeReg_self, State.masked_toInt, State.masked_toInt]

theorem toInt_ite_fit16 (p : Prop) [Decidable p] (o : LaneOverflow) (v : Int) :
    (if p then fit16 o v else 0 : Lane).toInt = if p then o.reduced v else 0 := by
  rw [apply_ite BitVec.toInt, toInt_fit16]
  rfl

/-- What a vector-vector command does: the reduced lanes, and nothing else. -/
theorem State.vectorVector_reduces (s : State) (op : Int → Int → Int) (rd rs1 rs2 : Reg) :
    (∀ i : Fin 32, ((s.vectorVector op rd rs1 rs2).lane rd i).toInt =
      if i.val < s.vl then s.overflow.reduced (op (s.maskedValue rs1 i) (s.maskedValue rs2 i)) else 0) ∧
    s.sameBlockButReg (s.vectorVector op rd rs1 rs2) rd ∧ s.sameSurroundings (s.vectorVector op rd rs1 rs2) ∧
    (s.vectorVector op rd rs1 rs2).completedWith 0 := by
  refine ⟨fun i => ?_, s.writeReg_complete_frame rd _ 0⟩
  rw [State.vectorVector_lane, toInt_ite_fit16]

/-- What a vector-scalar command does: the reduced lanes, and nothing else. -/
theorem State.vectorScalar_reduces (s : State) (op : Int → Int → Int) (rd rs2 : Reg) :
    (∀ i : Fin 32, ((s.vectorScalar op rd rs2).lane rd i).toInt =
      if i.val < s.vl ∧ (s.maskOf rs2).getLsbD i.val = true
      then s.overflow.reduced (op (s.lane rs2 i).toInt s.xs1.toInt) else 0) ∧
    s.sameBlockButReg (s.vectorScalar op rd rs2) rd ∧ s.sameSurroundings (s.vectorScalar op rd rs2) ∧
    (s.vectorScalar op rd rs2).completedWith 0 := by
  refine ⟨fun i => ?_, s.writeReg_complete_frame rd _ 0⟩
  rw [State.vectorScalar_lane, toInt_ite_fit16]

/-- Settles O23: both commands are vector-vector commands. -/
theorem addVVAndSubVVWriteReducedLanes : Obligations.AddVVAndSubVVWriteReducedLanes := fun s rd rs1 rs2 =>
  ⟨⟨_, rfl, s.vectorVector_reduces _ rd rs1 rs2⟩, ⟨_, rfl, s.vectorVector_reduces _ rd rs1 rs2⟩⟩

/-- Settles O24: the three commands are vector-scalar commands. -/
theorem scalarCommandsWriteReducedLanes : Obligations.ScalarCommandsWriteReducedLanes := fun s rd rs2 =>
  ⟨⟨_, rfl, s.vectorScalar_reduces _ rd rs2⟩, ⟨_, rfl, s.vectorScalar_reduces _ rd rs2⟩,
    ⟨_, rfl, s.vectorScalar_reduces _ rd rs2⟩⟩

/-! The overflow rule (R141). -/

/-- An exact result that fits a lane is not reduced, under either rule. -/
theorem fit16_of_bounds {v : Int} (hlo : -32768 ≤ v) (hhi : v ≤ 32767) (o : LaneOverflow) : fit16 o v = s16 v := by
  cases o with
  | wrap => rfl
  | saturate => rw [fit16, min_eq_right hhi, max_eq_right hlo]

/-- Settles O26: each active sum fits a lane, so neither rule reduces it. -/
theorem inRangeSumsDoNotDependOnTheOverflowRule : Obligations.InRangeSumsDoNotDependOnTheOverflowRule := by
  intro s t t' rd rs1 rs2 hrange ht ht' i
  cases ht
  cases ht'
  rw [State.vectorVector_lane, State.vectorVector_lane]
  refine if_ctx_congr Iff.rfl (fun hi => ?_) fun _ => rfl
  obtain ⟨hlo, hhi⟩ := hrange i hi
  exact (fit16_of_bounds hlo hhi .wrap).trans (fit16_of_bounds hlo hhi .saturate).symm

/-! The laws under WRAP (R149). -/

theorem fit16_wrap_congr {v w : Int} (h : v ≡ w [ZMOD 65536]) : fit16 .wrap v = fit16 .wrap w := by
  apply BitVec.eq_of_toInt_eq
  rw [toInt_fit16, toInt_fit16, LaneOverflow.reduced, LaneOverflow.reduced, h.add_right 32768]

/-- Adding 65536 to an operand word, with the 64-bit wrap, keeps its low 16 bits. -/
theorem toInt_add_65536_modEq (x : Word64) : (x + 65536).toInt ≡ x.toInt [ZMOD 65536] := by
  have hlit : (65536 : Word64).toInt = 65536 := by decide
  rw [BitVec.toInt_add, hlit]
  have hwrap : (x.toInt + 65536).bmod (2 ^ 64) ≡ x.toInt + 65536 [ZMOD 65536] :=
    Int.ModEq.of_dvd (by decide) Int.bmod_emod
  exact hwrap.trans Int.add_modEq_right

/-- The law of the vector-scalar lanes for another scalar in the same state. -/
theorem State.vectorScalar_lane_of_xs1 (s : State) (x : Word64) (op : Int → Int → Int) (rd rs2 : Reg) (i : Fin 32) :
    (State.vectorScalar { s with xs1 := x } op rd rs2).lane rd i =
      if i.val < s.vl ∧ (s.maskOf rs2).getLsbD i.val = true
      then fit16 s.overflow (op (s.lane rs2 i).toInt x.toInt) else 0 :=
  State.vectorScalar_lane { s with xs1 := x } op rd rs2 i

theorem State.vectorVector_comm (s : State) (op : Int → Int → Int) [Std.Commutative op] (rd rs1 rs2 : Reg) :
    s.vectorVector op rd rs1 rs2 = s.vectorVector op rd rs2 rs1 := by
  simp only [State.vectorVector, Std.Commutative.comm (op := op)]

/-- Settles O27: addition of integers commutes, a difference of equals is 0, and congruent products wrap to one lane. -/
theorem wrappingLaneLaws : Obligations.WrappingLaneLaws := by
  intro s rd rs1 rs2 hwrap
  refine ⟨?_, fun t ht i => ?_, fun t t' ht ht' i => ?_⟩
  · exact congrArg Host.Outcome.next (s.vectorVector_comm (· + ·) rd rs1 rs2)
  · cases ht
    rw [State.vectorVector_lane, sub_self, hwrap]
    exact ite_self _
  · cases ht
    cases ht'
    rw [State.vectorScalar_lane, State.vectorScalar_lane_of_xs1, hwrap]
    exact if_congr Iff.rfl (fit16_wrap_congr ((toInt_add_65536_modEq s.xs1).symm.mul_left _)) rfl

/-! A destination that is also a source (R25, R150). -/

/-- The lanes a lane-arithmetic command writes are a function of the state before it, the same for every destination. -/
theorem exec_laneArith_writes (s : State) (rs1 rs2 : Reg) (f : Reg → Instr)
    (hf : (f = fun r => .addVV r rs1 rs2) ∨ (f = fun r => .subVV r rs1 rs2) ∨ (f = fun r => .addVS r rs2) ∨
      (f = fun r => .subVS r rs2) ∨ (f = fun r => .mulVS r rs2) ∨ ((f = fun r => .divVS r rs2) ∧ s.xs1 ≠ 0)) :
    ∃ g : Fin 32 → Lane, ∀ r, exec (f r) s = .next ((s.writeReg r g).complete 0) := by
  rcases hf with rfl | rfl | rfl | rfl | rfl | ⟨rfl, h0⟩
  on_goal 6 => exact ⟨_, fun _ => if_neg h0⟩
  all_goals exact ⟨_, fun _ => rfl⟩

/-- Settles O28: both destinations get the lanes computed before the write. -/
theorem destinationMayBeASource : Obligations.DestinationMayBeASource := by
  intro s t t' rd rd' rs1 rs2 f hf ht ht' i
  obtain ⟨g, hg⟩ := exec_laneArith_writes s rs1 rs2 f hf
  cases (hg rd).symm.trans ht
  cases (hg rd').symm.trans ht'
  rw [State.complete_lane, State.complete_lane, State.lane_writeReg_self, State.lane_writeReg_self]

end Sys2Proof.Machine
end

section
/-! SHUFFLE, ACTIVATION and MINMAX (42_shuffle_act_minmax.md R170 to R183): a gather, the unit's RELU lane by lane, and a
reduction to the greatest or least of a list. -/

namespace Sys2Proof.Machine

/-- A command that only answers a scalar result changes the response and the host trap alone. -/
theorem State.complete_frame (s : State) (r : Word64) :
    (s.complete r).completedWith r ∧ s.sameBlock (s.complete r) ∧ s.sameSurroundings (s.complete r) := by
  exact ⟨⟨rfl, rfl, rfl, rfl, rfl, rfl⟩, ⟨fun _ => rfl, fun _ => rfl, fun _ _ => rfl, rfl, rfl⟩,
    ⟨rfl, rfl, rfl, rfl, rfl, rfl, rfl⟩, ⟨rfl, rfl, rfl⟩, ⟨rfl, rfl, rfl, rfl, rfl, rfl, rfl⟩, fun _ => rfl, rfl, rfl⟩

/-- A lane that is 0 outside a condition, read signed. -/
theorem toInt_ite_zero (p : Prop) [Decidable p] (x : Lane) : (if p then x else 0).toInt = if p then x.toInt else 0 := by
  rw [apply_ite BitVec.toInt]
  rfl

/-! SHUFFLE. -/

/-- An index lane that reads `j` signed selects lane `j`, although the gather takes the lane unsigned. -/
theorem ofNat_toNat_of_toInt_eq (x : Lane) (j : Fin 32) (h : x.toInt = j.val) : Fin.ofNat 32 x.toNat = j := by
  have hx : x.toNat = j.val := by
    rw [BitVec.toInt_eq_toNat_cond] at h
    omega
  rw [hx]
  exact Fin.ofNat_val_eq_self j

/-- Settles O29: both clauses by whether every active index is in range; the lanes are read before the write. -/
theorem shuffleGathersOrFaults : Obligations.ShuffleGathersOrFaults := by
  intro s rd rs1 rs2
  rcases execShuffle_cases rd rs1 rs2 s with ⟨hr, h⟩ | ⟨hr, h⟩
  · refine ⟨fun _ => ⟨_, h, fun i j hi hj => ?_, fun i hi => ?_, s.writeReg_complete_frame rd _ 0⟩,
      fun hbad => absurd hr ((s.not_indicesInRange_iff rs2).mpr hbad)⟩
    · rw [State.complete_lane, State.lane_writeReg_self, if_pos hi, ofNat_toNat_of_toInt_eq _ j hj]
    · rw [State.complete_lane, s.lane_writeReg_tail rd _ i hi]
  · exact ⟨fun hin => absurd hin hr, fun _ => ⟨_, h, s.raise_frame .illegalOperand⟩⟩

/-! ACTIVATION. -/

/-- The lanes of ACTIVATION with kind 0: RELU where active, 0 in the tail (R103, R176). -/
theorem State.activationRelu_lane (s : State) (rd rs1 : Reg) (i : Fin 32) :
    ((s.activation rd rs1 0).lane rd i).toInt = if i.val < s.vl then max 0 (s.lane rs1 i).toInt else 0 := by
  rcases activation_cases s rd rs1 0 with ⟨-, h⟩ | ⟨hk, -⟩
  · rw [h, State.complete_lane, State.lane_writeReg_self, toInt_ite_zero, act_relu_toInt]
  · exact absurd rfl hk

/-- Settles O30: RELU's lanes under the frame of a register write, and a fault for every other kind. -/
theorem activationIsReluOrFaults : Obligations.ActivationIsReluOrFaults := by
  intro s rd rs1 kind
  refine ⟨⟨_, rfl, s.activationRelu_lane rd rs1, s.writeReg_complete_frame rd _ 0⟩, fun hk => ?_⟩
  rcases activation_cases s rd rs1 kind with ⟨rfl, -⟩ | ⟨-, h⟩
  · exact absurd hk (by decide)
  · exact ⟨_, congrArg Host.Outcome.next h, s.raise_frame .illegalOperationMode⟩

/-! MINMAX. -/

/-- The values that the loop of MINMAX combines with its initial value: the masked active lanes in order (R182). -/
def State.maskedActive (s : State) (rs1 : Reg) : List Int :=
  ((List.finRange 32).filter (·.val < s.vl)).map (s.maskedValue rs1)

theorem State.mem_maskedActive (s : State) (rs1 : Reg) (m : Int) :
    m ∈ s.maskedActive rs1 ↔ ∃ i : Fin 32, i.val < s.vl ∧ m = s.maskedValue rs1 i := by
  simp [State.maskedActive, eq_comm]

/-- The loop of MINMAX is a fold over those values. -/
theorem State.reduce_eq_foldl (s : State) (op : Int → Int → Int) (rs1 : Reg) :
    s.reduce op rs1 = (s.maskedActive rs1).foldl op (s.lane rs1 0).toInt := by
  simp only [State.reduce, State.maskedActive, List.foldl_map, List.foldl_filter, decide_eq_true_eq, State.masked_toInt]

/-- An extremal member, for the order `R`, of the list of lane 0 unmasked and those values, said lane by lane. -/
theorem State.extremal_of_mem_and_forall (s : State) (rs1 : Reg) (R : Int → Int → Prop) (m : Int)
    (h : m ∈ (s.lane rs1 0).toInt :: s.maskedActive rs1 ∧ ∀ b ∈ (s.lane rs1 0).toInt :: s.maskedActive rs1, R b m) :
    R (s.lane rs1 0).toInt m ∧ (∀ i : Fin 32, i.val < s.vl → R (s.maskedValue rs1 i) m) ∧
    (m = (s.lane rs1 0).toInt ∨ ∃ i : Fin 32, i.val < s.vl ∧ m = s.maskedValue rs1 i) := by
  rw [List.mem_cons, s.mem_maskedActive, List.forall_mem_cons] at h
  obtain ⟨hmem, hinit, hall⟩ := h
  exact ⟨hinit, fun i hi => hall _ ((s.mem_maskedActive rs1 _).mpr ⟨i, hi, rfl⟩), hmem⟩

theorem State.reduce_max_greatest (s : State) (rs1 : Reg) :
    (s.lane rs1 0).toInt ≤ s.reduce max rs1 ∧ (∀ i : Fin 32, i.val < s.vl → s.maskedValue rs1 i ≤ s.reduce max rs1) ∧
    (s.reduce max rs1 = (s.lane rs1 0).toInt ∨ ∃ i : Fin 32, i.val < s.vl ∧ s.reduce max rs1 = s.maskedValue rs1 i) := by
  refine s.extremal_of_mem_and_forall rs1 (· ≤ ·) _ (List.max?_eq_some_iff.mp ?_)
  rw [List.max?_cons', s.reduce_eq_foldl]

theorem State.reduce_min_least (s : State) (rs1 : Reg) :
    s.reduce min rs1 ≤ (s.lane rs1 0).toInt ∧ (∀ i : Fin 32, i.val < s.vl → s.reduce min rs1 ≤ s.maskedValue rs1 i) ∧
    (s.reduce min rs1 = (s.lane rs1 0).toInt ∨ ∃ i : Fin 32, i.val < s.vl ∧ s.reduce min rs1 = s.maskedValue rs1 i) := by
  refine s.extremal_of_mem_and_forall rs1 (· ≥ ·) _ (List.min?_eq_some_iff.mp ?_)
  rw [List.min?_cons', s.reduce_eq_foldl]

/-- Settles O31: the reductions answer the greatest and the least of the list; any other mode raises its fault. -/
theorem minmaxReducesOrFaults : Obligations.MinmaxReducesOrFaults := by
  intro s rs1 mode
  refine ⟨?_, ?_, fun hm => ?_⟩
  · obtain ⟨hinit, hall, hmem⟩ := s.reduce_max_greatest rs1
    obtain ⟨hdone, hframe⟩ := s.complete_frame (low64 (s.reduce max rs1))
    exact ⟨_, _, rfl, hdone, hinit, hall, hmem, hframe⟩
  · obtain ⟨hinit, hall, hmem⟩ := s.reduce_min_least rs1
    obtain ⟨hdone, hframe⟩ := s.complete_frame (low64 (s.reduce min rs1))
    exact ⟨_, _, rfl, hdone, hinit, hall, hmem, hframe⟩
  · rcases minmax_cases s rs1 mode with ⟨rfl, -⟩ | ⟨rfl, -⟩ | ⟨-, -, h⟩
    · exact absurd hm (by decide)
    · exact absurd hm (by decide)
    · exact ⟨_, congrArg Host.Outcome.next h, s.raise_frame .illegalOperationMode⟩

end Sys2Proof.Machine
end

section
/-! DOTP (43_backend_ops.md R201 to R203): the buffers of the one backend call, and its answer reduced to 16 bits. -/

namespace Sys2Proof.Machine

/-- A command that completes after one backend call: the call is recorded, and no register and nothing else outside
changes. -/
theorem State.issue_complete_frame (s : State) (c : PortCall) (r : Word64) :
    ((s.withOutside (s.outside.issue c)).complete r).completedWith r ∧
    s.callsMade ((s.withOutside (s.outside.issue c)).complete r) [c] ∧
    s.sameBlock ((s.withOutside (s.outside.issue c)).complete r) ∧
    s.sameInputs ((s.withOutside (s.outside.issue c)).complete r) ∧
    s.sameHarness ((s.withOutside (s.outside.issue c)).complete r) ∧
    s.sameParameters ((s.withOutside (s.outside.issue c)).complete r) ∧
    s.sameMemory ((s.withOutside (s.outside.issue c)).complete r) ∧
    ((s.withOutside (s.outside.issue c)).complete r).waiting = s.waiting := by
  exact ⟨⟨rfl, rfl, rfl, rfl, rfl, rfl⟩, rfl, ⟨fun _ => rfl, fun _ => rfl, fun _ _ => rfl, rfl, rfl⟩,
    ⟨rfl, rfl, rfl, rfl, rfl, rfl, rfl⟩, ⟨rfl, rfl, rfl⟩, ⟨rfl, rfl, rfl, rfl, rfl, rfl, rfl⟩, fun _ => rfl, rfl⟩

theorem State.maskedBuffer_toInt (s : State) (r : Reg) (i : Fin 32) :
    (s.maskedBuffer r)[i].toInt = if i.val < s.vl then s.maskedValue r i else 0 := by
  rw [State.maskedBuffer_getElem, toInt_ite_zero, State.masked_toInt]

/-- The lanes of a buffer, read signed, determine it. -/
theorem State.eq_maskedBuffer {s : State} {r : Reg} {a : LaneVec}
    (h : ∀ i : Fin 32, a[i].toInt = if i.val < s.vl then s.maskedValue r i else 0) : a = s.maskedBuffer r :=
  Vector.ext fun i hi => BitVec.eq_of_toInt_eq ((h ⟨i, hi⟩).trans (s.maskedBuffer_toInt r ⟨i, hi⟩).symm)

/-- The reference backend's exact sum over the buffers of R202, in terms of the masked lanes (R203). -/
theorem State.dotpReference_maskedBuffer (s : State) (rs1 rs2 : Reg) :
    dotpReference (s.maskedBuffer rs1) (s.maskedBuffer rs2) =
      ∑ i : Fin 32, (if i.val < s.vl then s.maskedValue rs1 i * s.maskedValue rs2 i else 0) := by
  rw [dotpReference, ← Fin.sum_univ_def]
  refine Finset.sum_congr rfl fun i _ => ?_
  rw [State.maskedBuffer_toInt, State.maskedBuffer_toInt, ite_zero_mul_ite_zero]
  exact if_congr and_self_iff rfl rfl

/-- DOTP with a backend that answers `acc`: the low 16 bits of `acc`, sign-extended. -/
theorem execDotp_answered (rs1 rs2 : Reg) (s : State) (acc : Int) (hready : s.bridgeReady = true)
    (hacc : s.outside.backend.dotp (s.maskedBuffer rs1) (s.maskedBuffer rs2) = some acc) :
    exec (.dotp rs1 rs2) s = .next ((s.withOutside (s.outside.issue (.dotp (s.maskedBuffer rs1)
      (s.maskedBuffer rs2)))).complete ((BitVec.ofInt 16 acc).signExtend 64)) := by
  rcases execDotp_cases rs1 rs2 s with ⟨hb, -⟩ | ⟨_, -, hd, h⟩ | ⟨-, hb, -⟩
  · simp [hready] at hb
  · cases hd.symm.trans hacc
    exact h
  · simp [hb, Backend.dotp] at hacc

/-- Settles O33: the reference backend answers the sum of the products, another one its function of the same buffers. -/
theorem dotpReturnsTheSignExtendedLowHalf : Obligations.DotpReturnsTheSignExtendedLowHalf := by
  intro s rs1 rs2 hready
  refine ⟨fun hb => ?_, fun hb a b ha hb' => ?_⟩
  · have h := execDotp_answered rs1 rs2 s _ hready (by rw [hb, Backend.dotp])
    obtain ⟨hdone, hframe⟩ := s.issue_complete_frame (.dotp (s.maskedBuffer rs1) (s.maskedBuffer rs2)) _
    rw [State.dotpReference_maskedBuffer] at h
    exact ⟨_, _, _, h, hdone, s.maskedBuffer_toInt rs1, s.maskedBuffer_toInt rs2, hframe⟩
  · rw [State.eq_maskedBuffer ha, State.eq_maskedBuffer hb']
    exact ⟨_, execDotp_answered rs1 rs2 s _ hready (by rw [hb, Backend.dotp]), s.issue_complete_frame _ _⟩

end Sys2Proof.Machine
end

section
/-! MVM (43_backend_ops.md R205, R206), and DOTP and MVM when the backend is not ready (R200) or never answers (R201,
70_reset_and_hazards.md R348). -/

namespace Sys2Proof.Machine

/-! MVM with a backend that answers. -/

/-- The cells of a square buffer determine it. -/
theorem State.eq_matrixBuffer {s : State} {w : Matrix}
    (h : ∀ row col : Fin 32, w[row][col] = if row.val < s.vl ∧ col.val < s.vl then s.cell row col else 0) :
    w = s.matrixBuffer :=
  Vector.ext fun i hi => Vector.ext fun j hj => (h ⟨i, hi⟩ ⟨j, hj⟩).trans (s.matrixBuffer_getElem ⟨i, hi⟩ ⟨j, hj⟩).symm

/-- The reference backend's sum over one active row of the buffers of R205: the exact sum over the active columns. -/
theorem State.dotpReference_matrixBuffer_row (s : State) (rs1 : Reg) (row : Fin 32) (hrow : row.val < s.vl) :
    dotpReference s.matrixBuffer[row] (s.maskedBuffer rs1) =
      ∑ col : Fin 32, (if col.val < s.vl then (s.cell row col).toInt * s.maskedValue rs1 col else 0) := by
  rw [dotpReference, ← Fin.sum_univ_def]
  refine Finset.sum_congr rfl fun col _ => ?_
  rw [State.matrixBuffer_getElem, State.maskedBuffer_toInt]
  by_cases hcol : col.val < s.vl
  · rw [if_pos ⟨hrow, hcol⟩, if_pos hcol, if_pos hcol]
  · rw [if_neg hcol, if_neg hcol, mul_zero]

/-- The reference backend reduces each row's sum to 16 bits by wrapping, whatever `LANE_OVERFLOW` is (R206). -/
theorem toInt_mvmReference_getElem (w : Matrix) (x : LaneVec) (row : Fin 32) :
    (mvmReference w x)[row].toInt = LaneOverflow.wrap.reduced (dotpReference w[row] x) := by
  have hrow : (mvmReference w x)[row] = fit16 .wrap (dotpReference w[row] x) := Vector.getElem_ofFn row.isLt
  rw [hrow, toInt_fit16]

/-- MVM with a backend that answers `y`: one call, the active lanes of `V[rd]` are those of `y`, and nothing else changes. -/
theorem mvm_completes_of_answer (s : State) (rd rs1 : Reg) (y : LaneVec) (hready : s.bridgeReady = true)
    (hy : s.outside.backend.mvm s.matrixBuffer (s.maskedBuffer rs1) = some y) :
    ∃ t, exec (.mvm rd rs1) s = .next t ∧
      (∀ i : Fin 32, t.lane rd i = if i.val < s.vl then y[i] else 0) ∧
      s.callsMade t [.mvm s.matrixBuffer (s.maskedBuffer rs1)] ∧ s.sameBlockButReg t rd ∧ s.sameInputs t ∧
      s.sameHarness t ∧ s.sameParameters t ∧ s.sameMemory t ∧ t.waiting = s.waiting ∧ t.completedWith 0 := by
  rcases execMvm_cases rd rs1 s with ⟨hb, -⟩ | ⟨_, -, hy', h⟩ | ⟨-, hb, -⟩
  · simp [hready] at hb
  · cases hy'.symm.trans hy
    obtain ⟨hblock, ⟨hinputs, hharness, hparameters, hmemory, hcalls, hwaiting⟩, hdone⟩ :=
      (s.withOutside (s.outside.issue (.mvm s.matrixBuffer (s.maskedBuffer rs1)))).writeReg_complete_frame rd
        (fun i => s16 y[i].toInt) 0
    refine ⟨_, h, fun i => ?_, hcalls, hblock, hinputs, hharness, hparameters, hmemory, hwaiting, hdone⟩
    rw [State.complete_lane, State.lane_writeReg_self, State.withOutside_vl, s16, BitVec.ofInt_toInt]
  · simp [hb, Backend.mvm] at hy

/-- Settles O34: the reference backend's answer, row by row. -/
theorem mvmIsRowTimesVector : Obligations.MvmIsRowTimesVector := by
  intro s rd rs1 hready hb
  obtain ⟨t, hexec, hlanes, hcalls, hframe⟩ :=
    mvm_completes_of_answer s rd rs1 _ hready (by rw [hb, Backend.mvm])
  refine ⟨t, _, _, hexec, fun row => ?_, s.matrixBuffer_getElem, s.maskedBuffer_toInt rs1, hcalls, hframe⟩
  rw [hlanes, toInt_ite_zero, toInt_mvmReference_getElem]
  split
  next hrow => rw [s.dotpReference_matrixBuffer_row rs1 row hrow]
  next => rfl

/-- Settles O35: the buffers are determined lane by lane, and the answer to them is the external function's. -/
theorem mvmWritesAnyBackendsAnswers : Obligations.MvmWritesAnyBackendsAnswers := by
  intro s rd rs1 hready hb w x hw hx
  rw [State.eq_matrixBuffer hw, State.eq_maskedBuffer hx]
  exact mvm_completes_of_answer s rd rs1 _ hready (by rw [hb, Backend.mvm])

/-! Both commands without an answer. -/

/-- Settles O32: the bridge is looked at first, and the fault changes nothing else (R200). -/
theorem backendCommandsFaultBeforeInitialization : Obligations.BackendCommandsFaultBeforeInitialization := by
  intro s rd rs1 rs2 hdown
  refine ⟨?_, ?_⟩
  · rcases execDotp_cases rs1 rs2 s with ⟨-, h⟩ | ⟨_, hb, -⟩ | ⟨hb, -⟩
    · exact ⟨_, h, s.raise_frame .backendUnavailable⟩
    · simp [hdown] at hb
    · simp [hdown] at hb
  · rcases execMvm_cases rd rs1 s with ⟨-, h⟩ | ⟨_, hb, -⟩ | ⟨hb, -⟩
    · exact ⟨_, h, s.raise_frame .backendUnavailable⟩
    · simp [hdown] at hb
    · simp [hdown] at hb

/-- A command stuck on its one backend call: the call is recorded, and no register and nothing else outside changes. -/
theorem State.issue_stall_frame (s : State) (c : PortCall) {t : State}
    (ht : t = (s.withOutside (s.outside.issue c)).stall .backend) :
    t.stuckOn .backend ∧ s.callsMade t [c] ∧ s.sameBlock t ∧ s.sameInputs t ∧ s.sameHarness t ∧ s.sameParameters t ∧
    s.sameMemory t := by
  subst ht
  obtain ⟨hstuck, hblock, hinputs, hharness⟩ := s.stall_withOutside_frame (s.outside.issue c) .backend
  exact ⟨hstuck, rfl, hblock, hinputs, hharness, ⟨rfl, rfl, rfl, rfl, rfl, rfl, rfl⟩, sameMemory_of_mem_eq rfl⟩

/-- Settles O36: with a silent backend neither command can fault or complete, so each stalls on its call. -/
theorem silentBackendLeavesTheBlockStuck : Obligations.SilentBackendLeavesTheBlockStuck := by
  intro s rd rs1 rs2 hready hsilent
  refine ⟨?_, ?_⟩
  · rcases execDotp_cases rs1 rs2 s with ⟨hb, -⟩ | ⟨_, -, hacc, -⟩ | ⟨-, -, h⟩
    · simp [hready] at hb
    · simp [hsilent, Backend.dotp] at hacc
    · obtain ⟨hstuck, hframe⟩ := s.issue_stall_frame (.dotp (s.maskedBuffer rs1) (s.maskedBuffer rs2)) rfl
      exact ⟨_, _, _, h, hstuck, s.maskedBuffer_toInt rs1, s.maskedBuffer_toInt rs2, hframe⟩
  · rcases execMvm_cases rd rs1 s with ⟨hb, -⟩ | ⟨_, -, hy, -⟩ | ⟨-, -, h⟩
    · simp [hready] at hb
    · simp [hsilent, Backend.mvm] at hy
    · obtain ⟨hstuck, hframe⟩ := s.issue_stall_frame (.mvm s.matrixBuffer (s.maskedBuffer rs1)) rfl
      exact ⟨_, _, _, h, hstuck, s.matrixBuffer_getElem, s.maskedBuffer_toInt rs1, hframe⟩

end Sys2Proof.Machine
end

section
/-! CONFIG with selectors 0, 1 and 3 on, and the stride side-band (44_config.md R222, R224, R228, R230): each changes one
register of the block or none, and the rest is the frame of the command's ending. -/

namespace Sys2Proof.Machine

/-! CONFIG. -/

/-- Settles O37: in range `VL` is replaced and the command completes; out of range it faults (R222). -/
theorem setVLAcceptsOneToThirtyTwo : Obligations.SetVLAcceptsOneToThirtyTwo := by
  intro s
  rcases execConfigVL_cases s with ⟨hin, h⟩ | ⟨hout, h⟩
  · obtain ⟨hdone, ⟨hreg, hmask, hcell, hvl, hstride⟩, hframe⟩ := (s.setVL s.xs1.toNat).complete_frame 0
    exact ⟨fun _ => ⟨_, h, hvl, hreg, hmask, hcell, hstride, hframe, hdone⟩, fun hbad => by omega⟩
  · exact ⟨fun hin => absurd hin hout, fun _ => ⟨_, h, s.raise_frame .illegalConfiguration⟩⟩

/-- The mask that selector 1 writes has the bits of the low half of `xs1` (R224). -/
theorem getLsbD_lowHalf (x : Word64) {i : Nat} (hi : i < 32) : (x.extractLsb' 0 32).getLsbD i = x.getLsbD i := by
  rw [BitVec.getLsbD_extractLsb', Nat.zero_add, decide_eq_true hi, Bool.true_and]

/-- Settles O38: `MASK[rs2]` is replaced whole, and completing changes no register (R224). -/
theorem setMaskReplacesOneMask : Obligations.SetMaskReplacesOneMask := by
  intro s rs2
  obtain ⟨hdone, ⟨hreg, hmask, hcell, hvl, hstride⟩, hframe⟩ :=
    (s.setMask rs2 (s.xs1.extractLsb' 0 32)).complete_frame 0
  refine ⟨_, rfl, fun i hi => ?_, fun r hr => ?_, hreg, hcell, hvl, hstride, hframe, hdone⟩
  · rw [hmask, State.maskOf_setMask_self, getLsbD_lowHalf s.xs1 hi]
  · rw [hmask, s.maskOf_setMask_ne rs2 r _ hr]

/-- Settles O39: the command is a fault whatever its selector (R228). -/
theorem otherConfigSelectorsFault : Obligations.OtherConfigSelectorsFault := fun s _ _ =>
  ⟨_, rfl, s.raise_frame .illegalConfiguration⟩

/-! The stride side-band. -/

/-- Settles O15: a block that accepts commands serves the write, one that does not holds it (R230, R346). -/
theorem strideSideBandActsBetweenCommands : Obligations.StrideSideBandActsBetweenCommands := by
  intro s x rest
  refine ⟨fun hr hi => ?_, fun hr hi => step_of_held s hr (by simp [hi, HostEvent.asynchronous])⟩
  exact step_of_served s (.strideWrite x) rest (by rw [hr, hi, nextEvent_ready]) (by simp)

end Sys2Proof.Machine
end

section
/-! DUMP and the unrecognized commands (46_dump_unknown.md R260 to R263): neither touches the block, and what each adds is
one entry of the harness log. -/

namespace Sys2Proof.Machine

/-- Settles O49: the harness log is the only part of the state that emitting the counters changes, and completing adds the
response to it (R260). -/
theorem dumpEmitsTheCounters : Obligations.DumpEmitsTheCounters := by
  intro s
  obtain ⟨hdone, hblock, hinputs, ⟨hbridge, hcounts, hlog⟩, hparameters, hmemory, hcalls, hwaiting⟩ :=
    s.emitCounts.complete_frame 0
  exact ⟨_, rfl, hdone, hblock, hinputs, hparameters, hmemory, hcalls, hwaiting, hbridge, hcounts,
    hlog.trans s.emitCounts_harnessLog⟩

/-- The unrecognized path leaves the inputs of the block alone. -/
theorem State.reportUnrecognized_sameInputs (s : State) : s.sameInputs s.reportUnrecognized :=
  ⟨rfl, rfl, rfl, rfl, rfl, rfl, rfl⟩

/-- Settles O50: all three rows take the unrecognized path, which only responds and leaves its mark in the log (R262,
R263). -/
theorem unrecognizedCommandsAreReportedNoOps : Obligations.UnrecognizedCommandsAreReportedNoOps := by
  intro s i hi
  obtain ⟨hreported, hblock, hparameters, hmemory, hcalls⟩ := s.reportUnrecognized_frame
  exact ⟨_, exec_of_isUnrecognized i s hi, hreported, hblock, s.reportUnrecognized_sameInputs, hparameters, hmemory, hcalls,
    s.reportUnrecognized_waiting, s.reportUnrecognized_bridgeReady, s.reportUnrecognized_counts,
    s.reportUnrecognized_harnessLog⟩

end Sys2Proof.Machine
end

section
/-! Faults other than memory faults (60_exceptions.md R305, R310): no command raises one after it has changed the block or
called a port. -/

namespace Sys2Proof.Machine

/-- What a command that faults has done: an access of its own faulted, or it only raised the fault; every other ending
leaves the fault output 0. -/
theorem Effect.raised_of_fault {i : Instr} {s t : State} (h : Effect i s t) (hf : t.resp.fault = true) :
    t.resp.cause = 5 ∨ ∃ c, t = s.raise c := by
  cases h with
  | raised c => exact .inr ⟨c, rfl⟩
  | matrixFault | loadFault | storeFault => exact .inl rfl
  | _ => exact absurd hf Bool.false_ne_true

/-- Settles O20: such a fault was only raised, and raising changes the response and the host trap alone. -/
theorem faultsOtherThanMemoryFaultsArePrecise : Obligations.FaultsOtherThanMemoryFaultsArePrecise := by
  intro i s t h hf hc
  rcases (effect_of_exec i s t h).raised_of_fault hf with hmem | ⟨c, rfl⟩
  · exact absurd hmem hc
  · obtain ⟨-, hblock, -, -, -, hmemory, hcalls, -⟩ := s.raise_frame c
    exact ⟨hblock, hmemory, hcalls⟩

end Sys2Proof.Machine
end

section
/-! The state at process start (70_reset_and_hazards.md R340 to R342): process start is the reset event of R340, asserted and
released, so the laws of `rst` give the values of R341. -/

namespace Sys2Proof.Machine

/-- Releasing `rst` leaves the values of R341 as they are. -/
theorem State.releaseRst_hasResetValues (s : State) (h : s.hasResetValues) : s.releaseRst.hasResetValues := h

/-- The state at process start is one that the reset event, once released, leaves unchanged. -/
theorem State.reset_releaseRst_applyRst : State.reset.applyRst.releaseRst = State.reset := rfl

theorem State.reset_hasResetValues : State.reset.hasResetValues :=
  State.reset_releaseRst_applyRst ▸ State.releaseRst_hasResetValues _ State.reset.applyRst_hasResetValues

/-- Settles O11: the values are those the reset event leaves; with no command in progress and `rst` released the block accepts
commands. -/
theorem resetStateHoldsTheStatedValues : Obligations.ResetStateHoldsTheStatedValues := by
  obtain ⟨hlane, hmask, hcell, hvl, hstride, hresp, hwaiting, hcounts⟩ := State.reset_hasResetValues
  have hready : State.reset.cmdReady = true := State.reset.cmdReady_iff.mpr ⟨hwaiting, rfl⟩
  exact ⟨hlane, hmask, hcell, hvl, hstride, hresp, hcounts, rfl, hready⟩

end Sys2Proof.Machine
end
